-- ==== Sys2Proof/Word.lean ====
section
/-! DEFINITION. The words MICCORE moves (00_scope.md R14) and the two fixed-size containers its state is made of. -/

namespace Sys2Proof

/-- One byte of an FPGA-bus buffer (20_memory.md R50). -/
abbrev Byte := BitVec 8

/-- A 16-bit pattern: an i16 sample or tap in two's complement, or a u16 (R14). -/
abbrev Half := BitVec 16

/-- The 32-bit word of the host port, and a u32 (R14, R50). -/
abbrev Word := BitVec 32

/-- An IEEE 754 binary64 bit pattern (R14). -/
abbrev F64 := BitVec 64

/-- The number of channels, slots and taps the source fixes (00_scope.md R5). -/
abbrev NCH : Nat := 8
abbrev QCAP : Nat := 32
abbrev NTAPS : Nat := 128
abbrev NRATES : Nat := 9

/-- A channel number, 0..7 (R5). -/
abbrev Channel := Fin 8

/-- One value per channel (R5: NCH = 8). -/
structure Eight (α : Type) where
  c0 : α
  c1 : α
  c2 : α
  c3 : α
  c4 : α
  c5 : α
  c6 : α
  c7 : α
  deriving DecidableEq, Repr

/-- The value of channel `c`. -/
def Eight.get {α : Type} (e : Eight α) (c : Channel) : α :=
  match c.val with
  | 0 => e.c0
  | 1 => e.c1
  | 2 => e.c2
  | 3 => e.c3
  | 4 => e.c4
  | 5 => e.c5
  | 6 => e.c6
  | _ => e.c7

def Eight.ofFn {α : Type} (f : Channel → α) : Eight α :=
  ⟨f 0, f 1, f 2, f 3, f 4, f 5, f 6, f 7⟩

def Eight.map {α β : Type} (f : α → β) (e : Eight α) : Eight β :=
  ⟨f e.c0, f e.c1, f e.c2, f e.c3, f e.c4, f e.c5, f e.c6, f e.c7⟩

/-- `e` with the value of channel `c` replaced by `v`. -/
def Eight.set {α : Type} (e : Eight α) (c : Channel) (v : α) : Eight α :=
  .ofFn fun i => if i = c then v else e.get i

/-- The eight values in channel order. -/
def Eight.toList {α : Type} (e : Eight α) : List α :=
  [e.c0, e.c1, e.c2, e.c3, e.c4, e.c5, e.c6, e.c7]

/-- The channels in order. -/
def channels : List Channel := [0, 1, 2, 3, 4, 5, 6, 7]

/-- A vector of `n` values given by their index. -/
def vectorOf {α : Type} (n : Nat) (f : Nat → α) : Vector α n :=
  ⟨⟨(List.range n).map f⟩, by simp⟩

end Sys2Proof
end

