-- ==== Sys2Proof/Syntax.lean ====
section
/-! DEFINITION. The commands of MICCORE, one constructor per row of spec/opcode_table.json (30_encoding.md R71). -/

namespace Sys2Proof

/-- A command. Only ENQUEUE and DEQUEUE carry an operand in the command word, the channel CH; every other operand
stands in ARG0, ARG1 or the staging buffer (30_encoding.md R72). -/
inductive Instr where
  | init
  | readSampleRate
  | writeSampleRate
  | selectFirCoeff
  | setCustomFirCoeff
  | calcDelays
  | capture
  | enqueue (ch : Channel)
  | dequeue (ch : Channel)
  deriving DecidableEq, Repr

end Sys2Proof
end

