-- ==== Sys2Proof/WellFormed.lean ====
section
/-! DEFINITION. Which command words are legal (30_encoding.md R70, R71, R73), said of a word's three fields. -/

namespace Sys2Proof

/-- The fields of a command word (30_encoding.md R70). -/
structure CommandFields where
  opc : BitVec 8
  ch : BitVec 3
  rsv : BitVec 21
  deriving DecidableEq, Repr

namespace CommandFields

/-- RSV must be 0 (R73, second point). -/
def reservedClear (f : CommandFields) : Bool := f.rsv == 0

/-- OPC is in 0x01..0x09 (R73, first point). -/
def opcodeListed (f : CommandFields) : Bool := 1 ≤ f.opc.toNat && f.opc.toNat ≤ 9

/-- CH is 0 unless OPC is ENQUEUE or DEQUEUE (R73, third point). -/
def channelAllowed (f : CommandFields) : Bool := f.ch == 0 || f.opc == 0x08 || f.opc == 0x09

/-- The word is not illegal in the sense of R73. -/
def legal (f : CommandFields) : Bool := f.reservedClear && f.opcodeListed && f.channelAllowed

end CommandFields

/-- The field OPC of a command (R71). -/
def Instr.opcode : Instr → BitVec 8
  | .init => 0x01
  | .readSampleRate => 0x02
  | .writeSampleRate => 0x03
  | .selectFirCoeff => 0x04
  | .setCustomFirCoeff => 0x05
  | .calcDelays => 0x06
  | .capture => 0x07
  | .enqueue _ => 0x08
  | .dequeue _ => 0x09

/-- The field CH of a command: the channel of ENQUEUE and DEQUEUE, else 0 (R70). -/
def Instr.channelField : Instr → BitVec 3
  | .enqueue c => BitVec.ofFin c
  | .dequeue c => BitVec.ofFin c
  | .init | .readSampleRate | .writeSampleRate | .selectFirCoeff | .setCustomFirCoeff | .calcDelays | .capture => 0

def Instr.fields (i : Instr) : CommandFields := ⟨i.opcode, i.channelField, 0⟩

/-- A command is well-formed when its word is legal. -/
def Instr.wellFormed (i : Instr) : Bool := i.fields.legal

end Sys2Proof
end

