-- ==== Sys2Proof/Decode.lean ====
section
/-! DEFINITION. The decoder of command words (30_encoding.md R75), the encoder beside it (R70, R71), and the reader of
the host's opcode-table words. -/

namespace Sys2Proof

/-- Why a command word is refused. Each of these ends the command with ILLEGAL_COMMAND (R73, R75). -/
inductive DecodeError where
  /-- RSV, bits 31:11, is not 0. -/
  | reservedBits
  /-- OPC is not one of 0x01..0x09. -/
  | opcode
  /-- CH is not 0 and OPC is neither ENQUEUE nor DEQUEUE. -/
  | channel
  /-- The bytes are not the four of one 32-bit host write (R70). -/
  | length
  deriving DecidableEq, Repr

/-- The three fields of a command word (R70). -/
def fieldsOf (w : Word) : CommandFields :=
  ⟨w.extractLsb' 0 8, w.extractLsb' 8 3, w.extractLsb' 11 21⟩

/-- A command that takes no channel: CH must be 0. -/
def withoutChannel (ch : BitVec 3) (i : Instr) : Except DecodeError Instr :=
  if ch = 0 then .ok i else .error .channel

/-- The command a word selects, its checks in the order of R75: reserved bits, opcode, channel. The INITED gate of
R75's fourth line is a test of the state and stands in each command's meaning (notes/assumptions/15). -/
def decode (w : Word) : Except DecodeError Instr :=
  let f := fieldsOf w
  if f.rsv ≠ 0 then .error .reservedBits
  else match f.opc.toNat with
    | 0x01 => withoutChannel f.ch .init
    | 0x02 => withoutChannel f.ch .readSampleRate
    | 0x03 => withoutChannel f.ch .writeSampleRate
    | 0x04 => withoutChannel f.ch .selectFirCoeff
    | 0x05 => withoutChannel f.ch .setCustomFirCoeff
    | 0x06 => withoutChannel f.ch .calcDelays
    | 0x07 => withoutChannel f.ch .capture
    | 0x08 => .ok (.enqueue f.ch.toFin)
    | 0x09 => .ok (.dequeue f.ch.toFin)
    | _ => .error .opcode

/-- A host word from its byte lanes, lane 0 first; lane i is bits 8i+7:8i (20_memory.md R51). -/
def wordOfLanes (b0 b1 b2 b3 : Byte) : Word := b3 ++ b2 ++ b1 ++ b0

/-- The byte lanes of a host word, lane 0 first (R51). -/
def lanesOf (w : Word) : List Byte :=
  [w.extractLsb' 0 8, w.extractLsb' 8 8, w.extractLsb' 16 8, w.extractLsb' 24 8]

/-- The decoder on any bytes: one command word is exactly one 32-bit write, four lanes (R70). -/
def decodeBytes : List Byte → Except DecodeError Instr
  | [b0, b1, b2, b3] => decode (wordOfLanes b0 b1 b2 b3)
  | _ => .error .length

/-- The word that has the given fields (R70). -/
def wordOfFields (f : CommandFields) : Word := f.rsv ++ f.ch ++ f.opc

/-- The command word of a command, `OPC | (CH << 8)` (R70, R71). -/
def encode (i : Instr) : Word := wordOfFields i.fields

/-- The 32-bit word of an opcode-table entry: bit 0 is the least significant bit of the one word there is, and bits
above `nbits` are 0. -/
def tableWord (nbits w : Nat) : Word := BitVec.ofNat 32 (w % 2 ^ nbits)

/-- What the decoder reads from an opcode-table entry of `nbits` bits, laid out in its byte lanes. No command word is
longer than 32 bits (R70). -/
def decodeTableWord (nbits w : Nat) : Option Instr :=
  if 32 < nbits then none
  else match decodeBytes (lanesOf (tableWord nbits w)) with
    | .ok i => some i
    | .error _ => none

end Sys2Proof
end

