-- ==== Sys2Proof/Config.lean ====
section
/-! DEFINITION. The parameters of the step (00_scope.md R6 to R13, 10_state.md R42) and the free values.
Every OPEN parameter and every oracle draw is an opaque constant with no body: no proof can see its value, so a
claim proved here holds for each of them. Constraints the spec puts on a parameter hold by the way `Config.params`
is built from the opaque constants (notes/assumptions/2 and 3). -/

namespace Sys2Proof

/-- A row of SAMPLE_FREQ_TABLE (00_scope.md R7). -/
structure FreqRow where
  rate : Word
  constant : Half
  gain : Half
  deriving DecidableEq, Repr

/-- A row of FIR_TABLE (00_scope.md R8). -/
structure FirRow where
  rate : Word
  taps : Vector Half 128
  deriving DecidableEq, Repr

/-- The microphone of one channel, in millimetres from the array centre, at z = 0 (00_scope.md R9). -/
structure MicPos where
  x : F64
  y : F64
  deriving DecidableEq, Repr

/-- One point of `sin64` and `cos64`: an operand with its two results (00_scope.md R13, notes/assumptions/12). -/
structure TrigPoint where
  operand : F64
  sin : F64
  cos : F64
  deriving DecidableEq, Repr

/-- The parameters of rules R6 to R13, as plain data. `trig` lists points at which `sin64` and `cos64` are known;
at every other operand they are the opaque functions below. -/
structure Params where
  numSamples : Nat
  freqTable : List FreqRow
  firTable : List FirRow
  micPos : Eight MicPos
  srcDist : F64
  soundSpeed : F64
  defaultGain : Half
  defaultRate : Word
  micAddr : Half
  gainAddr : Half
  rateConstAddr : Half
  firAddr : Half
  trig : List TrigPoint
  deriving DecidableEq, Repr

namespace Config

/-! OPEN parameters (92_eei_decisions.md, table "OPEN parameters"). -/

/-- Half of NUM_SAMPLES, less one: every `n` of `Fin 512` gives an even NUM_SAMPLES in 2..1024 (R6). -/
opaque halfSamplesLessOne : Fin 512

/-- A table rate above 8000 Hz: every value of `Fin 88001` gives a rate in 8000..96000 (R7). -/
opaque rateAbove8000 : Fin 9 → Fin 88001
opaque rateConstant : Fin 9 → Half
opaque rateGain : Fin 9 → Half

/-- Which row of SAMPLE_FREQ_TABLE is the row of 16000 Hz that R7 says exists. -/
opaque row16000 : Fin 9

/-- How many rows FIR_TABLE has, at most 9 (R8). -/
opaque firRowCount : Fin 10

/-- A rate of FIR_TABLE, less one: every value of `Fin (2 ^ 32 - 1)` gives a u32 other than 0. That no row has rate 0 is
the model's reading of 90_conflicts.md C4 and 41_delay_geometry.md R107 (notes/assumptions/26). -/
opaque firRateLessOne : Nat → Fin 4294967295
opaque firTap : Nat → Nat → Half

opaque micX : Channel → F64
opaque micY : Channel → F64
opaque defaultGain : Half
opaque defaultRate : Word
opaque micAddr : Half
opaque gainAddr : Half
opaque rateConstAddr : Half
opaque firAddr : Half

/-- `sin64` and `cos64` of a finite operand: sign, exponent field other than 2047 and fraction of the result, so that
a finite operand gives a finite result (R13); and of an operand that is not finite. -/
opaque sinFinite : F64 → Bool × Fin 2047 × BitVec 52
opaque cosFinite : F64 → Bool × Fin 2047 × BitVec 52
opaque sinOther : F64 → F64
opaque cosOther : F64 → F64

/-! Oracle draws and unspecified contents, each applied to the counter `State.draw`. -/

/-- Whether bus transaction number `draw` returns `err`, and byte `i` of what a read returns (20_memory.md R58). -/
opaque freeBusErr : Nat → Bool
opaque freeBusByte : Nat → Nat → Byte

/-- The contents that reset leaves unspecified (10_state.md R43): place `i` of reset number `draw`. -/
opaque freeContent : Nat → Nat → Half

/-- Row `i` of SAMPLE_FREQ_TABLE: the row R7 fixes at 16000 Hz is one of the nine, and a row of 16000 Hz has gain 3. -/
def freqRow (i : Fin 9) : FreqRow :=
  let rate : Word := if i = row16000 then 16000 else BitVec.ofNat 32 (8000 + (rateAbove8000 i).val)
  ⟨rate, rateConstant i, if rate = 16000 then 3 else rateGain i⟩

/-- Row `i` of FIR_TABLE. -/
def firRow (i : Nat) : FirRow := ⟨BitVec.ofNat 32 ((firRateLessOne i).val + 1), vectorOf 128 (firTap i)⟩

/-- The parameters of the machine that comes out of reset. SRC_DIST and SOUND_SPEED take the source's defaults, 100.0
and 320000.0 (R10). -/
def params : Params where
  numSamples := 2 * (halfSamplesLessOne.val + 1)
  freqTable := (List.finRange 9).map freqRow
  firTable := (List.range firRowCount.val).map firRow
  micPos := .ofFn fun c => ⟨micX c, micY c⟩
  srcDist := 0x4059000000000000#64
  soundSpeed := 0x4113880000000000#64
  defaultGain := defaultGain
  defaultRate := defaultRate
  micAddr := micAddr
  gainAddr := gainAddr
  rateConstAddr := rateConstAddr
  firAddr := firAddr
  trig := []

end Config

end Sys2Proof
end

