-- ==== Sys2Proof/Machine/State.lean ====
section
/-! DEFINITION. The state of MICCORE (10_state.md) as plain data, with what its environment is about to do and what it
has been told, and the state after reset (R43, 70_reset_and_hazards.md R230). -/

namespace Sys2Proof.Machine

/-- The result codes of STATUS.ERR (10_state.md R24). The reserved codes 6–15 are never written, so they have no name. -/
inductive ErrCode where
  | ok
  | invalidInput
  | busError
  | queueFull
  | queueEmpty
  | illegalCommand
  deriving DecidableEq, Repr

/-- A command that has been issued and waits. Only CAPTURE waits (R41). -/
inductive PendingCommand where
  | capture
  deriving DecidableEq, Repr

/-- One channel's delay queue: 32 slots, the index of the oldest element, the number of elements (R30). -/
structure DelayQueue where
  buf : Vector Half 32
  head : Fin 32
  count : Nat
  deriving DecidableEq, Repr

/-- What the FPGA bus answers to one transaction: `ok`, with bytes that only a read uses, or `err` (20_memory.md R58). -/
inductive BusAnswer where
  | ok (bytes : List Byte)
  | err
  deriving DecidableEq, Repr

/-- One transaction MICCORE has issued on the FPGA bus, with its outcome (R58, R60). -/
inductive BusTxn where
  /-- `MemRead(addr, n)`: the bytes it returned, none for `err`. -/
  | read (addr : Half) (n : Nat) (answer : Option (List Byte))
  /-- `MemWrite(addr, n, bytes)`: whether it returned `ok`. -/
  | write (addr : Half) (bytes : List Byte) (ok : Bool)
  deriving DecidableEq, Repr

/-- One thing the outside world does to MICCORE: a host access of some width in bits at a byte offset of the host port
(R50, R51), a data-ready edge (60_exceptions.md R206), a reset (R230). Each is one atomic step (R62). -/
inductive Input where
  | hostRead (offset : BitVec 16) (bits : Nat)
  | hostWrite (offset : BitVec 16) (bits : Nat) (data : Word)
  | dataReady
  | reset
  deriving DecidableEq, Repr

/-- What the host port answered in the latest step: nothing, where the step served no host access; the data of a read;
the acknowledgement of a write; or an error response, which carries no data (R51). -/
inductive HostReply where
  | none
  | data (w : Word)
  | ack
  | error
  deriving DecidableEq, Repr

/-- MICCORE and its environment. -/
structure State where
  /-- STATUS.ERR (R24). -/
  err : ErrCode
  /-- STATUS.FATAL (R40). -/
  fatal : Bool
  /-- The pending-command latch. BUSY is 1 exactly when it holds CAPTURE (R41), so BUSY is not stored again. -/
  pend : Option PendingCommand
  /-- STATUS.EVT_PEND and STATUS.EVT_EN, the data-ready latch (R38). -/
  evtPend : Bool
  evtEn : Bool
  /-- STATUS.INITED (R39). -/
  inited : Bool
  /-- STATUS.BLOCK_VALID (R37; after a CAPTURE that ends in QUEUE_FULL, notes/assumptions/27). -/
  blockValid : Bool
  /-- STATUS.COEFF_VALID (R32). -/
  coeffValid : Bool
  /-- The argument registers (R25) and the result register (R26). -/
  arg0 : Word
  arg1 : Word
  result : Word
  /-- The current gain and sampling rate (R27, R28). -/
  gain : Half
  rate : Word
  /-- The delay queues (R30). -/
  queues : Eight DelayQueue
  /-- The coefficient store (R32) and the staging buffer (R33). -/
  coeff : Vector Half 128
  staging : Vector Half 128
  /-- The raw, delayed and beamformed blocks, NUM_SAMPLES samples a row (R34, R35, R36). -/
  raw : Eight (List Half)
  delayed : Eight (List Half)
  beam : List Half
  /-- The parameters of the step (R42). No step changes them (notes/assumptions/2). -/
  params : Params
  /-- The model's own fields, from here on. What the outside world does next, in arrival order (R62). -/
  inputs : List Input
  /-- What the FPGA bus answers next, in issue order; past its end the answers are free draws (R58). -/
  fpga : List BusAnswer
  /-- The bus transactions issued so far, oldest first (R60). -/
  busLog : List BusTxn
  /-- The host port's answer in the latest step. -/
  reply : HostReply
  /-- How many oracle draws have been made: the argument of the next one. -/
  draw : Nat
  deriving DecidableEq, Repr

/-- Why the machine stops with a fault: never. MICCORE has no stop the spec leaves without an effect: an error ends a
command and is recorded in STATUS (R200), the FATAL state still answers reads of STATUS and takes a reset (R202), and
the host port answers every access (R208). Safety.lean says which states are failed ones (notes/assumptions/7). -/
inductive Fault where
  deriving DecidableEq, Repr

/-- Why a step is refused. -/
inductive Refusal where
  /-- Raised by `exec` for a command that has no meaning yet. Safe: no claim is made of what the command does. -/
  | notModelled (mnemonic : String)
  deriving DecidableEq, Repr

/-- The slots of a delay queue after reset number `draw`: empty, the slots unspecified (R43). -/
def DelayQueue.unspecified (draw : Nat) (c : Channel) : DelayQueue :=
  ⟨vectorOf 32 fun i => Config.freeContent draw (32 * c.val + i), 0, 0⟩

/-- The values of R43 under the parameters `p`, reset number `draw`. What R43 leaves unspecified is a free value at a
place of its own: 0..255 the queue slots, 256.. `coeff`, 384.. `staging`, 1024.. `raw`, 16384.. `delayed`,
32768.. `beam` (notes/assumptions/6). -/
def State.initial (p : Params) (draw : Nat) : State where
  err := .ok
  fatal := false
  pend := none
  evtPend := false
  evtEn := false
  inited := false
  blockValid := false
  coeffValid := false
  arg0 := 0
  arg1 := 0
  result := 0
  gain := p.defaultGain
  rate := p.defaultRate
  queues := .ofFn (DelayQueue.unspecified draw)
  coeff := vectorOf 128 fun i => Config.freeContent draw (256 + i)
  staging := vectorOf 128 fun i => Config.freeContent draw (384 + i)
  raw := .ofFn fun c => (List.range p.numSamples).map fun i => Config.freeContent draw (1024 * (c.val + 1) + i)
  delayed := .ofFn fun c => (List.range p.numSamples).map fun i => Config.freeContent draw (1024 * (c.val + 16) + i)
  beam := (List.range p.numSamples).map fun i => Config.freeContent draw (32768 + i)
  params := p
  inputs := []
  fpga := []
  busLog := []
  reply := .none
  draw := draw + 1

/-- MICCORE right after reset, with the parameters of the machine and nothing on the host port (R43, R230). -/
def State.reset : State := .initial Config.params 0

end Sys2Proof.Machine
end

