-- ==== Sys2Proof/Machine/Flags.lean ====
section
/-! DEFINITION. STATUS: the codes of its ERR field and the layout of its word (10_state.md R23, R24). MICCORE has no
arithmetic flags (R22). -/

namespace Sys2Proof.Machine

/-- The number of a result code (R24). -/
def ErrCode.code : ErrCode → BitVec 4
  | .ok => 0
  | .invalidInput => 1
  | .busError => 2
  | .queueFull => 3
  | .queueEmpty => 4
  | .illegalCommand => 5

/-- The fatal codes: QUEUE_FULL and QUEUE_EMPTY (R24). -/
def ErrCode.isFatal : ErrCode → Bool
  | .queueFull | .queueEmpty => true
  | .ok | .invalidInput | .busError | .illegalCommand => false

/-- BUSY is 1 exactly when `pend` holds CAPTURE (R41). -/
def State.busy (s : State) : Bool := s.pend == some .capture

/-- One bit of a status word. -/
def bitOf (b : Bool) : BitVec 1 := BitVec.ofBool b

/-- STATUS as the host reads it, bit 31 first: the reserved bits read as 0 (R23). -/
def State.status (s : State) : Word :=
  (0 : BitVec 21) ++ bitOf s.coeffValid ++ bitOf s.blockValid ++ bitOf s.inited ++ bitOf s.evtEn ++ bitOf s.evtPend
    ++ bitOf s.busy ++ bitOf s.fatal ++ s.err.code

end Sys2Proof.Machine
end

