-- ==== Sys2Proof/Machine/Ops.lean ====
section
/-! DEFINITION. The operations every command shares: ending a command with a code, which is MICCORE's way of taking an
error (60_exceptions.md R201, R202); the INITED gate (30_encoding.md R77); the byte order of the FPGA bus and its two
transactions (20_memory.md R58, R59); reset as an event (70_reset_and_hazards.md R230). -/

namespace Sys2Proof.Machine

/-! ### Ending a command -/

/-- `finish(code)` and `raise`, as one operation: STATUS.ERR takes the code, the wait ends, and a fatal code sets the
sticky FATAL bit (R201, R202). There is no handler and nothing to return from (R203). -/
def endCommand (code : ErrCode) (s : State) : State :=
  { s with err := code, fatal := s.fatal || code.isFatal, pend := none }

/-- `finish(OK)` (R201). -/
def finish (s : State) : State := endCommand .ok s

/-- `raise e` (R201 for the recoverable codes, R202 for the fatal ones). -/
def raise (e : ErrCode) (s : State) : State := endCommand e s

/-- A command other than INIT, issued while INITED = 0, ends with ILLEGAL_COMMAND and changes nothing else (R77). -/
def gated (body : State → State) (s : State) : State :=
  if s.inited then body s else raise .illegalCommand s

/-! ### Bytes on the FPGA bus -/

/-- `le16(v) = [v[7:0], v[15:8]]` (R59). -/
def le16 (v : Half) : List Byte := [v.extractLsb' 0 8, v.extractLsb' 8 8]

/-- `from_le16(b0, b1) = {b1, b0}` (R59, 00_scope.md R15). -/
def fromLe16 (b0 b1 : Byte) : Half := b1 ++ b0

/-- Value `i` of a buffer of 16-bit values, at bytes `2i` and `2i+1` (R59). -/
def halfAt (bytes : List Byte) (i : Nat) : Half := fromLe16 (bytes.getD (2 * i) 0) (bytes.getD (2 * i + 1) 0)

/-- The first `m` 16-bit values of a buffer (R59). -/
def halvesOf (m : Nat) (bytes : List Byte) : List Half := (List.range m).map (halfAt bytes)

/-- A buffer of 16-bit values as bytes, value 0 first (R59). -/
def bytesOf (values : List Half) : List Byte := values.flatMap le16

/-! ### Transactions on the FPGA bus -/

/-- What the bus answers to the next transaction: the next scripted answer, or free draws where none is scripted. -/
def State.nextAnswer (s : State) : BusAnswer :=
  match s.fpga with
  | a :: _ => a
  | [] => if Config.freeBusErr s.draw then .err else .ok []

/-- The `n` bytes a read returns: those of the answer, and a free draw for each byte the answer does not give. -/
def answerBytes (draw n : Nat) (given : List Byte) : List Byte :=
  (List.range n).map fun i => given.getD i (Config.freeBusByte draw i)

/-- One transaction has been issued and answered. -/
def State.logTxn (s : State) (t : BusTxn) : State :=
  { s with fpga := s.fpga.tail, busLog := s.busLog ++ [t], draw := s.draw + 1 }

/-- `MemRead(addr, n)`: the bytes, or none for `err` (R58). -/
def memRead (addr : Half) (n : Nat) (s : State) : Option (List Byte) × State :=
  let answer : Option (List Byte) :=
    match s.nextAnswer with
    | .ok given => some (answerBytes s.draw n given)
    | .err => none
  (answer, s.logTxn (.read addr n answer))

/-- `MemWrite(addr, n, bytes)` with `n` the length of `bytes`: whether the bus returned `ok` (R58). -/
def memWrite (addr : Half) (bytes : List Byte) (s : State) : Bool × State :=
  let ok : Bool :=
    match s.nextAnswer with
    | .ok _ => true
    | .err => false
  (ok, s.logTxn (.write addr bytes ok))

/-! ### Reset -/

/-- Reset as an event: every piece of MICCORE's state takes its value of R43, no bus transaction is issued (R230, R231).
The parameters, what the environment does next and what the bus has seen are not MICCORE's state and stay. -/
def resetEvent (s : State) : State :=
  { State.initial s.params s.draw with inputs := s.inputs, fpga := s.fpga, busLog := s.busLog }

end Sys2Proof.Machine
end

