-- ==== Sys2Proof/Machine/Float64.lean ====
section
/-! DEFINITION. IEEE 754 binary64, the arithmetic of the delay geometry (41_delay_geometry.md R101, 00_scope.md R14).
Every finite binary64 is a whole number of units of 2^-1074, so each operation computes its exact result as a ratio of
natural numbers of such units and rounds once, to nearest with ties to even. Which NaN an invalid operation gives is
left open by IEEE 754 and can be seen by no rule, since R103 turns every NaN into INVALID_INPUT (notes/assumptions/11). -/

namespace Sys2Proof.Machine.F64

/-! ### Fields -/

def sign (x : F64) : Bool := x.msb

def expField (x : F64) : Nat := (x.extractLsb' 52 11).toNat

def frac (x : F64) : Nat := (x.extractLsb' 0 52).toNat

def isFinite (x : F64) : Bool := expField x != 2047

def isNaN (x : F64) : Bool := expField x == 2047 && frac x != 0

def isInf (x : F64) : Bool := expField x == 2047 && frac x == 0

/-- The significand with its hidden bit. -/
def sig (x : F64) : Nat := if expField x = 0 then frac x else 2 ^ 52 + frac x

/-- The magnitude of a finite binary64 in units of 2^-1074. -/
def mag (x : F64) : Nat := sig x * 2 ^ (expField x - 1)

/-- The value of a finite binary64 in units of 2^-1074. -/
def units (x : F64) : Int := if sign x then -(mag x : Int) else (mag x : Int)

/-- The value of a finite binary64. -/
def toRat (x : F64) : ℚ := (units x : ℚ) / 2 ^ 1074

/-! ### Packing -/

/-- The bits 62:0 of +infinity. -/
def infBits : Nat := 2047 * 2 ^ 52

/-- A sign and the bits 62:0 as a pattern. -/
def pack (neg : Bool) (low : Nat) : F64 := BitVec.ofNat 64 ((if neg then 2 ^ 63 else 0) + low)

def zero (neg : Bool) : F64 := pack neg 0

def inf (neg : Bool) : F64 := pack neg infBits

def quietNaN : F64 := 0x7FF8000000000000#64

/-- The other sign, the same bits 62:0. -/
def neg (x : F64) : F64 := pack (!sign x) (x.toNat % 2 ^ 63)

/-- `num / den` rounded to the nearest whole number, ties to even. -/
def roundEven (num den : Nat) : Nat :=
  let q := num / den
  let r := num % den
  if den < 2 * r || (2 * r == den && q % 2 == 1) then q + 1 else q

/-- The place of the last bit kept of a magnitude of `num / den` units: 53 bits are kept, and none below one unit. -/
def ulpExp (num den : Nat) : Nat := (num / den).log2 - 52

/-- The magnitude `num / den` units rounded to nearest, ties to even, as the bits 62:0. A significand that rounds up to
2^53 carries into the exponent field by the addition. Overflow gives infinity. -/
def roundBits (num den : Nat) : Nat :=
  let t := ulpExp num den
  let low := t * 2 ^ 52 + roundEven num (den * 2 ^ t)
  if low < infBits then low else infBits

/-- A sign and an exact magnitude of `num / den` units of 2^-1074, rounded to a binary64. -/
def round (neg : Bool) (num den : Nat) : F64 := pack neg (roundBits num den)

/-! ### Operations -/

/-- The sum of finite operands. An exact sum of 0 is +0, but for two zeros of one sign (IEEE 754, 6.3). -/
def addFinite (x y : F64) : F64 :=
  if sign x = sign y then round (sign x) (mag x + mag y) 1
  else if mag y < mag x then round (sign x) (mag x - mag y) 1
  else if mag x < mag y then round (sign y) (mag y - mag x) 1
  else zero false

def add (x y : F64) : F64 :=
  if isNaN x || isNaN y then quietNaN
  else if isInf x then (if isInf y && sign x != sign y then quietNaN else x)
  else if isInf y then y
  else addFinite x y

def sub (x y : F64) : F64 := add x (neg y)

def mul (x y : F64) : F64 :=
  let s := sign x != sign y
  if isNaN x || isNaN y then quietNaN
  else if isInf x || isInf y then
    (if (isFinite x && mag x == 0) || (isFinite y && mag y == 0) then quietNaN else inf s)
  else round s (mag x * mag y) (2 ^ 1074)

def div (x y : F64) : F64 :=
  let s := sign x != sign y
  if isNaN x || isNaN y then quietNaN
  else if isInf x then (if isInf y then quietNaN else inf s)
  else if isInf y then zero s
  else if mag y == 0 then (if mag x == 0 then quietNaN else inf s)
  else round s (mag x * 2 ^ 1074) (mag y)

/-- The whole-number square root of `n`, one binary digit at a time from digit `b - 1` down, added to `r`. -/
def isqrt : Nat → Nat → Nat → Nat
  | 0, _, r => r
  | b + 1, n, r => isqrt b n (if (r + 2 ^ b) * (r + 2 ^ b) ≤ n then r + 2 ^ b else r)

/-- How many low binary digits of the root of `n` are left to the sticky bit. -/
def sqrtDrop (n : Nat) : Nat := n.log2 / 2 - 60

/-- Twice the root of `n`: its leading digits, then a digit 1 where the root is not exact there. -/
def sqrtSticky (n : Nat) : Nat :=
  let k := sqrtDrop n
  let r := isqrt 62 (n / 2 ^ (2 * k)) 0
  (2 * r + (if r * r * 2 ^ (2 * k) = n then 0 else 1)) * 2 ^ k

/-- The correctly rounded square root (R101). -/
def sqrt (x : F64) : F64 :=
  if isNaN x then quietNaN
  else if isFinite x && mag x == 0 then x
  else if sign x then quietNaN
  else if isInf x then x
  else round false (sqrtSticky (mag x * 2 ^ 1074)) 2

/-- `x < y` for finite operands, an exact comparison. -/
def lt (x y : F64) : Bool := units x < units y

/-! ### Conversions -/

/-- `f64(x32)`, the exact widening of a binary32 (R14): a finite one is a whole number of units of 2^-149. -/
def ofBinary32 (w : Word) : F64 :=
  let e := (w.extractLsb' 23 8).toNat
  let f := (w.extractLsb' 0 23).toNat
  if e = 255 then pack w.msb (infBits + f * 2 ^ 29)
  else round w.msb ((if e = 0 then f else 2 ^ 23 + f) * 2 ^ (e - 1) * 2 ^ 925) 1

/-- `f64` of a u32, exact (R101). -/
def ofWord (w : Word) : F64 := round false (w.toNat * 2 ^ 1074) 1

/-- `round_half_away(t)` for finite `t >= 0`: the nearest whole number, the larger one at a tie (R102). -/
def roundHalfAway (t : F64) : Nat := (2 * mag t + 2 ^ 1074) / 2 ^ 1075

end Sys2Proof.Machine.F64
end

