-- ==== Sys2Proof/Machine/Operands.lean ====
section
/-! DEFINITION. Operand assembly: what each command takes from ARG0, ARG1 and the staging buffer (30_encoding.md R72).
There is no immediate and no scaling. The channel of ENQUEUE and DEQUEUE is in the command word. -/

namespace Sys2Proof.Machine

/-- WRITE_SAMPLE_RATE: the rate in Hz is ARG0 as a u32. -/
def rateOperand (s : State) : Word := s.arg0

/-- ENQUEUE: the sample is ARG0[15:0]; ARG0[31:16] is ignored. -/
def sampleOperand (s : State) : Half := s.arg0.extractLsb' 0 16

/-- CALC_DELAYS: the azimuth is ARG0 read as binary32 and widened exactly, in radians. -/
def azimuthOperand (s : State) : F64 := F64.ofBinary32 s.arg0

/-- CALC_DELAYS: the polar angle is ARG1 read as binary32 and widened exactly, in radians. -/
def polarOperand (s : State) : F64 := F64.ofBinary32 s.arg1

/-- SET_CUSTOM_FIR_COEFF: the coefficients are the staging buffer. -/
def coeffOperand (s : State) : Vector Half 128 := s.staging

end Sys2Proof.Machine
end

