-- ==== Sys2Proof/Machine/Filter.lean ====
section
/-! DEFINITION. The FIR filter stage: SELECT_FIR_COEFF and SET_CUSTOM_FIR_COEFF (44_filter_stage.md). MICCORE holds and
pushes the coefficients; it performs no convolution (R184). -/

namespace Sys2Proof.Machine

/-- The first row of FIR_TABLE, in table order, with a given rate (R181). -/
def lookupFir (p : Params) (r : Word) : Option FirRow := p.firTable.find? fun f => f.rate == r

/-- The 256 bytes of a coefficient set, tap 0 at the lowest (R183). -/
def coeffBytes (taps : Vector Half 128) : List Byte := bytesOf taps.toList

/-- `PushCoeff()`: the coefficient store as one FPGA-bus write, and whether it returned `ok` (R183). -/
def pushCoeff (s : State) : Bool × State := memWrite s.params.firAddr (coeffBytes s.coeff) s

/-- Both filter commands end so: the set is stored, then pushed, and stays stored if the push fails (R180, R182). -/
def storeAndPush (taps : Vector Half 128) (s : State) : State :=
  match pushCoeff { s with coeff := taps, coeffValid := true } with
  | (false, s1) => raise .busError s1
  | (true, s1) => finish s1

/-- The body of SELECT_FIR_COEFF (R180). It has no check of rate 0: no row of an allowed table has that rate
(41_delay_geometry.md R107, notes/assumptions/26). -/
def selectFirCoeffBody (s : State) : State :=
  match lookupFir s.params s.rate with
  | none => raise .invalidInput s
  | some f => storeAndPush f.taps s

/-- SELECT_FIR_COEFF (R180), behind the INITED gate (30_encoding.md R77). -/
def execSelectFirCoeff (s : State) : Host.Outcome State Fault Refusal := .next (gated selectFirCoeffBody s)

/-- SET_CUSTOM_FIR_COEFF (R182), behind the INITED gate (R77). -/
def execSetCustomFirCoeff (s : State) : Host.Outcome State Fault Refusal :=
  .next (gated (fun s => storeAndPush (coeffOperand s) s) s)

end Sys2Proof.Machine
end

