-- ==== Sys2Proof/Machine/Queue.lean ====
section
/-! DEFINITION. The per-channel delay queues and their two commands, ENQUEUE and DEQUEUE (42_delay_queue.md). -/

namespace Sys2Proof.Machine

/-! ### The ring of one queue -/

/-- The slot of element `i`, counted from the oldest (10_state.md R30). -/
def DelayQueue.slot (q : DelayQueue) (i : Nat) : Fin 32 :=
  ⟨(q.head.val + i) % 32, Nat.mod_lt _ (by decide)⟩

/-- The elements, oldest first (R30). -/
def DelayQueue.elements (q : DelayQueue) : List Half :=
  (List.range q.count).map fun i => q.buf[q.slot i]

/-- The two assignments of `Q_Enq`, without its check (R120). -/
def DelayQueue.push (q : DelayQueue) (v : Half) : DelayQueue :=
  { q with buf := q.buf.set (q.slot q.count) v, count := q.count + 1 }

/-- The element `Q_Deq` returns, without its check (R121). -/
def DelayQueue.oldest (q : DelayQueue) : Half := q.buf[q.head]

/-- The two assignments of `Q_Deq`, without its check (R121). -/
def DelayQueue.pop (q : DelayQueue) : DelayQueue :=
  { q with head := q.slot 1, count := q.count - 1 }

/-- `Q_Enq` on one queue; none is `raise QueueFull` (R120). -/
def DelayQueue.enq (q : DelayQueue) (v : Half) : Option DelayQueue :=
  if q.count = 32 then none else some (q.push v)

/-- `Q_Deq` on one queue; none is `raise QueueEmpty` (R121). -/
def DelayQueue.deq (q : DelayQueue) : Option (Half × DelayQueue) :=
  if q.count = 0 then none else some (q.oldest, q.pop)

/-- `count <- 0; head <- 0`, the slots as they are (43_array_reader.md R140). -/
def DelayQueue.emptied (q : DelayQueue) : DelayQueue := { q with head := 0, count := 0 }

/-- `repeat k times: Q_Enq(c, 0)`, where none of them fails (41_delay_geometry.md R104). -/
def DelayQueue.pushZeros : Nat → DelayQueue → DelayQueue
  | 0, q => q
  | k + 1, q => pushZeros k (q.push 0)

/-- The capture loop on one channel: each sample is enqueued and the oldest element dequeued into the delayed block
(43_array_reader.md R147). The channels share no queue, so the loop over them may be taken one channel at a time
(notes/assumptions/10). -/
def DelayQueue.delay : List Half → DelayQueue → List Half × DelayQueue
  | [], q => ([], q)
  | v :: rest, q =>
    let q1 := q.push v
    let (out, q2) := delay rest q1.pop
    (q1.oldest :: out, q2)

/-! ### The commands -/

/-- `Q_Enq(c, v); finish(OK)` (R120, R122). -/
def enqueueBody (c : Channel) (v : Half) (s : State) : State :=
  match (s.queues.get c).enq v with
  | none => raise .queueFull s
  | some q => finish { s with queues := s.queues.set c q }

/-- `v <- Q_Deq(c); RESULT <- sext_32(v); finish(OK)` (R121, R123). -/
def dequeueBody (c : Channel) (s : State) : State :=
  match (s.queues.get c).deq with
  | none => raise .queueEmpty s
  | some (v, q) => finish { s with queues := s.queues.set c q, result := v.signExtend 32 }

/-- ENQUEUE (R122), behind the INITED gate (30_encoding.md R77). -/
def execEnqueue (ch : Channel) (s : State) : Host.Outcome State Fault Refusal :=
  .next (gated (fun s => enqueueBody ch (sampleOperand s) s) s)

/-- DEQUEUE (R123), behind the INITED gate (R77). -/
def execDequeue (ch : Channel) (s : State) : Host.Outcome State Fault Refusal :=
  .next (gated (dequeueBody ch) s)

end Sys2Proof.Machine
end

