-- ==== Sys2Proof/Machine/Geometry.lean ====
section
/-! DEFINITION. The delay-geometry calculator and its command, CALC_DELAYS (41_delay_geometry.md). -/

namespace Sys2Proof.Machine

/-! ### sin64 and cos64 -/

/-- A finite binary64 from its fields. -/
def finiteOf (f : Bool × Fin 2047 × BitVec 52) : F64 := F64.pack f.1 (f.2.1.val * 2 ^ 52 + f.2.2.toNat)

/-- The point of `trig` for an operand, if it may stand: a finite operand has finite results (00_scope.md R13). -/
def trigPoint (p : Params) (x : F64) : Option TrigPoint :=
  p.trig.find? fun t => t.operand == x && (!F64.isFinite x || (F64.isFinite t.sin && F64.isFinite t.cos))

/-- `sin64`: total, a function of its operand, `+0.0` at `+0.0`, finite at every finite operand (R13). -/
def sin64 (p : Params) (x : F64) : F64 :=
  if x = F64.zero false then F64.zero false
  else match trigPoint p x with
    | some t => t.sin
    | none => if F64.isFinite x then finiteOf (Config.sinFinite x) else Config.sinOther x

/-- `cos64`: total, a function of its operand, `1.0` at `+0.0`, finite at every finite operand (R13). -/
def cos64 (p : Params) (x : F64) : F64 :=
  if x = F64.zero false then 0x3FF0000000000000#64
  else match trigPoint p x with
    | some t => t.cos
    | none => if F64.isFinite x then finiteOf (Config.cosFinite x) else Config.cosOther x

/-! ### GeomDelays -/

/-- A point in space, in millimetres. -/
structure Point where
  x : F64
  y : F64
  z : F64
  deriving DecidableEq, Repr

/-- Step 1: the source position of a direction (R101). -/
def sourcePoint (p : Params) (az pol : F64) : Point :=
  let r := p.srcDist
  let sa := sin64 p az
  { x := F64.mul (F64.mul r sa) (cos64 p pol)
    y := F64.mul (F64.mul r sa) (sin64 p pol)
    z := F64.mul r (cos64 p az) }

/-- Step 2: the distance from a microphone, at z = 0, to the source position (R101). -/
def distance (src : Point) (mic : MicPos) : F64 :=
  let dx := F64.sub mic.x src.x
  let dy := F64.sub mic.y src.y
  let dz := F64.sub (F64.zero false) src.z
  F64.sqrt (F64.add (F64.add (F64.mul dx dx) (F64.mul dy dy)) (F64.mul dz dz))

/-- Step 3: the minimum of the eight distances, by exact comparison (R101). -/
def minimum (d : Eight F64) : F64 :=
  d.toList.foldl (fun m x => if F64.lt x m then x else m) d.c0

/-- Step 4: a delay before rounding, in samples (R101). -/
def unroundedDelay (p : Params) (fs : Word) (dmin d : F64) : F64 :=
  F64.div (F64.mul (F64.sub d dmin) (F64.ofWord fs)) p.soundSpeed

/-- The eight distances of a direction (R101). -/
def distances (p : Params) (az pol : F64) : Eight F64 :=
  p.micPos.map (distance (sourcePoint p az pol))

/-- The eight delays of a direction before rounding (R101). -/
def unroundedDelays (p : Params) (az pol : F64) (fs : Word) : Eight F64 :=
  let d := distances p az pol
  d.map (unroundedDelay p fs (minimum d))

/-- None of `x`, `y`, `z`, `d[c]` and `t[c]` is a NaN or an infinity (R103). -/
def geometryFinite (p : Params) (az pol : F64) (fs : Word) : Bool :=
  let src := sourcePoint p az pol
  F64.isFinite src.x && F64.isFinite src.y && F64.isFinite src.z
    && (distances p az pol).toList.all F64.isFinite
    && (unroundedDelays p az pol fs).toList.all F64.isFinite

/-- `GeomDelays(az, pol, fs)`; none is `raise InvalidInput` (R101, R102, R103). -/
def geomDelays (p : Params) (az pol : F64) (fs : Word) : Option (Eight Nat) :=
  if geometryFinite p az pol fs then some ((unroundedDelays p az pol fs).map F64.roundHalfAway) else none

/-! ### Seed -/

/-- Some queue has no room for its delay (R104). -/
def seedOverflows (k : Eight Nat) (queues : Eight DelayQueue) : Bool :=
  channels.any fun c => 32 < (queues.get c).count + k.get c

/-- Every queue with its delay's zeros pushed (R104). -/
def seeded (k : Eight Nat) (queues : Eight DelayQueue) : Eight DelayQueue :=
  .ofFn fun c => (queues.get c).pushZeros (k.get c)

/-- `Seed(k)`; none is `raise QueueFull`, before any queue is changed (R104). -/
def seed (k : Eight Nat) (s : State) : Option State :=
  if seedOverflows k s.queues then none else some { s with queues := seeded k s.queues }

/-! ### The command -/

/-- The body of CALC_DELAYS (R100): INVALID_INPUT before QUEUE_FULL (60_exceptions.md R205). -/
def calcDelaysBody (s : State) : State :=
  let az := azimuthOperand s
  let pol := polarOperand s
  if !(F64.isFinite az && F64.isFinite pol) then raise .invalidInput s
  else match geomDelays s.params az pol s.rate with
    | none => raise .invalidInput s
    | some k =>
      match seed k s with
      | none => raise .queueFull s
      | some s' => finish s'

/-- CALC_DELAYS (R100), behind the INITED gate (30_encoding.md R77). -/
def execCalcDelays (s : State) : Host.Outcome State Fault Refusal := .next (gated calcDelaysBody s)

end Sys2Proof.Machine
end

