-- ==== Sys2Proof/Machine/Reader.lean ====
section
/-! DEFINITION. The microphone array reader and the beamformer: READ_SAMPLE_RATE, WRITE_SAMPLE_RATE, INIT and CAPTURE
(43_array_reader.md). -/

namespace Sys2Proof.Machine

/-! ### Sampling-rate configuration -/

/-- The first row, in table order, with a given constant (R142). -/
def lookupByConstant (p : Params) (kv : Half) : Option FreqRow := p.freqTable.find? fun e => e.constant == kv

/-- The first row, in table order, with a given rate (R144). -/
def lookupByRate (p : Params) (r : Word) : Option FreqRow := p.freqTable.find? fun e => e.rate == r

/-- `ReadRateConfig`, the body of READ_SAMPLE_RATE and the last part of INIT (R141). -/
def readRateConfig (s : State) : State :=
  match memRead s.params.gainAddr 2 s with
  | (none, s1) => raise .busError s1
  | (some bg, s1) =>
    match memRead s1.params.rateConstAddr 2 s1 with
    | (none, s2) => raise .busError s2
    | (some bk, s2) =>
      match lookupByConstant s2.params (halfAt bk 0) with
      | none => raise .invalidInput s2
      | some e => finish { s2 with gain := halfAt bg 0, rate := e.rate, result := e.rate }

/-- READ_SAMPLE_RATE (R141), behind the INITED gate (30_encoding.md R77). -/
def execReadSampleRate (s : State) : Host.Outcome State Fault Refusal := .next (gated readRateConfig s)

/-- The body of WRITE_SAMPLE_RATE: the gain register first, then the rate-constant register, then local state (R143). -/
def writeSampleRateBody (s : State) : State :=
  match lookupByRate s.params (rateOperand s) with
  | none => raise .invalidInput s
  | some e =>
    match memWrite s.params.gainAddr (le16 e.gain) s with
    | (false, s1) => raise .busError s1
    | (true, s1) =>
      match memWrite s1.params.rateConstAddr (le16 e.constant) s1 with
      | (false, s2) => raise .busError s2
      | (true, s2) => finish { s2 with gain := e.gain, rate := e.rate }

/-- WRITE_SAMPLE_RATE (R143), behind the INITED gate (R77). -/
def execWriteSampleRate (s : State) : Host.Outcome State Fault Refusal := .next (gated writeSampleRateBody s)

/-! ### Construction -/

/-- The first two lines of INIT: the queues emptied, INITED set, BLOCK_VALID cleared (R140). -/
def constructed (s : State) : State :=
  { s with queues := s.queues.map DelayQueue.emptied, inited := true, blockValid := false }

/-- `setup_event()`: the data-ready latch armed and emptied (R140, 60_exceptions.md R206). -/
def armed (s : State) : State := { s with evtEn := true, evtPend := false }

/-- The body of INIT: what an earlier step has written stays when a later one raises (R140, R201). -/
def initBody (s : State) : State :=
  let s1 := constructed s
  match geomDelays s1.params (F64.zero false) (F64.zero false) s1.rate with
  | none => raise .invalidInput s1
  | some k =>
    match seed k s1 with
    | none => raise .queueFull s1
    | some s2 => readRateConfig (armed s2)

/-- INIT (R140), accepted whether INITED is 0 or 1 (30_encoding.md R77). -/
def execInit (s : State) : Host.Outcome State Fault Refusal := .next (initBody s)

/-! ### The capture cycle -/

/-- Step 1: one read of the microphone register for each of the channels listed, in order, into `raw`. False says that a
read returned `err`; the rows read before it stay written and no further read is issued (R146). -/
def readChannels : List Channel → State → Bool × State
  | [], s => (true, s)
  | k :: rest, s =>
    match memRead s.params.micAddr (2 * s.params.numSamples) s with
    | (none, s1) => (false, s1)
    | (some b, s1) => readChannels rest { s1 with raw := s1.raw.set k (halvesOf s1.params.numSamples b) }

/-- Some queue has no room for the first enqueue (R147). -/
def anyQueueFull (queues : Eight DelayQueue) : Bool := channels.any fun c => (queues.get c).count == 32

/-- Step 2: every channel's samples through its queue into `delayed` (R147). -/
def delayChannels (s : State) : State :=
  { s with
    delayed := .ofFn fun c => ((s.queues.get c).delay (s.raw.get c)).1
    queues := .ofFn fun c => ((s.queues.get c).delay (s.raw.get c)).2 }

/-- `clamp(acc, -32768, 32767)` of a 32-bit accumulator, as an i16 (R148, 00_scope.md R14). -/
def clamp16 (acc : Word) : Half :=
  if acc.toInt < -32768 then 0x8000
  else if 32767 < acc.toInt then 0x7FFF
  else acc.setWidth 16

/-- The accumulator of one sample position: the eight delayed samples, sign-extended and added in 32 bits (R148). -/
def beamAcc (delayed : Eight (List Half)) (i : Nat) : Word :=
  delayed.toList.foldl (fun acc d => acc + (d.getD i 0).signExtend 32) 0

/-- Step 3: the delay-and-sum beamformer (R148). -/
def beamform (s : State) : State :=
  { s with beam := (List.range s.params.numSamples).map fun i => clamp16 (beamAcc s.delayed i) }

/-- `CaptureBody`: the eight reads, the queues, the beamformer, completion (R146 to R149). BUS_ERROR comes before
QUEUE_FULL (60_exceptions.md R205). DEDUCED: QUEUE_FULL leaves BLOCK_VALID as it was, as the pseudocode of R147 and of
60_exceptions.md R202 does, against the words 'exactly when' of 10_state.md R37 (notes/assumptions/27). -/
def captureBody (s : State) : State :=
  match readChannels channels s with
  | (false, s1) => raise .busError { s1 with blockValid := false }
  | (true, s1) =>
    if anyQueueFull s1.queues then raise .queueFull s1
    else finish { beamform (delayChannels s1) with blockValid := true }

/-- The issue of CAPTURE: a latched edge is consumed and the cycle runs, else CAPTURE holds (R145). -/
def captureIssue (s : State) : State :=
  if s.evtPend then captureBody { s with evtPend := false } else { s with pend := some .capture }

/-- CAPTURE (R145), behind the INITED gate (30_encoding.md R77). -/
def execCapture (s : State) : Host.Outcome State Fault Refusal := .next (gated captureIssue s)

/-- A data-ready edge: ignored while fatal or not armed; runs a waiting CAPTURE; else is latched, and an edge that finds
one latched is dropped (60_exceptions.md R206). -/
def dataReadyEdge (s : State) : State :=
  if s.fatal || !s.evtEn then s
  else if s.pend = some .capture then captureBody { s with pend := none }
  else { s with evtPend := true }

end Sys2Proof.Machine
end

