-- ==== Sys2Proof/Machine/Dispatch.lean ====
section
/-! DEFINITION. Which meaning each command has (30_encoding.md R71, R75): one arm per constructor of Instr. -/

namespace Sys2Proof.Machine

def exec (i : Instr) (s : State) : Host.Outcome State Fault Refusal :=
  match i with
  | .init => Sys2Proof.Machine.execInit s
  | .readSampleRate => Sys2Proof.Machine.execReadSampleRate s
  | .writeSampleRate => Sys2Proof.Machine.execWriteSampleRate s
  | .selectFirCoeff => Sys2Proof.Machine.execSelectFirCoeff s
  | .setCustomFirCoeff => Sys2Proof.Machine.execSetCustomFirCoeff s
  | .calcDelays => Sys2Proof.Machine.execCalcDelays s
  | .capture => Sys2Proof.Machine.execCapture s
  | .enqueue ch => Sys2Proof.Machine.execEnqueue ch s
  | .dequeue ch => Sys2Proof.Machine.execDequeue ch s

end Sys2Proof.Machine
end

