-- ==== Sys2Proof/Machine/HostPort.lean ====
section
/-! DEFINITION. The host port: its register map, its checks, its reads and writes (20_memory.md R50 to R57), and the
issue of a command by a write to CMD (60_exceptions.md R204). -/

namespace Sys2Proof.Machine

/-- A register or window word of the host port (R52). -/
inductive HostReg where
  | cmd
  | status
  | arg0
  | arg1
  | result
  | gain
  | rate
  | depth (c : Channel)
  | coeff (k : Fin 64)
  | custom (k : Fin 64)
  | delayed (c : Channel) (k : Nat)
  | beam (k : Nat)
  deriving DecidableEq, Repr

/-- The direction of a host access. -/
inductive Direction where
  | read
  | write
  deriving DecidableEq, Repr

/-! ### The map -/

/-- The register at a byte offset that is a multiple of 4, none for a reserved offset (R52, R53). The DELAYED and BEAM
windows end at word NUM_SAMPLES/2. -/
def hostReg (numSamples : Nat) (offset : BitVec 16) : Option HostReg :=
  let n := offset.toNat
  if n = 0x0000 then some .cmd
  else if n = 0x0004 then some .status
  else if n = 0x0008 then some .arg0
  else if n = 0x000C then some .arg1
  else if n = 0x0010 then some .result
  else if n = 0x0014 then some .gain
  else if n = 0x0018 then some .rate
  else if n < 0x0020 then none
  else if n < 0x0040 then some (.depth (Fin.ofNat 8 ((n - 0x0020) / 4)))
  else if n < 0x0100 then none
  else if n < 0x0200 then some (.coeff (Fin.ofNat 64 ((n - 0x0100) / 4)))
  else if n < 0x0300 then some (.custom (Fin.ofNat 64 ((n - 0x0200) / 4)))
  else if n < 0x4000 then none
  else if n < 0x8000 then
    (if n % 0x800 / 4 < numSamples / 2 then some (.delayed (Fin.ofNat 8 ((n - 0x4000) / 0x800)) (n % 0x800 / 4)) else none)
  else (if (n - 0x8000) / 4 < numSamples / 2 then some (.beam ((n - 0x8000) / 4)) else none)

/-- Whether a register may be accessed in a direction: CMD is write-only, ARG0, ARG1 and CUSTOM are read-write, the
others are read-only (R52, R54). -/
def HostReg.allows : HostReg → Direction → Bool
  | .cmd, .read => false
  | .cmd, .write => true
  | .arg0, _ | .arg1, _ | .custom _, _ => true
  | .status, d | .result, d | .gain, d | .rate, d | .depth _, d | .coeff _, d | .delayed _ _, d | .beam _, d => d == .read

/-- The three access guards (R56): FATAL refuses all but a read of STATUS; DELAYED and BEAM need BLOCK_VALID; COEFF needs
COEFF_VALID. -/
def guardOpen (s : State) (r : HostReg) (d : Direction) : Bool :=
  (!s.fatal || (r == .status && d == .read)) &&
    match r with
    | .delayed _ _ | .beam _ => s.blockValid
    | .coeff _ => s.coeffValid
    | .cmd | .status | .arg0 | .arg1 | .result | .gain | .rate | .depth _ | .custom _ => true

/-- The register an access is served at, none for an error response. The checks in order: alignment and width (R51),
reserved offsets (R53), direction (R54), guards (R56). -/
def served (s : State) (offset : BitVec 16) (bits : Nat) (d : Direction) : Option HostReg :=
  if offset.toNat % 4 ≠ 0 ∨ bits ≠ 32 then none
  else match hostReg s.params.numSamples offset with
    | none => none
    | some r => if r.allows d && guardOpen s r d then some r else none

/-! ### Reading -/

/-- Word `k` of a window of 16-bit values: value `2k` in bits 15:0, value `2k+1` in bits 31:16 (R55). -/
def windowWord (values : List Half) (k : Nat) : Word := values.getD (2 * k + 1) 0 ++ values.getD (2 * k) 0

/-- The content of a register (R52; STATUS 10_state.md R23, DEPTH R29). CMD has none: no read of it is served. -/
def readReg (s : State) : HostReg → Word
  | .cmd => 0
  | .status => s.status
  | .arg0 => s.arg0
  | .arg1 => s.arg1
  | .result => s.result
  | .gain => s.gain.setWidth 32
  | .rate => s.rate
  | .depth c => (BitVec.ofNat 6 (s.queues.get c).count).setWidth 32
  | .coeff k => windowWord s.coeff.toList k
  | .custom k => windowWord s.staging.toList k
  | .delayed c k => windowWord (s.delayed.get c) k
  | .beam k => windowWord s.beam k

/-- The answer to a host read. -/
def readReply (s : State) (offset : BitVec 16) (bits : Nat) : HostReply :=
  match served s offset bits .read with
  | some r => .data (readReg s r)
  | none => .error

/-- A host read: an answer and no other effect (R57). -/
def hostRead (offset : BitVec 16) (bits : Nat) (s : State) : State := { s with reply := readReply s offset bits }

/-! ### Writing -/

/-- A write to CUSTOM[k] sets two places of the staging buffer (R52). -/
def writeCustom (k : Fin 64) (w : Word) (staging : Vector Half 128) : Vector Half 128 :=
  (staging.set (2 * k.val) (w.extractLsb' 0 16)).set (2 * k.val + 1) (w.extractLsb' 16 16)

/-- A command word that CMD has accepted: the command runs, or an illegal word ends with ILLEGAL_COMMAND and changes
nothing else (30_encoding.md R73, R75). -/
def issue (w : Word) (s : State) : Host.Outcome State Fault Refusal :=
  match decode w with
  | .ok i => exec i s
  | .error _ => .next (raise .illegalCommand s)

/-- A write to CMD with FATAL = 0: refused with an error response while BUSY = 1, else acknowledged and issued
(60_exceptions.md R204). FATAL = 1 is refused by the guards, before this (R56, R204). -/
def writeCmd (w : Word) (s : State) : Host.Outcome State Fault Refusal :=
  if s.busy then .next { s with reply := .error } else issue w { s with reply := .ack }

/-- A host write (R51 to R57). -/
def hostWrite (offset : BitVec 16) (bits : Nat) (w : Word) (s : State) : Host.Outcome State Fault Refusal :=
  match served s offset bits .write with
  | some .cmd => writeCmd w s
  | some .arg0 => .next { s with arg0 := w, reply := .ack }
  | some .arg1 => .next { s with arg1 := w, reply := .ack }
  | some (.custom k) => .next { s with staging := writeCustom k w s.staging, reply := .ack }
  | some .status | some .result | some .gain | some .rate | some (.depth _) | some (.coeff _) | some (.delayed _ _)
  | some (.beam _) | none => .next { s with reply := .error }

/-! ### One input -/

/-- What the outside world does is taken from the head of the inputs; the host port has answered nothing yet. -/
def takeInput (rest : List Input) (s : State) : State := { s with inputs := rest, reply := .none }

/-- One input served as one atomic step (20_memory.md R62): a host access, a data-ready edge or a reset. -/
def serve (i : Input) (s : State) : Host.Outcome State Fault Refusal :=
  match i with
  | .hostRead offset bits => .next (hostRead offset bits s)
  | .hostWrite offset bits w => hostWrite offset bits w s
  | .dataReady => .next (dataReadyEdge s)
  | .reset => .next (resetEvent s)

/-- A step in which nothing arrives: MICCORE waits, and a waiting CAPTURE goes on waiting (43_array_reader.md R145,
70_reset_and_hazards.md R230, R238). -/
def idle (s : State) : State := { s with reply := .none }

end Sys2Proof.Machine
end

