-- ==== Sys2Proof/Machine/Step.lean ====
section
/-! DEFINITION. One step of the machine: the next input is served, as one atomic step (20_memory.md R62). MICCORE has no
program counter and fetches nothing (10_state.md R21): its next command is the next write to CMD among the inputs. -/

namespace Sys2Proof.Machine

def step (s : State) : Host.Outcome State Fault Refusal :=
  match s.inputs with
  | [] => .next (idle s)
  | i :: rest => serve i (takeInput rest s)

/-- `s` with an opcode-table word as the next thing that happens to it: the host writes it to CMD, in one aligned 32-bit
access at offset 0x0000 (notes/assumptions/14). -/
def State.withFetchWord (s : State) (nbits w : Nat) : State :=
  { s with inputs := .hostWrite 0x0000#16 32 (tableWord nbits w) :: s.inputs }

end Sys2Proof.Machine
end

