-- ==== Sys2Proof/Safety.lean ====
section
/-! DEFINITION. The terms claims are stated in: which parameters the spec allows, which states are well-formed, failed,
waiting or successful, when a binary64 result is correctly rounded, and a run of bus reads. -/

namespace Sys2Proof

/-- A binary64 that is finite and greater than 0. -/
def Machine.F64.Positive (x : F64) : Prop :=
  Machine.F64.isFinite x = true ∧ Machine.F64.sign x = false ∧ 0 < Machine.F64.mag x

/-- The constraints the spec puts on the parameters (00_scope.md R6, R7, R8, R10). That a row of 16000 Hz has gain 3 is
read from the example of 43_array_reader.md R143 (notes/assumptions/3); that no row of FIR_TABLE has rate 0 is read from
90_conflicts.md C4 (notes/assumptions/26). -/
structure Params.Legal (p : Params) : Prop where
  even : p.numSamples % 2 = 0
  atLeast : 2 ≤ p.numSamples
  atMost : p.numSamples ≤ 1024
  rows : p.freqTable.length = 9
  rates : ∀ e ∈ p.freqTable, 8000 ≤ e.rate.toNat ∧ e.rate.toNat ≤ 96000
  has16000 : ∃ e ∈ p.freqTable, e.rate = 16000
  gain16000 : ∀ e ∈ p.freqTable, e.rate = 16000 → e.gain = 3
  firRows : p.firTable.length ≤ 9
  firRates : ∀ f ∈ p.firTable, f.rate ≠ 0
  srcDist : Machine.F64.Positive p.srcDist
  soundSpeed : Machine.F64.Positive p.soundSpeed

namespace Machine

/-- The state is one MICCORE can be in: what every step keeps. -/
structure State.Inv (s : State) : Prop where
  /-- The parameters are the fixed, allowed ones (10_state.md R42). -/
  params : s.params.Legal
  /-- No queue holds more than it has slots (R31). -/
  counts : ∀ c, (s.queues.get c).count ≤ 32
  /-- Every block has NUM_SAMPLES samples a row (R34, R35, R36). -/
  rawRows : ∀ c, (s.raw.get c).length = s.params.numSamples
  delayedRows : ∀ c, (s.delayed.get c).length = s.params.numSamples
  beamRow : s.beam.length = s.params.numSamples
  /-- FATAL is set exactly by the fatal codes, and is never left with another code (R24, R40, 60_exceptions.md R202). -/
  fatalCode : s.fatal = s.err.isFatal
  /-- The fatal state waits for nothing (R202). -/
  fatalIdle : s.fatal = true → s.pend = none
  /-- A waiting CAPTURE was issued after INIT and found no latched edge (R41, 43_array_reader.md R145). -/
  waiting : s.pend = some .capture → s.inited = true ∧ s.evtPend = false
  /-- An edge is latched only while armed, and only INIT arms the latch (R38). -/
  latched : s.evtPend = true → s.evtEn = true
  armed : s.evtEn = true → s.inited = true
  /-- The valid bits are set only by commands, so after INIT (R32, R37, R39). -/
  blockInited : s.blockValid = true → s.inited = true
  coeffInited : s.coeffValid = true → s.inited = true
  /-- While BLOCK_VALID, `beam` is the clamped sum of `delayed` (R37, 43_array_reader.md R148). -/
  block : s.blockValid = true → s.beam = (beamform s).beam

/-- A failed state: the spec's fault, never a successful end (60_exceptions.md R202). -/
def State.failed (s : State) : Prop := s.fatal = true

/-- A hold, not a completion (70_reset_and_hazards.md R238). -/
def State.waitsForEdge (s : State) : Prop := s.pend = some .capture

/-- The latest command has completed, and well (60_exceptions.md R201, 20_memory.md R63). -/
def State.successful (s : State) : Prop := ¬ s.failed ∧ ¬ s.waitsForEdge ∧ s.err = .ok

/-- `r` is the finite binary64 nearest to the real number `v`, and of two that are equally near the one whose
significand is even (IEEE 754 round-to-nearest-even, 41_delay_geometry.md R101). -/
def F64.CorrectlyRounded (v : ℝ) (r : F64) : Prop :=
  ∀ y : F64, F64.isFinite y = true →
    |v - (F64.toRat r : ℝ)| ≤ |v - (F64.toRat y : ℝ)| ∧
    (|v - (F64.toRat r : ℝ)| = |v - (F64.toRat y : ℝ)| → F64.toRat y = F64.toRat r ∨ F64.sig r % 2 = 0)

/-- Reads of `n` bytes at `addr`, one after the other, that all return `ok`: from `s`, with these bytes, to `s'`. -/
def ReadsOk (addr : Half) (n : Nat) : State → List (List Byte) → State → Prop
  | s, [], s' => s' = s
  | s, b :: rest, s' => ∃ s1, memRead addr n s = (some b, s1) ∧ ReadsOk addr n s1 rest s'

/-- The input is a host access (20_memory.md R51). -/
def Input.isHostAccess : Input → Bool
  | .hostRead _ _ | .hostWrite _ _ _ => true
  | .dataReady | .reset => false

/-- The host writes a command word (20_memory.md R52). -/
abbrev cmdWrite (w : Word) : Input := .hostWrite 0x0000#16 32 w

/-- The illegal command words, in the three points of 30_encoding.md R73. -/
def illegalWord (w : Word) : Prop :=
  (w.extractLsb' 0 8 = 0x00#8 ∨ 0x0A ≤ (w.extractLsb' 0 8).toNat) ∨
  w.extractLsb' 11 21 ≠ 0 ∨
  (w.extractLsb' 8 3 ≠ 0 ∧ w.extractLsb' 0 8 ≠ 0x08#8 ∧ w.extractLsb' 0 8 ≠ 0x09#8)

/-- An offset of the register map of 20_memory.md R52, row by row. -/
def listedOffset (numSamples n : Nat) : Prop :=
  n ∈ [0x0000, 0x0004, 0x0008, 0x000C, 0x0010, 0x0014, 0x0018] ∨
  (∃ c < 8, n = 0x0020 + 4 * c) ∨ (∃ k < 64, n = 0x0100 + 4 * k) ∨ (∃ k < 64, n = 0x0200 + 4 * k) ∨
  (∃ c < 8, ∃ k < numSamples / 2, n = 0x4000 + 0x800 * c + 4 * k) ∨
  (∃ k < numSamples / 2, n = 0x8000 + 4 * k)

end Machine

end Sys2Proof
end

