-- ==== Sys2Proof/Certificates/Slice0/Obligations.lean ====
section
/-! DEFINITION. The statements for the provers. Each docstring names the rule of spec/ the statement formalises.
Where a statement speaks of a state's own fields `inputs`, `reply`, `fpga`, `busLog` and `draw`, these are the model's
form of the host, the FPGA bus and its draws (notes/assumptions/1, 4, 5). -/

open Sys2Proof Sys2Proof.Machine

/-! ### Encoding -/

/-- Decoding and encoding are inverse to each other, over every word and every command (30_encoding.md R70, R71, R75). -/
def Obligations.DecodeAndEncodeAgree : Prop :=
  ∀ (w : Word) (i : Instr), decode w = .ok i ↔ encode i = w

/-- The exact patterns of R71: INIT through CAPTURE are one word each; ENQUEUE and DEQUEUE are a match under the mask
0xFFFFF8FF, with CH the channel. -/
def Obligations.OpcodeMapPatterns : Prop :=
  (∀ w, decode w = .ok .init ↔ w = 0x00000001#32) ∧
  (∀ w, decode w = .ok .readSampleRate ↔ w = 0x00000002#32) ∧
  (∀ w, decode w = .ok .writeSampleRate ↔ w = 0x00000003#32) ∧
  (∀ w, decode w = .ok .selectFirCoeff ↔ w = 0x00000004#32) ∧
  (∀ w, decode w = .ok .setCustomFirCoeff ↔ w = 0x00000005#32) ∧
  (∀ w, decode w = .ok .calcDelays ↔ w = 0x00000006#32) ∧
  (∀ w, decode w = .ok .capture ↔ w = 0x00000007#32) ∧
  (∀ w c, decode w = .ok (.enqueue c) ↔
    w &&& 0xFFFFF8FF#32 = 0x00000008#32 ∧ (w.extractLsb' 8 3).toNat = c.val) ∧
  (∀ w c, decode w = .ok (.dequeue c) ↔
    w &&& 0xFFFFF8FF#32 = 0x00000009#32 ∧ (w.extractLsb' 8 3).toNat = c.val)

/-- Exactly the words of R73 are refused, and an accepted write of one ends with ILLEGAL_COMMAND (code 5) and changes
nothing but STATUS.ERR (30_encoding.md R73). -/
def Obligations.IllegalWordsEndWithIllegalCommand : Prop :=
  (∀ w, illegalWord w ↔ ¬ ∃ i, decode w = .ok i) ∧ ErrCode.illegalCommand.code = 5 ∧
  ∀ (s : State) (w : Word) (rest : List Input), s.inputs = cmdWrite w :: rest → s.fatal = false → s.busy = false →
    illegalWord w → step s = .next { s with err := .illegalCommand, inputs := rest, reply := .ack }

/-- Command words of the spec's vectors EN1, EN4 to EN9 and EN12 (95_test_vectors.md), written from R70. -/
def Obligations.SpecCommandWordsDecode : Prop :=
  decode 0x00000001#32 = .ok .init ∧ decode 0x00000007#32 = .ok .capture ∧
  decode 0x00000708#32 = .ok (.enqueue 7) ∧ decode 0x00000709#32 = .ok (.dequeue 7) ∧
  decode 0x00000801#32 = .error .reservedBits ∧ decode 0x00000101#32 = .error .channel ∧
  decode 0x00000000#32 = .error .opcode ∧ decode 0x0000000A#32 = .error .opcode ∧
  decode 0x80000009#32 = .error .reservedBits

/-! ### Issue -/

/-- An accepted write of a command's word to CMD runs exactly that command (20_memory.md R52, 60_exceptions.md R204). -/
def Obligations.StepRunsTheWrittenCommand : Prop :=
  ∀ (s : State) (w : Word) (i : Instr) (rest : List Input), s.inputs = cmdWrite w :: rest →
    s.fatal = false → s.busy = false → decode w = .ok i →
    step s = exec i { s with inputs := rest, reply := .ack }

/-- The priority of R204 for a write to CMD: FATAL, then BUSY, each with an error response, nothing issued and STATUS
unchanged; then the decode checks, the INITED gate last, with ILLEGAL_COMMAND; then the command. -/
def Obligations.CmdWritePriority : Prop :=
  ∀ (s : State) (w : Word) (rest : List Input), s.inputs = cmdWrite w :: rest →
    (s.fatal = true → step s = .next { s with inputs := rest, reply := .error }) ∧
    (s.fatal = false → s.busy = true → step s = .next { s with inputs := rest, reply := .error }) ∧
    (s.fatal = false → s.busy = false → (∃ e, decode w = .error e) →
      step s = .next { s with err := .illegalCommand, inputs := rest, reply := .ack }) ∧
    (s.fatal = false → s.busy = false → s.inited = false → (∃ i, decode w = .ok i ∧ i ≠ .init) →
      step s = .next { s with err := .illegalCommand, inputs := rest, reply := .ack }) ∧
    (s.fatal = false → s.busy = false → ∀ i, decode w = .ok i →
      step s = exec i { s with inputs := rest, reply := .ack })

/-- The INITED gate: before INIT every other command ends with ILLEGAL_COMMAND and changes nothing else; INIT is
accepted whether INITED is 0 or 1 (30_encoding.md R77). -/
def Obligations.InitedGate : Prop :=
  (∀ (i : Instr) (s : State), s.inited = false → i ≠ .init → s.busy = false →
    exec i s = .next { s with err := .illegalCommand }) ∧
  ∀ s : State, ∃ t, exec .init s = .next t ∧ t.inited = true

/-- No step stops: every input is answered by a next state (60_exceptions.md R200, R208). That entry into the fatal state
is a next state too, where R202 says that a model treats the fatal state as a fault, is the model's choice
(notes/assumptions/7). -/
def Obligations.EveryStepAnswers : Prop := ∀ s : State, ∃ t, step s = .next t

/-! ### Reset and the invariant -/

/-- The reset values R43 gives. -/
def Obligations.ResetValues : Prop :=
  State.reset.status = 0 ∧ State.reset.arg0 = 0 ∧ State.reset.arg1 = 0 ∧ State.reset.result = 0 ∧
  State.reset.gain = Config.defaultGain ∧ State.reset.rate = Config.defaultRate ∧
  (∀ c, (State.reset.queues.get c).count = 0 ∧ (State.reset.queues.get c).head = 0) ∧ State.reset.pend = none

/-- Reset as an event, from any state (70_reset_and_hazards.md R230, R231): the values of R43, a waiting CAPTURE
abandoned, every queue empty, no bus transaction. -/
def Obligations.ResetEventClearsState : Prop :=
  ∀ (s : State) (rest : List Input), s.inputs = .reset :: rest → ∃ t, step s = .next t ∧
    t.status = 0 ∧ t.pend = none ∧ t.arg0 = 0 ∧ t.arg1 = 0 ∧ t.result = 0 ∧
    t.gain = s.params.defaultGain ∧ t.rate = s.params.defaultRate ∧ (∀ c, (t.queues.get c).elements = []) ∧
    (∀ c, (t.queues.get c).count = 0 ∧ (t.queues.get c).head = 0) ∧
    t.busLog = s.busLog ∧ t.fpga = s.fpga ∧ t.params = s.params ∧ t.inputs = rest

/-- The state after reset meets the invariant, for the parameters that the model allows. That every row of 16000 Hz has gain
3 and that no row of FIR_TABLE has rate 0, both within `Params.Legal`, are the model's readings (notes/assumptions/3 and
26). -/
def Obligations.ResetMeetsInvariant : Prop := State.reset.Inv

/-- Every step keeps the invariant: counts within 0..32 (10_state.md R31), block sizes, FATAL with a fatal code, the
latch and the valid bits, and BEAM the clamped sum of DELAYED while BLOCK_VALID. -/
def Obligations.StepKeepsInvariant : Prop :=
  ∀ s t : State, s.Inv → step s = .next t → t.Inv

/-! ### The fatal state -/

/-- Entry into the fatal state, and what is left of the machine in it until reset: every host access but an aligned
32-bit read of STATUS gets an error response, edges are ignored, nothing changes (60_exceptions.md R202, 10_state.md
R40). -/
def Obligations.FatalStateLeftOnlyByReset : Prop :=
  (∀ s : State, raise .queueFull s = { s with err := .queueFull, fatal := true, pend := none } ∧
    raise .queueEmpty s = { s with err := .queueEmpty, fatal := true, pend := none }) ∧
  ErrCode.queueFull.code = 3 ∧ ErrCode.queueEmpty.code = 4 ∧
  (∀ s : State, s.inputs = [] → step s = .next { s with reply := .none }) ∧
  ∀ (s : State) (i : Input) (rest : List Input), s.fatal = true → s.inputs = i :: rest →
    (i = .reset → ∃ t, step s = .next t ∧ t.fatal = false) ∧
    (i = .dataReady → step s = .next { s with inputs := rest, reply := .none }) ∧
    (∀ o b w, i = .hostWrite o b w → step s = .next { s with inputs := rest, reply := .error }) ∧
    (∀ o b, i = .hostRead o b → step s = .next
      { s with inputs := rest, reply := if o = 0x0004#16 ∧ b = 32 then .data s.status else .error })

/-! ### The host port -/

/-- Host-port error responses write no state (60_exceptions.md R208): whatever access gets one, the state is as it was. -/
def Obligations.ErrorResponseChangesNothing : Prop :=
  ∀ (s t : State) (i : Input) (rest : List Input), s.inputs = i :: rest → step s = .next t → t.reply = .error →
    i.isHostAccess = true ∧ t = { s with inputs := rest, reply := .error }

/-- Misaligned accesses, accesses of any width but 32 bits, and accesses to an offset that R52 does not list get an
error response (20_memory.md R51, R53), and these are all the reserved offsets: a read of a listed one but CMD is
served when no guard is closed. -/
def Obligations.MisalignedNarrowAndReservedAccessesRefused : Prop :=
  ∀ (s : State) (o : BitVec 16) (b : Nat) (w : Word) (i : Input) (rest : List Input),
    s.params.Legal → i = .hostRead o b ∨ i = .hostWrite o b w → s.inputs = i :: rest →
    (o.toNat % 4 ≠ 0 ∨ b ≠ 32 ∨ ¬ listedOffset s.params.numSamples o.toNat →
      step s = .next { s with inputs := rest, reply := .error }) ∧
    (i = .hostRead o 32 → listedOffset s.params.numSamples o.toNat → o ≠ 0x0000#16 → s.fatal = false →
      s.blockValid = true → s.coeffValid = true →
      ∃ v, step s = .next { s with inputs := rest, reply := .data v })

/-- Wrong-direction accesses get an error response: a write to a register marked R only, a read of CMD (20_memory.md
R54). -/
def Obligations.WrongDirectionRefused : Prop :=
  ∀ (s : State) (o : BitVec 16) (b : Nat) (w : Word) (rest : List Input),
    (s.inputs = .hostRead 0x0000#16 b :: rest → step s = .next { s with inputs := rest, reply := .error }) ∧
    (s.inputs = .hostWrite o b w :: rest →
      o.toNat ∉ [0x0000, 0x0008, 0x000C] → (o.toNat < 0x0200 ∨ 0x0300 ≤ o.toNat) →
      step s = .next { s with inputs := rest, reply := .error })

/-- The access guards of 20_memory.md R56: FATAL, BLOCK_VALID for DELAYED and BEAM, COEFF_VALID for COEFF; the other
reads, and the writes of ARG0, ARG1 and CUSTOM, are always served while FATAL = 0, also while BUSY = 1. -/
def Obligations.AccessGuards : Prop :=
  ∀ (s : State) (o : BitVec 16) (w : Word) (rest : List Input), o.toNat % 4 = 0 →
    (s.fatal = true → o ≠ 0x0004#16 → s.inputs = .hostRead o 32 :: rest →
      step s = .next { s with inputs := rest, reply := .error }) ∧
    (s.fatal = true → s.inputs = .hostWrite o 32 w :: rest →
      step s = .next { s with inputs := rest, reply := .error }) ∧
    (s.inputs = .hostRead 0x0004#16 32 :: rest →
      step s = .next { s with inputs := rest, reply := .data s.status }) ∧
    (s.blockValid = false → 0x4000 ≤ o.toNat → s.inputs = .hostRead o 32 :: rest →
      step s = .next { s with inputs := rest, reply := .error }) ∧
    (s.coeffValid = false → 0x0100 ≤ o.toNat → o.toNat < 0x0200 → s.inputs = .hostRead o 32 :: rest →
      step s = .next { s with inputs := rest, reply := .error }) ∧
    (s.fatal = false → s.inputs = .hostRead o 32 :: rest →
      (o.toNat ∈ [0x0004, 0x0008, 0x000C, 0x0010, 0x0014, 0x0018] ∨ (0x0020 ≤ o.toNat ∧ o.toNat < 0x0040) ∨
        (0x0200 ≤ o.toNat ∧ o.toNat < 0x0300)) →
      ∃ v, step s = .next { s with inputs := rest, reply := .data v }) ∧
    (s.fatal = false → s.inputs = .hostWrite o 32 w :: rest →
      (o.toNat ∈ [0x0008, 0x000C] ∨ (0x0200 ≤ o.toNat ∧ o.toNat < 0x0300)) →
      ∃ t, step s = .next t ∧ t.reply = .ack)

/-- What a served read returns, row by row of R52: the registers, DEPTH[c] (10_state.md R29), and the windows, with the
even sample or tap in bits 15:0 and the odd one in bits 31:16 (R55). -/
def Obligations.ReadsReturnTheRegisterMap : Prop :=
  ∀ s : State, s.params.numSamples ≤ 1024 → (∀ c, (s.queues.get c).count ≤ 32) → s.fatal = false →
    readReply s 0x0004#16 32 = .data s.status ∧ readReply s 0x0008#16 32 = .data s.arg0 ∧
    readReply s 0x000C#16 32 = .data s.arg1 ∧ readReply s 0x0010#16 32 = .data s.result ∧
    readReply s 0x0014#16 32 = .data (0#16 ++ s.gain) ∧ readReply s 0x0018#16 32 = .data s.rate ∧
    (∀ c : Channel, ∃ v, readReply s (BitVec.ofNat 16 (0x0020 + 4 * c.val)) 32 = .data v ∧
      v.toNat = (s.queues.get c).count) ∧
    (∀ k : Fin 64, s.coeffValid = true → readReply s (BitVec.ofNat 16 (0x0100 + 4 * k.val)) 32 =
      .data (s.coeff[2 * k.val + 1] ++ s.coeff[2 * k.val])) ∧
    (∀ k : Fin 64, readReply s (BitVec.ofNat 16 (0x0200 + 4 * k.val)) 32 =
      .data (s.staging[2 * k.val + 1] ++ s.staging[2 * k.val])) ∧
    (∀ (c : Channel) (k : Nat), s.blockValid = true → k < s.params.numSamples / 2 →
      readReply s (BitVec.ofNat 16 (0x4000 + 0x800 * c.val + 4 * k)) 32 =
        .data ((s.delayed.get c).getD (2 * k + 1) 0 ++ (s.delayed.get c).getD (2 * k) 0)) ∧
    (∀ k : Nat, s.blockValid = true → k < s.params.numSamples / 2 →
      readReply s (BitVec.ofNat 16 (0x8000 + 4 * k)) 32 =
        .data (s.beam.getD (2 * k + 1) 0 ++ s.beam.getD (2 * k) 0))

/-- Side effects on the host port (20_memory.md R57): a read changes nothing but the answer; a served write of ARG0,
ARG1 or CUSTOM[k] only stores its value; a served write to CMD issues its command, and a second write of the same word
issues it again. -/
def Obligations.HostPortSideEffects : Prop :=
  ∀ (s : State) (rest : List Input),
    (∀ o b, s.inputs = .hostRead o b :: rest → step s = .next { s with inputs := rest, reply := readReply s o b }) ∧
    (∀ w, s.fatal = false → s.inputs = .hostWrite 0x0008#16 32 w :: rest →
      step s = .next { s with arg0 := w, inputs := rest, reply := .ack }) ∧
    (∀ w, s.fatal = false → s.inputs = .hostWrite 0x000C#16 32 w :: rest →
      step s = .next { s with arg1 := w, inputs := rest, reply := .ack }) ∧
    (∀ (k : Fin 64) w, s.fatal = false → s.inputs = .hostWrite (BitVec.ofNat 16 (0x0200 + 4 * k.val)) 32 w :: rest →
      ∃ stag : Vector Half 128, step s = .next { s with staging := stag, inputs := rest, reply := .ack } ∧
        stag[2 * k.val] = w.extractLsb' 0 16 ∧ stag[2 * k.val + 1] = w.extractLsb' 16 16 ∧
        ∀ (j : Nat) (h : j < 128), j ≠ 2 * k.val → j ≠ 2 * k.val + 1 → stag[j] = s.staging[j]) ∧
    (∀ w, s.fatal = false → s.busy = false → s.inputs = cmdWrite w :: rest →
      step s = issue w { s with inputs := rest, reply := .ack }) ∧
    (∀ w t, s.fatal = false → s.busy = false → s.inputs = cmdWrite w :: cmdWrite w :: rest → step s = .next t →
      t.fatal = false → t.busy = false → step t = issue w { t with inputs := rest, reply := .ack })

/-- The layout of STATUS and the code values of its ERR field (10_state.md R23, R24). -/
def Obligations.StatusLayout : Prop :=
  ∀ s : State,
    (s.status.extractLsb' 0 4).toNat = (match s.err with
      | .ok => 0 | .invalidInput => 1 | .busError => 2 | .queueFull => 3 | .queueEmpty => 4 | .illegalCommand => 5) ∧
    s.status.getLsbD 4 = s.fatal ∧ s.status.getLsbD 5 = decide (s.pend = some .capture) ∧
    s.status.getLsbD 6 = s.evtPend ∧ s.status.getLsbD 7 = s.evtEn ∧ s.status.getLsbD 8 = s.inited ∧
    s.status.getLsbD 9 = s.blockValid ∧ s.status.getLsbD 10 = s.coeffValid ∧ s.status.extractLsb' 11 21 = 0

/-! ### The FPGA bus -/

/-- A transaction of the FPGA bus (20_memory.md R58, R59): it touches nothing but the bus's own part of the state, is
logged once, a read that succeeds returns `n` bytes, and the bytes and the outcome are the collaborator's. -/
def Obligations.BusTransactions : Prop :=
  ∀ (s : State) (addr : Half) (n : Nat) (bytes : List Byte),
    (∃ a : Option (List Byte), memRead addr n s =
      (a, { s with fpga := s.fpga.tail, busLog := s.busLog ++ [.read addr n a], draw := s.draw + 1 }) ∧
      ∀ b, a = some b → b.length = n) ∧
    (∃ ok : Bool, memWrite addr bytes s =
      (ok, { s with fpga := s.fpga.tail, busLog := s.busLog ++ [.write addr bytes ok], draw := s.draw + 1 })) ∧
    (∀ rest, s.fpga = .err :: rest → (memRead addr n s).1 = none ∧ (memWrite addr bytes s).1 = false) ∧
    (∀ b rest, s.fpga = .ok b :: rest → b.length = n →
      (memRead addr n s).1 = some b ∧ (memWrite addr bytes s).1 = true)

/-- The bus transactions MICCORE issues, and no others, in one step (20_memory.md R60): address, length and content of
each row of its table. -/
def Obligations.OnlyListedBusTransactions : Prop :=
  ∀ s t : State, step s = .next t → ∃ l, t.busLog = s.busLog ++ l ∧ ∀ x ∈ l,
    (∃ a, x = .read s.params.micAddr (2 * s.params.numSamples) a) ∨
    (∃ a, x = .read s.params.gainAddr 2 a) ∨ (∃ a, x = .read s.params.rateConstAddr 2 a) ∨
    (∃ e ∈ s.params.freqTable, ∃ ok, x = .write s.params.gainAddr (le16 e.gain) ok) ∨
    (∃ e ∈ s.params.freqTable, ∃ ok, x = .write s.params.rateConstAddr (le16 e.constant) ok) ∨
    (∃ ok, x = .write s.params.firAddr (bytesOf t.coeff.toList) ok ∧ (bytesOf t.coeff.toList).length = 256)

/-! ### Delay queues -/

/-- ENQUEUE (42_delay_queue.md R122, R120): its command word, and its effect, inited: the low half of ARG0 is appended
to the queue of the channel, every other channel and register as before; a queue of 32 is left unchanged and the
machine enters the fatal state. -/
def Obligations.EnqueueAppends : Prop :=
  (∀ c : Channel, decode (0x00000008#32 ||| BitVec.ofNat 32 c.val <<< 8) = .ok (.enqueue c)) ∧
  ∀ (s : State) (c : Channel), s.inited = true → s.pend = none →
    ((s.queues.get c).count < 32 → ∃ q : DelayQueue,
      exec (.enqueue c) s = .next { s with queues := s.queues.set c q, err := .ok } ∧
      q.elements = (s.queues.get c).elements ++ [s.arg0.extractLsb' 0 16] ∧
      q.count = (s.queues.get c).count + 1 ∧ ∀ i ≠ c, (s.queues.set c q).get i = s.queues.get i) ∧
    ((s.queues.get c).count = 32 → exec (.enqueue c) s = .next { s with err := .queueFull, fatal := true })

/-- DEQUEUE (42_delay_queue.md R123, R121): its command word, and its effect, inited: the oldest element leaves the
queue of the channel and RESULT is its sign extension; an empty queue and RESULT are left unchanged and the machine
enters the fatal state. -/
def Obligations.DequeueReturnsOldest : Prop :=
  (∀ c : Channel, decode (0x00000009#32 ||| BitVec.ofNat 32 c.val <<< 8) = .ok (.dequeue c)) ∧
  ∀ (s : State) (c : Channel), s.inited = true → s.pend = none →
    (∀ v rest, (s.queues.get c).elements = v :: rest → ∃ q : DelayQueue,
      exec (.dequeue c) s =
        .next { s with queues := s.queues.set c q, result := BitVec.ofInt 32 v.toInt, err := .ok } ∧
      q.elements = rest ∧ q.count + 1 = (s.queues.get c).count ∧
      ∀ i ≠ c, (s.queues.set c q).get i = s.queues.get i) ∧
    ((s.queues.get c).count = 0 → exec (.dequeue c) s = .next { s with err := .queueEmpty, fatal := true })

/-- The delay-line property on one queue (42_delay_queue.md R124): with `m <= 31` elements, the capture loop outputs the
elements, then the input delayed by `m` samples, and keeps the depth `m`. -/
def Obligations.DelayLineProperty : Prop :=
  ∀ (q : DelayQueue) (samples : List Half), q.count ≤ 31 →
    (q.delay samples).1 = (q.elements ++ samples).take samples.length ∧
    (q.delay samples).2.elements = (q.elements ++ samples).drop samples.length ∧
    (q.delay samples).2.count = q.count

/-! ### Delay geometry -/

/-- Each binary64 operation of the geometry, on finite operands and with a finite result, is correctly rounded, to
nearest with ties to even; so is the square root (41_delay_geometry.md R101). -/
def Obligations.ArithmeticIsCorrectlyRounded : Prop :=
  (∀ x y : F64, F64.isFinite x = true → F64.isFinite y = true →
    (F64.isFinite (F64.add x y) = true →
      F64.CorrectlyRounded ((F64.toRat x : ℝ) + F64.toRat y) (F64.add x y)) ∧
    (F64.isFinite (F64.sub x y) = true →
      F64.CorrectlyRounded ((F64.toRat x : ℝ) - F64.toRat y) (F64.sub x y)) ∧
    (F64.isFinite (F64.mul x y) = true →
      F64.CorrectlyRounded ((F64.toRat x : ℝ) * F64.toRat y) (F64.mul x y)) ∧
    (F64.toRat y ≠ 0 → F64.isFinite (F64.div x y) = true →
      F64.CorrectlyRounded ((F64.toRat x : ℝ) / F64.toRat y) (F64.div x y))) ∧
  ∀ x : F64, F64.isFinite x = true → F64.sign x = false →
    F64.isFinite (F64.sqrt x) = true ∧ F64.CorrectlyRounded (Real.sqrt (F64.toRat x)) (F64.sqrt x)

/-- The widening of a finite binary32 and of a u32 is exact (00_scope.md R14, 41_delay_geometry.md R101), and a binary32
NaN or infinity stays not finite. -/
def Obligations.WideningIsExact : Prop :=
  (∀ w : Word, (w.extractLsb' 23 8).toNat ≠ 255 →
    F64.isFinite (F64.ofBinary32 w) = true ∧
    F64.toRat (F64.ofBinary32 w) = (if w.msb then -1 else 1) *
      (if (w.extractLsb' 23 8).toNat = 0 then ((w.extractLsb' 0 23).toNat : ℚ) / 2 ^ 149
       else (2 ^ 23 + ((w.extractLsb' 0 23).toNat : ℚ)) * 2 ^ ((w.extractLsb' 23 8).toNat : ℤ) / 2 ^ 150)) ∧
  (∀ w : Word, (w.extractLsb' 23 8).toNat = 255 → F64.isFinite (F64.ofBinary32 w) = false) ∧
  ∀ w : Word, F64.isFinite (F64.ofWord w) = true ∧ F64.toRat (F64.ofWord w) = w.toNat

/-- `round_half_away` of a finite `t >= 0` is the nearest whole number, the larger of two at a tie; and no delay that the
geometry rounds is negative (41_delay_geometry.md R102). -/
def Obligations.RoundHalfAwayIsNearest : Prop :=
  (∀ t : F64, F64.isFinite t = true → F64.sign t = false →
    (F64.roundHalfAway t : ℚ) - 1 / 2 ≤ F64.toRat t ∧ F64.toRat t < (F64.roundHalfAway t : ℚ) + 1 / 2) ∧
  ∀ (p : Params) (az pol : F64) (fs : Word) (c : Channel), p.Legal → geometryFinite p az pol fs = true →
    F64.sign ((unroundedDelays p az pol fs).get c) = false

/-- What the model assumes of `sin64` and `cos64`, and all it assumes (00_scope.md R13): `sin64(+0.0) = +0.0`,
`cos64(+0.0) = 1.0`, and a finite operand gives a finite result. -/
def Obligations.SineAndCosineAssumptions : Prop :=
  ∀ p : Params, sin64 p (F64.zero false) = F64.zero false ∧ F64.toRat (cos64 p (F64.zero false)) = 1 ∧
    ∀ x : F64, F64.isFinite x = true → F64.isFinite (sin64 p x) = true ∧ F64.isFinite (cos64 p x) = true

/-- Properties (a), (b) and (d) of 41_delay_geometry.md R106, for any parameters: some channel of least distance gets
delay 0; equal distances get equal delays; rate 0 gives every channel delay 0. -/
def Obligations.GeometryDelays : Prop :=
  ∀ (p : Params) (az pol : F64) (fs : Word) (k : Eight Nat), geomDelays p az pol fs = some k →
    (∃ c, k.get c = 0 ∧ ∀ i, F64.toRat ((distances p az pol).get c) ≤ F64.toRat ((distances p az pol).get i)) ∧
    (∀ a b, (distances p az pol).get a = (distances p az pol).get b → k.get a = k.get b) ∧
    (fs = 0 → ∀ c, k.get c = 0)

/-- Property (c) of 41_delay_geometry.md R106: the delays do not decrease with the distance. -/
def Obligations.DelaysFollowDistance : Prop :=
  ∀ (p : Params) (az pol : F64) (fs : Word) (k : Eight Nat), p.Legal → geomDelays p az pol fs = some k →
    ∀ a b, F64.toRat ((distances p az pol).get a) ≤ F64.toRat ((distances p az pol).get b) → k.get a ≤ k.get b

/-- The default direction (41_delay_geometry.md R106 (e)): with azimuth +0.0, any finite polar angle and microphones at
one computed distance from the centre, every delay is 0. -/
def Obligations.DefaultDirectionIsSynchronised : Prop :=
  ∀ (p : Params) (pol : F64) (fs : Word) (k : Eight Nat), p.Legal → F64.isFinite pol = true →
    (∀ a b, F64.add (F64.mul (p.micPos.get a).x (p.micPos.get a).x) (F64.mul (p.micPos.get a).y (p.micPos.get a).y) =
      F64.add (F64.mul (p.micPos.get b).x (p.micPos.get b).x) (F64.mul (p.micPos.get b).y (p.micPos.get b).y)) →
    geomDelays p (F64.zero false) pol fs = some k → ∀ c, k.get c = 0

/-- CALC_DELAYS (41_delay_geometry.md R100, R104, R105), inited, with finite operands and delays `k` that fit: every
queue keeps its elements and takes `k[c]` zeros behind them; nothing else changes but STATUS.ERR. -/
def Obligations.CalcDelaysSeedsQueues : Prop :=
  ∀ (s : State) (k : Eight Nat), s.inited = true → s.pend = none →
    F64.isFinite (F64.ofBinary32 s.arg0) = true → F64.isFinite (F64.ofBinary32 s.arg1) = true →
    geomDelays s.params (F64.ofBinary32 s.arg0) (F64.ofBinary32 s.arg1) s.rate = some k →
    (∀ c, (s.queues.get c).count + k.get c ≤ 32) →
    ∃ qs : Eight DelayQueue, exec .calcDelays s = .next { s with queues := qs, err := .ok } ∧
      ∀ c, (qs.get c).elements = (s.queues.get c).elements ++ List.replicate (k.get c) 0

/-- The errors of CALC_DELAYS (41_delay_geometry.md R100, R103, R104; 60_exceptions.md R205): an operand or an
intermediate value that is not finite gives INVALID_INPUT, whatever the queues; else a queue without room gives
QUEUE_FULL, which is fatal. No queue changes. -/
def Obligations.CalcDelaysErrors : Prop :=
  ∀ s : State, s.inited = true → s.pend = none →
    (F64.isFinite (F64.ofBinary32 s.arg0) = false ∨ F64.isFinite (F64.ofBinary32 s.arg1) = false ∨
      geometryFinite s.params (F64.ofBinary32 s.arg0) (F64.ofBinary32 s.arg1) s.rate = false →
      exec .calcDelays s = .next { s with err := .invalidInput }) ∧
    (∀ k c, F64.isFinite (F64.ofBinary32 s.arg0) = true → F64.isFinite (F64.ofBinary32 s.arg1) = true →
      geomDelays s.params (F64.ofBinary32 s.arg0) (F64.ofBinary32 s.arg1) s.rate = some k →
      32 < (s.queues.get c).count + k.get c →
      exec .calcDelays s = .next { s with err := .queueFull, fatal := true })

/-! ### The reader: rate configuration -/

/-- READ_SAMPLE_RATE (43_array_reader.md R141, R142), inited: both reads succeed, gain first, and the constant is that of
row `e`, the first with it: gain takes the value read, rate and RESULT the row's rate. -/
def Obligations.ReadSampleRateAdopts : Prop :=
  ∀ (s s1 s2 : State) (g0 g1 k0 k1 : Byte) (before after : List FreqRow) (e : FreqRow),
    s.inited = true → s.pend = none →
    memRead s.params.gainAddr 2 s = (some [g0, g1], s1) → memRead s.params.rateConstAddr 2 s1 = (some [k0, k1], s2) →
    s.params.freqTable = before ++ e :: after → (∀ r ∈ before, r.constant ≠ k1 ++ k0) → e.constant = k1 ++ k0 →
    exec .readSampleRate s = .next { s with
      gain := g1 ++ g0, rate := e.rate, result := e.rate, err := .ok, fpga := s2.fpga, draw := s2.draw,
      busLog := s.busLog ++ [.read s.params.gainAddr 2 (some [g0, g1]),
        .read s.params.rateConstAddr 2 (some [k0, k1])] }

/-- The errors of READ_SAMPLE_RATE (43_array_reader.md R141): BUS_ERROR when a read fails, the second not issued when the
first does; INVALID_INPUT when no row has the constant. Gain, rate and RESULT keep their values. -/
def Obligations.ReadSampleRateErrors : Prop :=
  ∀ s s1 : State, s.inited = true → s.pend = none →
    (memRead s.params.gainAddr 2 s = (none, s1) → exec .readSampleRate s = .next { s with
      err := .busError, fpga := s1.fpga, draw := s1.draw,
      busLog := s.busLog ++ [.read s.params.gainAddr 2 none] }) ∧
    (∀ bg, memRead s.params.gainAddr 2 s = (some bg, s1) →
      (∀ s2, memRead s.params.rateConstAddr 2 s1 = (none, s2) → exec .readSampleRate s = .next { s with
        err := .busError, fpga := s2.fpga, draw := s2.draw,
        busLog := s.busLog ++ [.read s.params.gainAddr 2 (some bg), .read s.params.rateConstAddr 2 none] }) ∧
      (∀ s2 k0 k1, memRead s.params.rateConstAddr 2 s1 = (some [k0, k1], s2) →
        (∀ r ∈ s.params.freqTable, r.constant ≠ k1 ++ k0) → exec .readSampleRate s = .next { s with
          err := .invalidInput, fpga := s2.fpga, draw := s2.draw,
          busLog := s.busLog ++ [.read s.params.gainAddr 2 (some bg),
            .read s.params.rateConstAddr 2 (some [k0, k1])] }))

/-- WRITE_SAMPLE_RATE (43_array_reader.md R143, R144), inited, with a rate of the table and a bus that answers `ok`: the
gain register is written first, then the rate-constant register, then gain and rate take the row's values. -/
def Obligations.WriteSampleRateSwitches : Prop :=
  ∀ (s s1 s2 : State) (before after : List FreqRow) (e : FreqRow), s.inited = true → s.pend = none →
    s.params.freqTable = before ++ e :: after → (∀ r ∈ before, r.rate ≠ s.arg0) → e.rate = s.arg0 →
    memWrite s.params.gainAddr [e.gain.extractLsb' 0 8, e.gain.extractLsb' 8 8] s = (true, s1) →
    memWrite s.params.rateConstAddr [e.constant.extractLsb' 0 8, e.constant.extractLsb' 8 8] s1 = (true, s2) →
    exec .writeSampleRate s = .next { s with
      gain := e.gain, rate := s.arg0, err := .ok, fpga := s2.fpga, draw := s2.draw,
      busLog := s.busLog ++ [.write s.params.gainAddr [e.gain.extractLsb' 0 8, e.gain.extractLsb' 8 8] true,
        .write s.params.rateConstAddr [e.constant.extractLsb' 0 8, e.constant.extractLsb' 8 8] true] }

/-- The errors of WRITE_SAMPLE_RATE (43_array_reader.md R143): INVALID_INPUT for a rate of no row, with no bus traffic;
BUS_ERROR when a write fails, the second not issued when the first does. Gain and rate keep their values. -/
def Obligations.WriteSampleRateErrors : Prop :=
  ∀ s : State, s.inited = true → s.pend = none →
    ((∀ r ∈ s.params.freqTable, r.rate ≠ s.arg0) → exec .writeSampleRate s = .next { s with err := .invalidInput }) ∧
    (∀ (before after : List FreqRow) (e : FreqRow) (s1 : State), s.params.freqTable = before ++ e :: after →
      (∀ r ∈ before, r.rate ≠ s.arg0) → e.rate = s.arg0 →
      (memWrite s.params.gainAddr (le16 e.gain) s = (false, s1) → exec .writeSampleRate s = .next { s with
        err := .busError, fpga := s1.fpga, draw := s1.draw,
        busLog := s.busLog ++ [.write s.params.gainAddr (le16 e.gain) false] }) ∧
      (∀ s2, memWrite s.params.gainAddr (le16 e.gain) s = (true, s1) →
        memWrite s.params.rateConstAddr (le16 e.constant) s1 = (false, s2) →
        exec .writeSampleRate s = .next { s with
          err := .busError, fpga := s2.fpga, draw := s2.draw,
          busLog := s.busLog ++ [.write s.params.gainAddr (le16 e.gain) true,
            .write s.params.rateConstAddr (le16 e.constant) false] }))

/-- The source's rate facts under any allowed parameters (00_scope.md R7): 16000 Hz is in the table and its gain is 3, so
WRITE_SAMPLE_RATE 16000 on a bus that answers `ok` leaves gain 3 and rate 16000; 99999 is in no row. That the row found
for 16000 Hz has gain 3 is the model's reading of R143's example (notes/assumptions/3). -/
def Obligations.Rate16000HasGain3 : Prop :=
  ∀ s : State, s.params.Legal → s.inited = true → s.pend = none →
    (∀ b1 b2 rest, s.arg0 = 16000 → s.fpga = .ok b1 :: .ok b2 :: rest → ∃ t,
      exec .writeSampleRate s = .next t ∧ t.gain = 3 ∧ t.rate = 16000 ∧ t.err = .ok) ∧
    (s.arg0 = 99999 → exec .writeSampleRate s = .next { s with err := .invalidInput })

/-! ### The reader: construction -/

/-- INIT (43_array_reader.md R140) from any state that waits for nothing, with default-direction delays `k` that fit an
empty queue and a bus that reads back the constant of row `e`: every queue holds its delay's zeros, INITED and EVT_EN
are set, BLOCK_VALID and EVT_PEND cleared, gain, rate and RESULT taken from the read. -/
def Obligations.InitConstructs : Prop :=
  ∀ (s s1 s2 : State) (k : Eight Nat) (g0 g1 k0 k1 : Byte) (before after : List FreqRow) (e : FreqRow),
    s.pend = none →
    geomDelays s.params (F64.zero false) (F64.zero false) s.rate = some k → (∀ c, k.get c ≤ 32) →
    memRead s.params.gainAddr 2 s = (some [g0, g1], s1) → memRead s.params.rateConstAddr 2 s1 = (some [k0, k1], s2) →
    s.params.freqTable = before ++ e :: after → (∀ r ∈ before, r.constant ≠ k1 ++ k0) → e.constant = k1 ++ k0 →
    ∃ qs : Eight DelayQueue, exec .init s = .next { s with
      queues := qs, inited := true, blockValid := false, evtEn := true, evtPend := false,
      gain := g1 ++ g0, rate := e.rate, result := e.rate, err := .ok, fpga := s2.fpga, draw := s2.draw,
      busLog := s.busLog ++ [.read s.params.gainAddr 2 (some [g0, g1]),
        .read s.params.rateConstAddr 2 (some [k0, k1])] } ∧
      ∀ c, (qs.get c).elements = List.replicate (k.get c) 0

/-- The errors of INIT (43_array_reader.md R140, 60_exceptions.md R201), and what INIT never writes. What an earlier step
wrote stays: a configuration read that fails leaves the array constructed and gain, rate and RESULT as they were; a
default geometry that is not finite, or too deep, stops before the latch is armed and before any bus traffic. -/
def Obligations.InitErrors : Prop :=
  ∀ s : State, s.pend = none → ∃ t, exec .init s = .next t ∧
    t = { s with
      err := t.err, fatal := t.fatal, evtPend := t.evtPend, evtEn := t.evtEn, inited := true, blockValid := false,
      result := t.result, gain := t.gain, rate := t.rate, queues := t.queues, fpga := t.fpga, busLog := t.busLog,
      draw := t.draw } ∧
    (t.err ≠ .ok → t.gain = s.gain ∧ t.rate = s.rate ∧ t.result = s.result) ∧
    (∀ k, geomDelays s.params (F64.zero false) (F64.zero false) s.rate = some k → (∀ c, k.get c ≤ 32) →
      t.evtEn = true ∧ t.evtPend = false ∧ (∀ c, (t.queues.get c).elements = List.replicate (k.get c) 0) ∧
      t.fatal = s.fatal ∧
      ((∃ rest, s.fpga = .err :: rest) → t.err = .busError) ∧
      ((∃ b rest, s.fpga = .ok b :: .err :: rest) → t.err = .busError) ∧
      (∀ g0 g1 k0 k1 rest, s.fpga = .ok [g0, g1] :: .ok [k0, k1] :: rest →
        (∀ r ∈ s.params.freqTable, r.constant ≠ k1 ++ k0) → t.err = .invalidInput)) ∧
    (geometryFinite s.params (F64.zero false) (F64.zero false) s.rate = false →
      t.err = .invalidInput ∧ t.fatal = s.fatal ∧ t.evtEn = s.evtEn ∧ t.evtPend = s.evtPend ∧ t.busLog = s.busLog ∧
      ∀ c, (t.queues.get c).elements = []) ∧
    (∀ k c, geomDelays s.params (F64.zero false) (F64.zero false) s.rate = some k → 32 < k.get c →
      t.err = .queueFull ∧ t.fatal = true ∧ t.evtEn = s.evtEn ∧ t.evtPend = s.evtPend ∧ t.busLog = s.busLog ∧
      ∀ c, (t.queues.get c).elements = [])

/-! ### The reader: capture -/

/-- CAPTURE issued with no latched edge holds: BUSY is set and nothing else changes (43_array_reader.md R145). -/
def Obligations.CaptureHoldsWithoutEdge : Prop :=
  ∀ s : State, s.inited = true → s.evtPend = false →
    exec .capture s = .next { s with pend := some .capture } ∧
    ∀ t, exec .capture s = .next t → t.busy = true

/-- A whole capture cycle, inited, with a latched edge, eight good reads of the microphone register and every depth at
most 31 (43_array_reader.md R145 to R149, 42_delay_queue.md R124): channel `c` carries the little-endian samples of
read `c`; its delayed block is its queue's elements followed by those samples, NUM_SAMPLES of them; its queue keeps the
rest, so its depth; the beam is the sum of the eight delayed samples, saturated to i16; BLOCK_VALID is set, the edge is
consumed, and nothing else changes. -/
def Obligations.CaptureCycle : Prop :=
  ∀ (s s1 : State) (blocks : List (List Byte)), s.inited = true → s.evtPend = true → s.pend = none →
    (∀ c, (s.queues.get c).count ≤ 31) → blocks.length = 8 →
    ReadsOk s.params.micAddr (2 * s.params.numSamples) s blocks s1 →
    ∃ (raw delayed : Eight (List Half)) (qs : Eight DelayQueue) (beam : List Half),
      exec .capture s = .next { s with
        raw := raw, delayed := delayed, queues := qs, beam := beam, blockValid := true, evtPend := false, err := .ok,
        fpga := s1.fpga, draw := s1.draw,
        busLog := s.busLog ++ blocks.map fun b => .read s.params.micAddr (2 * s.params.numSamples) (some b) } ∧
      (∀ c : Channel, (raw.get c).length = s.params.numSamples ∧
        ∀ i < s.params.numSamples, (raw.get c).getD i 0 =
          (blocks.getD c.val []).getD (2 * i + 1) 0 ++ (blocks.getD c.val []).getD (2 * i) 0) ∧
      (∀ c, delayed.get c = ((s.queues.get c).elements ++ raw.get c).take s.params.numSamples) ∧
      (∀ c, (qs.get c).elements = ((s.queues.get c).elements ++ raw.get c).drop s.params.numSamples ∧
        (qs.get c).count = (s.queues.get c).count) ∧
      beam.length = s.params.numSamples ∧
      ∀ i < s.params.numSamples, (beam.getD i 0).toInt =
        max (-32768) (min 32767 ((channels.map fun c => ((delayed.get c).getD i 0).toInt).sum))

/-- The beamformer (43_array_reader.md R148): the eight sign-extended samples are added without overflow in 32 bits and
the sum is clamped to i16, never wrapped and never scaled. -/
def Obligations.BeamSaturates : Prop :=
  ∀ (delayed : Eight (List Half)) (i : Nat),
    (beamAcc delayed i).toInt = (channels.map fun c => ((delayed.get c).getD i 0).toInt).sum ∧
    -262144 ≤ (beamAcc delayed i).toInt ∧ (beamAcc delayed i).toInt ≤ 262136 ∧
    (clamp16 (beamAcc delayed i)).toInt =
      (if (beamAcc delayed i).toInt < -32768 then -32768
       else if 32767 < (beamAcc delayed i).toInt then 32767 else (beamAcc delayed i).toInt)

/-- The end-to-end property (43_array_reader.md R150): zero delays, `raw[0] = [1000, 0, 0, ...]` and every other channel
zero give `beam[0] = 1000` and 0 behind it. -/
def Obligations.EndToEndThousand : Prop :=
  ∀ s s1 : State, s.inited = true → s.evtPend = true → s.pend = none → (∀ c, (s.queues.get c).count = 0) →
    1 ≤ s.params.numSamples →
    ReadsOk s.params.micAddr (2 * s.params.numSamples) s
      ((0xE8#8 :: 0x03#8 :: List.replicate (2 * s.params.numSamples - 2) 0) ::
        List.replicate 7 (List.replicate (2 * s.params.numSamples) 0)) s1 →
    ∃ t, exec .capture s = .next t ∧ t.beam.length = s.params.numSamples ∧ t.beam.getD 0 0 = 1000 ∧
      ∀ i, 1 ≤ i → t.beam.getD i 0 = 0

/-- A capture cycle whose read of some channel fails (43_array_reader.md R146): BUS_ERROR, whatever the depths
(60_exceptions.md R205); BLOCK_VALID cleared; the reads up to the failing one issued and no other; the edge consumed;
queues, delayed and beam as before. -/
def Obligations.CaptureBusError : Prop :=
  ∀ (s s1 s2 : State) (blocks : List (List Byte)), s.inited = true → s.evtPend = true → s.pend = none →
    blocks.length < 8 → ReadsOk s.params.micAddr (2 * s.params.numSamples) s blocks s1 →
    memRead s.params.micAddr (2 * s.params.numSamples) s1 = (none, s2) →
    ∃ raw, exec .capture s = .next { s with
      raw := raw, blockValid := false, evtPend := false, err := .busError, fpga := s2.fpga, draw := s2.draw,
      busLog := s.busLog ++ (blocks.map fun b => .read s.params.micAddr (2 * s.params.numSamples) (some b)) ++
        [.read s.params.micAddr (2 * s.params.numSamples) none] }

/-- A capture cycle with eight good reads and a queue of 32 (43_array_reader.md R147, 42_delay_queue.md R125): QUEUE_FULL,
which is fatal, with no queue and no block changed. That BLOCK_VALID stays as it was is the model's reading
(notes/assumptions/27). -/
def Obligations.CaptureQueueFull : Prop :=
  ∀ (s s1 : State) (blocks : List (List Byte)) (c : Channel), s.inited = true → s.evtPend = true → s.pend = none →
    (s.queues.get c).count = 32 → blocks.length = 8 →
    ReadsOk s.params.micAddr (2 * s.params.numSamples) s blocks s1 →
    ∃ raw, exec .capture s = .next { s with
      raw := raw, evtPend := false, err := .queueFull, fatal := true, fpga := s1.fpga, draw := s1.draw,
      busLog := s.busLog ++ blocks.map fun b => .read s.params.micAddr (2 * s.params.numSamples) (some b) }

/-- A data-ready edge (60_exceptions.md R206): ignored while FATAL = 1 or EVT_EN = 0; runs a waiting CAPTURE, just as a
CAPTURE issued with a latched edge runs; else latched, where an edge that finds one latched is dropped. EVT_EN is
cleared by nothing but reset. -/
def Obligations.DataReadyEdge : Prop :=
  (∀ (s : State) (rest : List Input), s.inputs = .dataReady :: rest →
    (s.fatal = true ∨ s.evtEn = false → step s = .next { s with inputs := rest, reply := .none }) ∧
    (s.fatal = false → s.evtEn = true → s.pend = none →
      step s = .next { s with evtPend := true, inputs := rest, reply := .none }) ∧
    (s.fatal = false → s.evtEn = true → s.pend = some .capture → s.inited = true → s.evtPend = false →
      step s = exec .capture { s with pend := none, evtPend := true, inputs := rest, reply := .none })) ∧
  ∀ s t : State, step s = .next t → s.evtEn = true → s.inputs.head? ≠ some .reset → t.evtEn = true

/-! ### The filter stage -/

/-- SELECT_FIR_COEFF (44_filter_stage.md R180, R181, R183, R185), inited, with `f` the first row of FIR_TABLE that has the
current rate: `coeff` is the row's taps and COEFF_VALID is set; the bytes written are the 256 little-endian bytes of the
taps, tap 0 first; a failing write gives BUS_ERROR with the store kept. -/
def Obligations.SelectFirCoeffLoadsAndPushes : Prop :=
  ∀ (s s1 : State) (before after : List FirRow) (f : FirRow) (ok : Bool), s.inited = true → s.pend = none →
    s.params.firTable = before ++ f :: after → (∀ r ∈ before, r.rate ≠ s.rate) → f.rate = s.rate →
    memWrite s.params.firAddr (bytesOf f.taps.toList) s = (ok, s1) →
    exec .selectFirCoeff s = .next { s with
      coeff := f.taps, coeffValid := true, err := if ok then .ok else .busError, fpga := s1.fpga, draw := s1.draw,
      busLog := s.busLog ++ [.write s.params.firAddr (bytesOf f.taps.toList) ok] } ∧
    (bytesOf f.taps.toList).length = 256 ∧
    ∀ (i : Nat) (h : i < 128), (bytesOf f.taps.toList)[2 * i]? = some (f.taps[i].extractLsb' 0 8) ∧
      (bytesOf f.taps.toList)[2 * i + 1]? = some (f.taps[i].extractLsb' 8 8)

/-- SELECT_FIR_COEFF for a rate with no row (44_filter_stage.md R180, R185): INVALID_INPUT, `coeff` unchanged and no bus
traffic. -/
def Obligations.SelectFirCoeffWithoutRow : Prop :=
  ∀ s : State, s.inited = true → s.pend = none → (∀ r ∈ s.params.firTable, r.rate ≠ s.rate) →
    exec .selectFirCoeff s = .next { s with err := .invalidInput }

/-- SET_CUSTOM_FIR_COEFF (44_filter_stage.md R182, R183): its command word, and its effect, inited: `coeff` is the
staging buffer and COEFF_VALID is set, its 256 bytes are pushed, and the code is OK or BUS_ERROR, never INVALID_INPUT.
-/
def Obligations.SetCustomFirCoeffLoadsAndPushes : Prop :=
  decode 0x00000005#32 = .ok .setCustomFirCoeff ∧
  ∀ (s s1 : State) (ok : Bool), s.inited = true → s.pend = none →
    memWrite s.params.firAddr (bytesOf s.staging.toList) s = (ok, s1) →
    exec .setCustomFirCoeff s = .next { s with
      coeff := s.staging, coeffValid := true, err := if ok then .ok else .busError, fpga := s1.fpga, draw := s1.draw,
      busLog := s.busLog ++ [.write s.params.firAddr (bytesOf s.staging.toList) ok] }

/-- MICCORE performs no FIR convolution (44_filter_stage.md R184): two runs of one step that differ only in `coeff` agree
in every sample, queue, register and bus transaction; only `coeff` itself, and the answer to a read of it, can differ. -/
def Obligations.CoefficientsNeverReachSamples : Prop :=
  ∀ (s t t' : State) (taps : Vector Half 128), step s = .next t → step { s with coeff := taps } = .next t' →
    t' = { t with coeff := t'.coeff, reply := t'.reply }

/-! ### Whole-machine rules -/

/-- What may write RESULT (10_state.md R26): on success only, READ_SAMPLE_RATE and INIT, which write the rate, and
DEQUEUE, which writes the sign extension of the dequeued sample; and reset. -/
def Obligations.OnlyThreeCommandsWriteResult : Prop :=
  ∀ s t : State, step s = .next t → t.result ≠ s.result →
    s.inputs.head? = some .reset ∨
    ∃ w i, s.inputs.head? = some (cmdWrite w) ∧ decode w = .ok i ∧ t.err = .ok ∧
      ((i = .readSampleRate ∨ i = .init) ∧ t.result = t.rate ∨
        ∃ c, i = .dequeue c ∧ t.result = BitVec.ofInt 32 (s.queues.get c).oldest.toInt)

/-- What may write gain or rate (10_state.md R27, R28): a successful READ_SAMPLE_RATE, its body within INIT, a successful
WRITE_SAMPLE_RATE, and reset. -/
def Obligations.OnlyRateCommandsWriteGainAndRate : Prop :=
  ∀ s t : State, step s = .next t → t.gain ≠ s.gain ∨ t.rate ≠ s.rate →
    s.inputs.head? = some .reset ∨
    ∃ w i, s.inputs.head? = some (cmdWrite w) ∧ decode w = .ok i ∧ t.err = .ok ∧
      (i = .readSampleRate ∨ i = .init ∨ i = .writeSampleRate)

/-- What may change DELAYED, BEAM or BLOCK_VALID (10_state.md R35, R36, R37, 43_array_reader.md R149): CAPTURE, at its
issue or at its edge, INIT and reset. -/
def Obligations.BlocksStayUntilCaptureInitOrReset : Prop :=
  ∀ s t : State, step s = .next t → t.delayed ≠ s.delayed ∨ t.beam ≠ s.beam ∨ t.blockValid ≠ s.blockValid →
    s.inputs.head? = some .reset ∨ (s.inputs.head? = some .dataReady ∧ s.pend = some .capture) ∨
    ∃ w, s.inputs.head? = some (cmdWrite w) ∧
      (decode w = .ok .capture ∨ (decode w = .ok .init ∧ t.delayed = s.delayed ∧ t.beam = s.beam))

/-- What may change the coefficient store or COEFF_VALID (10_state.md R32): the two filter commands, which set
COEFF_VALID, and reset. -/
def Obligations.OnlyFilterCommandsWriteCoefficients : Prop :=
  ∀ s t : State, step s = .next t → t.coeff ≠ s.coeff ∨ t.coeffValid ≠ s.coeffValid →
    s.inputs.head? = some .reset ∨
    ∃ w, s.inputs.head? = some (cmdWrite w) ∧ t.coeffValid = true ∧
      (decode w = .ok .selectFirCoeff ∨ decode w = .ok .setCustomFirCoeff)

/-- What may change a delay queue (10_state.md R30, R44): INIT, CALC_DELAYS, ENQUEUE, DEQUEUE, CAPTURE at its issue or at
its edge, and reset; a command that ends in a fatal error changes none but by INIT's emptying
(60_exceptions.md R202). -/
def Obligations.OnlyQueueCommandsChangeQueues : Prop :=
  ∀ s t : State, step s = .next t → t.queues ≠ s.queues →
    s.inputs.head? = some .reset ∨ (s.inputs.head? = some .dataReady ∧ s.pend = some .capture) ∨
    ∃ w i, s.inputs.head? = some (cmdWrite w) ∧ decode w = .ok i ∧
      (i = .init ∨ t.fatal = false ∧ (i = .calcDelays ∨ i = .capture ∨ ∃ c, i = .enqueue c ∨ i = .dequeue c))

/-- No command writes ARG0, ARG1, the staging buffer or a parameter (10_state.md R25, R33, R42), nor takes an input or
answers the host. -/
def Obligations.CommandsLeaveArguments : Prop :=
  ∀ (i : Instr) (s t : State), exec i s = .next t →
    t.arg0 = s.arg0 ∧ t.arg1 = s.arg1 ∧ t.staging = s.staging ∧ t.params = s.params ∧ t.inputs = s.inputs ∧
    t.reply = s.reply

/-- A waiting CAPTURE is disturbed by nothing but an edge and reset, and survives every host access (10_state.md R41,
60_exceptions.md R204, R213). -/
def Obligations.OnlyEdgeOrResetEndsTheWait : Prop :=
  ∀ s t : State, step s = .next t → s.fatal = false → s.pend = some .capture →
    s.inputs.head? ≠ some .reset → s.inputs.head? ≠ some .dataReady →
    t.pend = some .capture ∧ t.err = s.err ∧ t.queues = s.queues ∧ t.delayed = s.delayed ∧ t.beam = s.beam ∧
    t.busLog = s.busLog

/-- Sampling rate 0, inited (41_delay_geometry.md R107, R106 (d), 90_conflicts.md C4): CALC_DELAYS has no check of the rate
and pushes nothing; SELECT_FIR_COEFF ends with INVALID_INPUT; so does WRITE_SAMPLE_RATE of rate 0 (43_array_reader.md R143).
That no row of FIR_TABLE has rate 0 is the model's reading (notes/assumptions/26). -/
def Obligations.RateZeroGivesNoDelayAndNoCoefficients : Prop :=
  ∀ s : State, s.params.Legal → s.inited = true → s.pend = none →
    (s.rate = 0 → F64.isFinite (F64.ofBinary32 s.arg0) = true → F64.isFinite (F64.ofBinary32 s.arg1) = true →
      geometryFinite s.params (F64.ofBinary32 s.arg0) (F64.ofBinary32 s.arg1) 0 = true →
      (∀ c, (s.queues.get c).count ≤ 32) → exec .calcDelays s = .next { s with err := .ok }) ∧
    (s.rate = 0 → exec .selectFirCoeff s = .next { s with err := .invalidInput }) ∧
    (s.arg0 = 0 → exec .writeSampleRate s = .next { s with err := .invalidInput })
end

