-- ==== Sys2Proof/Laws/State.lean ====
section
/-! SUPPORT. What each named update of State does to each field, so that no later proof unfolds a record update. -/

namespace Sys2Proof.Machine

variable (s : State)

/-! ### `endCommand` -/

@[simp] theorem endCommand_err (code : ErrCode) : (endCommand code s).err = code := rfl
@[simp] theorem endCommand_fatal (code : ErrCode) : (endCommand code s).fatal = (s.fatal || code.isFatal) := rfl
@[simp] theorem endCommand_pend (code : ErrCode) : (endCommand code s).pend = none := rfl
@[simp] theorem endCommand_evtPend (code : ErrCode) : (endCommand code s).evtPend = s.evtPend := rfl
@[simp] theorem endCommand_evtEn (code : ErrCode) : (endCommand code s).evtEn = s.evtEn := rfl
@[simp] theorem endCommand_inited (code : ErrCode) : (endCommand code s).inited = s.inited := rfl
@[simp] theorem endCommand_blockValid (code : ErrCode) : (endCommand code s).blockValid = s.blockValid := rfl
@[simp] theorem endCommand_coeffValid (code : ErrCode) : (endCommand code s).coeffValid = s.coeffValid := rfl
@[simp] theorem endCommand_arg0 (code : ErrCode) : (endCommand code s).arg0 = s.arg0 := rfl
@[simp] theorem endCommand_arg1 (code : ErrCode) : (endCommand code s).arg1 = s.arg1 := rfl
@[simp] theorem endCommand_result (code : ErrCode) : (endCommand code s).result = s.result := rfl
@[simp] theorem endCommand_gain (code : ErrCode) : (endCommand code s).gain = s.gain := rfl
@[simp] theorem endCommand_rate (code : ErrCode) : (endCommand code s).rate = s.rate := rfl
@[simp] theorem endCommand_queues (code : ErrCode) : (endCommand code s).queues = s.queues := rfl
@[simp] theorem endCommand_coeff (code : ErrCode) : (endCommand code s).coeff = s.coeff := rfl
@[simp] theorem endCommand_staging (code : ErrCode) : (endCommand code s).staging = s.staging := rfl
@[simp] theorem endCommand_raw (code : ErrCode) : (endCommand code s).raw = s.raw := rfl
@[simp] theorem endCommand_delayed (code : ErrCode) : (endCommand code s).delayed = s.delayed := rfl
@[simp] theorem endCommand_beam (code : ErrCode) : (endCommand code s).beam = s.beam := rfl
@[simp] theorem endCommand_params (code : ErrCode) : (endCommand code s).params = s.params := rfl
@[simp] theorem endCommand_inputs (code : ErrCode) : (endCommand code s).inputs = s.inputs := rfl
@[simp] theorem endCommand_fpga (code : ErrCode) : (endCommand code s).fpga = s.fpga := rfl
@[simp] theorem endCommand_busLog (code : ErrCode) : (endCommand code s).busLog = s.busLog := rfl
@[simp] theorem endCommand_reply (code : ErrCode) : (endCommand code s).reply = s.reply := rfl
@[simp] theorem endCommand_draw (code : ErrCode) : (endCommand code s).draw = s.draw := rfl

/-! ### `finish` -/

@[simp] theorem finish_err : (finish s).err = ErrCode.ok := rfl
@[simp] theorem finish_fatal : (finish s).fatal = s.fatal := by simp [finish, endCommand, ErrCode.isFatal]
@[simp] theorem finish_pend : (finish s).pend = none := rfl
@[simp] theorem finish_evtPend : (finish s).evtPend = s.evtPend := rfl
@[simp] theorem finish_evtEn : (finish s).evtEn = s.evtEn := rfl
@[simp] theorem finish_inited : (finish s).inited = s.inited := rfl
@[simp] theorem finish_blockValid : (finish s).blockValid = s.blockValid := rfl
@[simp] theorem finish_coeffValid : (finish s).coeffValid = s.coeffValid := rfl
@[simp] theorem finish_arg0 : (finish s).arg0 = s.arg0 := rfl
@[simp] theorem finish_arg1 : (finish s).arg1 = s.arg1 := rfl
@[simp] theorem finish_result : (finish s).result = s.result := rfl
@[simp] theorem finish_gain : (finish s).gain = s.gain := rfl
@[simp] theorem finish_rate : (finish s).rate = s.rate := rfl
@[simp] theorem finish_queues : (finish s).queues = s.queues := rfl
@[simp] theorem finish_coeff : (finish s).coeff = s.coeff := rfl
@[simp] theorem finish_staging : (finish s).staging = s.staging := rfl
@[simp] theorem finish_raw : (finish s).raw = s.raw := rfl
@[simp] theorem finish_delayed : (finish s).delayed = s.delayed := rfl
@[simp] theorem finish_beam : (finish s).beam = s.beam := rfl
@[simp] theorem finish_params : (finish s).params = s.params := rfl
@[simp] theorem finish_inputs : (finish s).inputs = s.inputs := rfl
@[simp] theorem finish_fpga : (finish s).fpga = s.fpga := rfl
@[simp] theorem finish_busLog : (finish s).busLog = s.busLog := rfl
@[simp] theorem finish_reply : (finish s).reply = s.reply := rfl
@[simp] theorem finish_draw : (finish s).draw = s.draw := rfl

/-! ### `raise` -/

@[simp] theorem raise_err (e : ErrCode) : (raise e s).err = e := rfl
@[simp] theorem raise_fatal (e : ErrCode) : (raise e s).fatal = (s.fatal || e.isFatal) := rfl
@[simp] theorem raise_pend (e : ErrCode) : (raise e s).pend = none := rfl
@[simp] theorem raise_evtPend (e : ErrCode) : (raise e s).evtPend = s.evtPend := rfl
@[simp] theorem raise_evtEn (e : ErrCode) : (raise e s).evtEn = s.evtEn := rfl
@[simp] theorem raise_inited (e : ErrCode) : (raise e s).inited = s.inited := rfl
@[simp] theorem raise_blockValid (e : ErrCode) : (raise e s).blockValid = s.blockValid := rfl
@[simp] theorem raise_coeffValid (e : ErrCode) : (raise e s).coeffValid = s.coeffValid := rfl
@[simp] theorem raise_arg0 (e : ErrCode) : (raise e s).arg0 = s.arg0 := rfl
@[simp] theorem raise_arg1 (e : ErrCode) : (raise e s).arg1 = s.arg1 := rfl
@[simp] theorem raise_result (e : ErrCode) : (raise e s).result = s.result := rfl
@[simp] theorem raise_gain (e : ErrCode) : (raise e s).gain = s.gain := rfl
@[simp] theorem raise_rate (e : ErrCode) : (raise e s).rate = s.rate := rfl
@[simp] theorem raise_queues (e : ErrCode) : (raise e s).queues = s.queues := rfl
@[simp] theorem raise_coeff (e : ErrCode) : (raise e s).coeff = s.coeff := rfl
@[simp] theorem raise_staging (e : ErrCode) : (raise e s).staging = s.staging := rfl
@[simp] theorem raise_raw (e : ErrCode) : (raise e s).raw = s.raw := rfl
@[simp] theorem raise_delayed (e : ErrCode) : (raise e s).delayed = s.delayed := rfl
@[simp] theorem raise_beam (e : ErrCode) : (raise e s).beam = s.beam := rfl
@[simp] theorem raise_params (e : ErrCode) : (raise e s).params = s.params := rfl
@[simp] theorem raise_inputs (e : ErrCode) : (raise e s).inputs = s.inputs := rfl
@[simp] theorem raise_fpga (e : ErrCode) : (raise e s).fpga = s.fpga := rfl
@[simp] theorem raise_busLog (e : ErrCode) : (raise e s).busLog = s.busLog := rfl
@[simp] theorem raise_reply (e : ErrCode) : (raise e s).reply = s.reply := rfl
@[simp] theorem raise_draw (e : ErrCode) : (raise e s).draw = s.draw := rfl

/-! ### `logTxn` -/

@[simp] theorem logTxn_err (x : BusTxn) : (s.logTxn x).err = s.err := rfl
@[simp] theorem logTxn_fatal (x : BusTxn) : (s.logTxn x).fatal = s.fatal := rfl
@[simp] theorem logTxn_pend (x : BusTxn) : (s.logTxn x).pend = s.pend := rfl
@[simp] theorem logTxn_evtPend (x : BusTxn) : (s.logTxn x).evtPend = s.evtPend := rfl
@[simp] theorem logTxn_evtEn (x : BusTxn) : (s.logTxn x).evtEn = s.evtEn := rfl
@[simp] theorem logTxn_inited (x : BusTxn) : (s.logTxn x).inited = s.inited := rfl
@[simp] theorem logTxn_blockValid (x : BusTxn) : (s.logTxn x).blockValid = s.blockValid := rfl
@[simp] theorem logTxn_coeffValid (x : BusTxn) : (s.logTxn x).coeffValid = s.coeffValid := rfl
@[simp] theorem logTxn_arg0 (x : BusTxn) : (s.logTxn x).arg0 = s.arg0 := rfl
@[simp] theorem logTxn_arg1 (x : BusTxn) : (s.logTxn x).arg1 = s.arg1 := rfl
@[simp] theorem logTxn_result (x : BusTxn) : (s.logTxn x).result = s.result := rfl
@[simp] theorem logTxn_gain (x : BusTxn) : (s.logTxn x).gain = s.gain := rfl
@[simp] theorem logTxn_rate (x : BusTxn) : (s.logTxn x).rate = s.rate := rfl
@[simp] theorem logTxn_queues (x : BusTxn) : (s.logTxn x).queues = s.queues := rfl
@[simp] theorem logTxn_coeff (x : BusTxn) : (s.logTxn x).coeff = s.coeff := rfl
@[simp] theorem logTxn_staging (x : BusTxn) : (s.logTxn x).staging = s.staging := rfl
@[simp] theorem logTxn_raw (x : BusTxn) : (s.logTxn x).raw = s.raw := rfl
@[simp] theorem logTxn_delayed (x : BusTxn) : (s.logTxn x).delayed = s.delayed := rfl
@[simp] theorem logTxn_beam (x : BusTxn) : (s.logTxn x).beam = s.beam := rfl
@[simp] theorem logTxn_params (x : BusTxn) : (s.logTxn x).params = s.params := rfl
@[simp] theorem logTxn_inputs (x : BusTxn) : (s.logTxn x).inputs = s.inputs := rfl
@[simp] theorem logTxn_fpga (x : BusTxn) : (s.logTxn x).fpga = s.fpga.tail := rfl
@[simp] theorem logTxn_busLog (x : BusTxn) : (s.logTxn x).busLog = s.busLog ++ [x] := rfl
@[simp] theorem logTxn_reply (x : BusTxn) : (s.logTxn x).reply = s.reply := rfl
@[simp] theorem logTxn_draw (x : BusTxn) : (s.logTxn x).draw = s.draw + 1 := rfl

/-! ### `constructed` -/

@[simp] theorem constructed_err : (constructed s).err = s.err := rfl
@[simp] theorem constructed_fatal : (constructed s).fatal = s.fatal := rfl
@[simp] theorem constructed_pend : (constructed s).pend = s.pend := rfl
@[simp] theorem constructed_evtPend : (constructed s).evtPend = s.evtPend := rfl
@[simp] theorem constructed_evtEn : (constructed s).evtEn = s.evtEn := rfl
@[simp] theorem constructed_inited : (constructed s).inited = true := rfl
@[simp] theorem constructed_blockValid : (constructed s).blockValid = false := rfl
@[simp] theorem constructed_coeffValid : (constructed s).coeffValid = s.coeffValid := rfl
@[simp] theorem constructed_arg0 : (constructed s).arg0 = s.arg0 := rfl
@[simp] theorem constructed_arg1 : (constructed s).arg1 = s.arg1 := rfl
@[simp] theorem constructed_result : (constructed s).result = s.result := rfl
@[simp] theorem constructed_gain : (constructed s).gain = s.gain := rfl
@[simp] theorem constructed_rate : (constructed s).rate = s.rate := rfl
@[simp] theorem constructed_queues : (constructed s).queues = s.queues.map DelayQueue.emptied := rfl
@[simp] theorem constructed_coeff : (constructed s).coeff = s.coeff := rfl
@[simp] theorem constructed_staging : (constructed s).staging = s.staging := rfl
@[simp] theorem constructed_raw : (constructed s).raw = s.raw := rfl
@[simp] theorem constructed_delayed : (constructed s).delayed = s.delayed := rfl
@[simp] theorem constructed_beam : (constructed s).beam = s.beam := rfl
@[simp] theorem constructed_params : (constructed s).params = s.params := rfl
@[simp] theorem constructed_inputs : (constructed s).inputs = s.inputs := rfl
@[simp] theorem constructed_fpga : (constructed s).fpga = s.fpga := rfl
@[simp] theorem constructed_busLog : (constructed s).busLog = s.busLog := rfl
@[simp] theorem constructed_reply : (constructed s).reply = s.reply := rfl
@[simp] theorem constructed_draw : (constructed s).draw = s.draw := rfl

/-! ### `armed` -/

@[simp] theorem armed_err : (armed s).err = s.err := rfl
@[simp] theorem armed_fatal : (armed s).fatal = s.fatal := rfl
@[simp] theorem armed_pend : (armed s).pend = s.pend := rfl
@[simp] theorem armed_evtPend : (armed s).evtPend = false := rfl
@[simp] theorem armed_evtEn : (armed s).evtEn = true := rfl
@[simp] theorem armed_inited : (armed s).inited = s.inited := rfl
@[simp] theorem armed_blockValid : (armed s).blockValid = s.blockValid := rfl
@[simp] theorem armed_coeffValid : (armed s).coeffValid = s.coeffValid := rfl
@[simp] theorem armed_arg0 : (armed s).arg0 = s.arg0 := rfl
@[simp] theorem armed_arg1 : (armed s).arg1 = s.arg1 := rfl
@[simp] theorem armed_result : (armed s).result = s.result := rfl
@[simp] theorem armed_gain : (armed s).gain = s.gain := rfl
@[simp] theorem armed_rate : (armed s).rate = s.rate := rfl
@[simp] theorem armed_queues : (armed s).queues = s.queues := rfl
@[simp] theorem armed_coeff : (armed s).coeff = s.coeff := rfl
@[simp] theorem armed_staging : (armed s).staging = s.staging := rfl
@[simp] theorem armed_raw : (armed s).raw = s.raw := rfl
@[simp] theorem armed_delayed : (armed s).delayed = s.delayed := rfl
@[simp] theorem armed_beam : (armed s).beam = s.beam := rfl
@[simp] theorem armed_params : (armed s).params = s.params := rfl
@[simp] theorem armed_inputs : (armed s).inputs = s.inputs := rfl
@[simp] theorem armed_fpga : (armed s).fpga = s.fpga := rfl
@[simp] theorem armed_busLog : (armed s).busLog = s.busLog := rfl
@[simp] theorem armed_reply : (armed s).reply = s.reply := rfl
@[simp] theorem armed_draw : (armed s).draw = s.draw := rfl

/-! ### `delayChannels` -/

@[simp] theorem delayChannels_err : (delayChannels s).err = s.err := rfl
@[simp] theorem delayChannels_fatal : (delayChannels s).fatal = s.fatal := rfl
@[simp] theorem delayChannels_pend : (delayChannels s).pend = s.pend := rfl
@[simp] theorem delayChannels_evtPend : (delayChannels s).evtPend = s.evtPend := rfl
@[simp] theorem delayChannels_evtEn : (delayChannels s).evtEn = s.evtEn := rfl
@[simp] theorem delayChannels_inited : (delayChannels s).inited = s.inited := rfl
@[simp] theorem delayChannels_blockValid : (delayChannels s).blockValid = s.blockValid := rfl
@[simp] theorem delayChannels_coeffValid : (delayChannels s).coeffValid = s.coeffValid := rfl
@[simp] theorem delayChannels_arg0 : (delayChannels s).arg0 = s.arg0 := rfl
@[simp] theorem delayChannels_arg1 : (delayChannels s).arg1 = s.arg1 := rfl
@[simp] theorem delayChannels_result : (delayChannels s).result = s.result := rfl
@[simp] theorem delayChannels_gain : (delayChannels s).gain = s.gain := rfl
@[simp] theorem delayChannels_rate : (delayChannels s).rate = s.rate := rfl
@[simp] theorem delayChannels_queues : (delayChannels s).queues = .ofFn fun c => ((s.queues.get c).delay (s.raw.get c)).2 := rfl
@[simp] theorem delayChannels_coeff : (delayChannels s).coeff = s.coeff := rfl
@[simp] theorem delayChannels_staging : (delayChannels s).staging = s.staging := rfl
@[simp] theorem delayChannels_raw : (delayChannels s).raw = s.raw := rfl
@[simp] theorem delayChannels_delayed : (delayChannels s).delayed = .ofFn fun c => ((s.queues.get c).delay (s.raw.get c)).1 := rfl
@[simp] theorem delayChannels_beam : (delayChannels s).beam = s.beam := rfl
@[simp] theorem delayChannels_params : (delayChannels s).params = s.params := rfl
@[simp] theorem delayChannels_inputs : (delayChannels s).inputs = s.inputs := rfl
@[simp] theorem delayChannels_fpga : (delayChannels s).fpga = s.fpga := rfl
@[simp] theorem delayChannels_busLog : (delayChannels s).busLog = s.busLog := rfl
@[simp] theorem delayChannels_reply : (delayChannels s).reply = s.reply := rfl
@[simp] theorem delayChannels_draw : (delayChannels s).draw = s.draw := rfl

/-! ### `beamform` -/

@[simp] theorem beamform_err : (beamform s).err = s.err := rfl
@[simp] theorem beamform_fatal : (beamform s).fatal = s.fatal := rfl
@[simp] theorem beamform_pend : (beamform s).pend = s.pend := rfl
@[simp] theorem beamform_evtPend : (beamform s).evtPend = s.evtPend := rfl
@[simp] theorem beamform_evtEn : (beamform s).evtEn = s.evtEn := rfl
@[simp] theorem beamform_inited : (beamform s).inited = s.inited := rfl
@[simp] theorem beamform_blockValid : (beamform s).blockValid = s.blockValid := rfl
@[simp] theorem beamform_coeffValid : (beamform s).coeffValid = s.coeffValid := rfl
@[simp] theorem beamform_arg0 : (beamform s).arg0 = s.arg0 := rfl
@[simp] theorem beamform_arg1 : (beamform s).arg1 = s.arg1 := rfl
@[simp] theorem beamform_result : (beamform s).result = s.result := rfl
@[simp] theorem beamform_gain : (beamform s).gain = s.gain := rfl
@[simp] theorem beamform_rate : (beamform s).rate = s.rate := rfl
@[simp] theorem beamform_queues : (beamform s).queues = s.queues := rfl
@[simp] theorem beamform_coeff : (beamform s).coeff = s.coeff := rfl
@[simp] theorem beamform_staging : (beamform s).staging = s.staging := rfl
@[simp] theorem beamform_raw : (beamform s).raw = s.raw := rfl
@[simp] theorem beamform_delayed : (beamform s).delayed = s.delayed := rfl
@[simp] theorem beamform_beam : (beamform s).beam = (List.range s.params.numSamples).map fun i => clamp16 (beamAcc s.delayed i) := rfl
@[simp] theorem beamform_params : (beamform s).params = s.params := rfl
@[simp] theorem beamform_inputs : (beamform s).inputs = s.inputs := rfl
@[simp] theorem beamform_fpga : (beamform s).fpga = s.fpga := rfl
@[simp] theorem beamform_busLog : (beamform s).busLog = s.busLog := rfl
@[simp] theorem beamform_reply : (beamform s).reply = s.reply := rfl
@[simp] theorem beamform_draw : (beamform s).draw = s.draw := rfl

/-! ### `takeInput` -/

@[simp] theorem takeInput_err (rest : List Input) : (takeInput rest s).err = s.err := rfl
@[simp] theorem takeInput_fatal (rest : List Input) : (takeInput rest s).fatal = s.fatal := rfl
@[simp] theorem takeInput_pend (rest : List Input) : (takeInput rest s).pend = s.pend := rfl
@[simp] theorem takeInput_evtPend (rest : List Input) : (takeInput rest s).evtPend = s.evtPend := rfl
@[simp] theorem takeInput_evtEn (rest : List Input) : (takeInput rest s).evtEn = s.evtEn := rfl
@[simp] theorem takeInput_inited (rest : List Input) : (takeInput rest s).inited = s.inited := rfl
@[simp] theorem takeInput_blockValid (rest : List Input) : (takeInput rest s).blockValid = s.blockValid := rfl
@[simp] theorem takeInput_coeffValid (rest : List Input) : (takeInput rest s).coeffValid = s.coeffValid := rfl
@[simp] theorem takeInput_arg0 (rest : List Input) : (takeInput rest s).arg0 = s.arg0 := rfl
@[simp] theorem takeInput_arg1 (rest : List Input) : (takeInput rest s).arg1 = s.arg1 := rfl
@[simp] theorem takeInput_result (rest : List Input) : (takeInput rest s).result = s.result := rfl
@[simp] theorem takeInput_gain (rest : List Input) : (takeInput rest s).gain = s.gain := rfl
@[simp] theorem takeInput_rate (rest : List Input) : (takeInput rest s).rate = s.rate := rfl
@[simp] theorem takeInput_queues (rest : List Input) : (takeInput rest s).queues = s.queues := rfl
@[simp] theorem takeInput_coeff (rest : List Input) : (takeInput rest s).coeff = s.coeff := rfl
@[simp] theorem takeInput_staging (rest : List Input) : (takeInput rest s).staging = s.staging := rfl
@[simp] theorem takeInput_raw (rest : List Input) : (takeInput rest s).raw = s.raw := rfl
@[simp] theorem takeInput_delayed (rest : List Input) : (takeInput rest s).delayed = s.delayed := rfl
@[simp] theorem takeInput_beam (rest : List Input) : (takeInput rest s).beam = s.beam := rfl
@[simp] theorem takeInput_params (rest : List Input) : (takeInput rest s).params = s.params := rfl
@[simp] theorem takeInput_inputs (rest : List Input) : (takeInput rest s).inputs = rest := rfl
@[simp] theorem takeInput_fpga (rest : List Input) : (takeInput rest s).fpga = s.fpga := rfl
@[simp] theorem takeInput_busLog (rest : List Input) : (takeInput rest s).busLog = s.busLog := rfl
@[simp] theorem takeInput_reply (rest : List Input) : (takeInput rest s).reply = .none := rfl
@[simp] theorem takeInput_draw (rest : List Input) : (takeInput rest s).draw = s.draw := rfl

/-! ### `hostRead` -/

@[simp] theorem hostRead_err (o : BitVec 16) (b : Nat) : (hostRead o b s).err = s.err := rfl
@[simp] theorem hostRead_fatal (o : BitVec 16) (b : Nat) : (hostRead o b s).fatal = s.fatal := rfl
@[simp] theorem hostRead_pend (o : BitVec 16) (b : Nat) : (hostRead o b s).pend = s.pend := rfl
@[simp] theorem hostRead_evtPend (o : BitVec 16) (b : Nat) : (hostRead o b s).evtPend = s.evtPend := rfl
@[simp] theorem hostRead_evtEn (o : BitVec 16) (b : Nat) : (hostRead o b s).evtEn = s.evtEn := rfl
@[simp] theorem hostRead_inited (o : BitVec 16) (b : Nat) : (hostRead o b s).inited = s.inited := rfl
@[simp] theorem hostRead_blockValid (o : BitVec 16) (b : Nat) : (hostRead o b s).blockValid = s.blockValid := rfl
@[simp] theorem hostRead_coeffValid (o : BitVec 16) (b : Nat) : (hostRead o b s).coeffValid = s.coeffValid := rfl
@[simp] theorem hostRead_arg0 (o : BitVec 16) (b : Nat) : (hostRead o b s).arg0 = s.arg0 := rfl
@[simp] theorem hostRead_arg1 (o : BitVec 16) (b : Nat) : (hostRead o b s).arg1 = s.arg1 := rfl
@[simp] theorem hostRead_result (o : BitVec 16) (b : Nat) : (hostRead o b s).result = s.result := rfl
@[simp] theorem hostRead_gain (o : BitVec 16) (b : Nat) : (hostRead o b s).gain = s.gain := rfl
@[simp] theorem hostRead_rate (o : BitVec 16) (b : Nat) : (hostRead o b s).rate = s.rate := rfl
@[simp] theorem hostRead_queues (o : BitVec 16) (b : Nat) : (hostRead o b s).queues = s.queues := rfl
@[simp] theorem hostRead_coeff (o : BitVec 16) (b : Nat) : (hostRead o b s).coeff = s.coeff := rfl
@[simp] theorem hostRead_staging (o : BitVec 16) (b : Nat) : (hostRead o b s).staging = s.staging := rfl
@[simp] theorem hostRead_raw (o : BitVec 16) (b : Nat) : (hostRead o b s).raw = s.raw := rfl
@[simp] theorem hostRead_delayed (o : BitVec 16) (b : Nat) : (hostRead o b s).delayed = s.delayed := rfl
@[simp] theorem hostRead_beam (o : BitVec 16) (b : Nat) : (hostRead o b s).beam = s.beam := rfl
@[simp] theorem hostRead_params (o : BitVec 16) (b : Nat) : (hostRead o b s).params = s.params := rfl
@[simp] theorem hostRead_inputs (o : BitVec 16) (b : Nat) : (hostRead o b s).inputs = s.inputs := rfl
@[simp] theorem hostRead_fpga (o : BitVec 16) (b : Nat) : (hostRead o b s).fpga = s.fpga := rfl
@[simp] theorem hostRead_busLog (o : BitVec 16) (b : Nat) : (hostRead o b s).busLog = s.busLog := rfl
@[simp] theorem hostRead_reply (o : BitVec 16) (b : Nat) : (hostRead o b s).reply = readReply s o b := rfl
@[simp] theorem hostRead_draw (o : BitVec 16) (b : Nat) : (hostRead o b s).draw = s.draw := rfl

/-! ### `idle` -/

@[simp] theorem idle_err : (idle s).err = s.err := rfl
@[simp] theorem idle_fatal : (idle s).fatal = s.fatal := rfl
@[simp] theorem idle_pend : (idle s).pend = s.pend := rfl
@[simp] theorem idle_evtPend : (idle s).evtPend = s.evtPend := rfl
@[simp] theorem idle_evtEn : (idle s).evtEn = s.evtEn := rfl
@[simp] theorem idle_inited : (idle s).inited = s.inited := rfl
@[simp] theorem idle_blockValid : (idle s).blockValid = s.blockValid := rfl
@[simp] theorem idle_coeffValid : (idle s).coeffValid = s.coeffValid := rfl
@[simp] theorem idle_arg0 : (idle s).arg0 = s.arg0 := rfl
@[simp] theorem idle_arg1 : (idle s).arg1 = s.arg1 := rfl
@[simp] theorem idle_result : (idle s).result = s.result := rfl
@[simp] theorem idle_gain : (idle s).gain = s.gain := rfl
@[simp] theorem idle_rate : (idle s).rate = s.rate := rfl
@[simp] theorem idle_queues : (idle s).queues = s.queues := rfl
@[simp] theorem idle_coeff : (idle s).coeff = s.coeff := rfl
@[simp] theorem idle_staging : (idle s).staging = s.staging := rfl
@[simp] theorem idle_raw : (idle s).raw = s.raw := rfl
@[simp] theorem idle_delayed : (idle s).delayed = s.delayed := rfl
@[simp] theorem idle_beam : (idle s).beam = s.beam := rfl
@[simp] theorem idle_params : (idle s).params = s.params := rfl
@[simp] theorem idle_inputs : (idle s).inputs = s.inputs := rfl
@[simp] theorem idle_fpga : (idle s).fpga = s.fpga := rfl
@[simp] theorem idle_busLog : (idle s).busLog = s.busLog := rfl
@[simp] theorem idle_reply : (idle s).reply = .none := rfl
@[simp] theorem idle_draw : (idle s).draw = s.draw := rfl

/-! ### `resetEvent` -/

@[simp] theorem resetEvent_err : (resetEvent s).err = .ok := rfl
@[simp] theorem resetEvent_fatal : (resetEvent s).fatal = false := rfl
@[simp] theorem resetEvent_pend : (resetEvent s).pend = none := rfl
@[simp] theorem resetEvent_evtPend : (resetEvent s).evtPend = false := rfl
@[simp] theorem resetEvent_evtEn : (resetEvent s).evtEn = false := rfl
@[simp] theorem resetEvent_inited : (resetEvent s).inited = false := rfl
@[simp] theorem resetEvent_blockValid : (resetEvent s).blockValid = false := rfl
@[simp] theorem resetEvent_coeffValid : (resetEvent s).coeffValid = false := rfl
@[simp] theorem resetEvent_arg0 : (resetEvent s).arg0 = 0 := rfl
@[simp] theorem resetEvent_arg1 : (resetEvent s).arg1 = 0 := rfl
@[simp] theorem resetEvent_result : (resetEvent s).result = 0 := rfl
@[simp] theorem resetEvent_gain : (resetEvent s).gain = s.params.defaultGain := rfl
@[simp] theorem resetEvent_rate : (resetEvent s).rate = s.params.defaultRate := rfl
@[simp] theorem resetEvent_queues : (resetEvent s).queues = .ofFn (DelayQueue.unspecified s.draw) := rfl
@[simp] theorem resetEvent_params : (resetEvent s).params = s.params := rfl
@[simp] theorem resetEvent_inputs : (resetEvent s).inputs = s.inputs := rfl
@[simp] theorem resetEvent_fpga : (resetEvent s).fpga = s.fpga := rfl
@[simp] theorem resetEvent_busLog : (resetEvent s).busLog = s.busLog := rfl
@[simp] theorem resetEvent_reply : (resetEvent s).reply = .none := rfl
@[simp] theorem resetEvent_draw : (resetEvent s).draw = s.draw + 1 := rfl

end Sys2Proof.Machine
end

