-- ==== Sys2Proof/Laws/Float.lean ====
section
/-! SUPPORT. Binary64 as numbers: the fields of a packed pattern, what one rounding does, and that it is the nearest
representable magnitude, ties to even (41_delay_geometry.md R101). -/

namespace Sys2Proof.Machine.F64

/-! ### Fields of a packed pattern -/

theorem toNat_pack {neg : Bool} {low : Nat} (h : low < 2 ^ 63) :
    (pack neg low).toNat = (if neg then 2 ^ 63 else 0) + low := by
  simp only [pack, BitVec.toNat_ofNat]
  split <;> omega

theorem sign_eq (x : F64) : sign x = decide (2 ^ 63 ≤ x.toNat) := by
  simp [sign, BitVec.msb_eq_decide]

theorem expField_eq (x : F64) : expField x = x.toNat / 2 ^ 52 % 2 ^ 11 := by
  simp [expField, Nat.shiftRight_eq_div_pow]

theorem frac_eq (x : F64) : frac x = x.toNat % 2 ^ 52 := by simp [frac]

@[simp] theorem sign_pack (neg : Bool) {low : Nat} (h : low < 2 ^ 63) : sign (pack neg low) = neg := by
  rw [sign_eq, toNat_pack h]
  cases neg
  · simp; omega
  · simp

@[simp] theorem expField_pack (neg : Bool) {low : Nat} (h : low < 2 ^ 63) :
    expField (pack neg low) = low / 2 ^ 52 := by
  rw [expField_eq, toNat_pack h]
  cases neg
  · simp; omega
  · simp; omega

@[simp] theorem frac_pack (neg : Bool) {low : Nat} (h : low < 2 ^ 63) : frac (pack neg low) = low % 2 ^ 52 := by
  rw [frac_eq, toNat_pack h]
  cases neg
  · simp
  · simp; omega

/-- Negation changes the sign and nothing else. -/
@[simp] theorem sign_neg (x : F64) : sign (neg x) = !sign x := sign_pack _ (Nat.mod_lt _ (by decide))

@[simp] theorem expField_neg (x : F64) : expField (neg x) = expField x := by
  rw [neg, expField_pack _ (Nat.mod_lt _ (by decide)), expField_eq]
  omega

@[simp] theorem frac_neg (x : F64) : frac (neg x) = frac x := by
  rw [neg, frac_pack _ (Nat.mod_lt _ (by decide)), frac_eq]
  omega

@[simp] theorem mag_neg (x : F64) : mag (neg x) = mag x := by simp [mag, sig]

@[simp] theorem isFinite_neg (x : F64) : isFinite (neg x) = isFinite x := by simp [isFinite]

theorem sig_lt (x : F64) : sig x < 2 ^ 53 := by
  have := Nat.mod_lt x.toNat (show 0 < 2 ^ 52 by decide)
  unfold sig
  rw [frac_eq]
  split <;> omega

theorem expField_lt (x : F64) : expField x < 2 ^ 11 := by
  rw [expField_eq]
  exact Nat.mod_lt _ (by decide)

/-- The magnitude of the bits 62:0 `t * 2^52 + m`, where `m` is a significand of 53 bits, or of 54 where the rounding
carried, or of fewer where `t = 0`. -/
theorem mag_pack (neg : Bool) {t m : Nat} (hm : m ≤ 2 ^ 53) (ht : t = 0 ∨ 2 ^ 52 ≤ m)
    (hlow : t * 2 ^ 52 + m < infBits) :
    mag (pack neg (t * 2 ^ 52 + m)) = m * 2 ^ t ∧ (sig (pack neg (t * 2 ^ 52 + m)) % 2 = m % 2 ∨
      sig (pack neg (t * 2 ^ 52 + m)) % 2 = 0) := by
  have hl : t * 2 ^ 52 + m < 2 ^ 63 := by unfold infBits at hlow; omega
  simp only [mag, sig, expField_pack neg hl, frac_pack neg hl]
  rcases Nat.lt_or_ge m (2 ^ 52) with h1 | h1
  · obtain rfl : t = 0 := by omega
    have e : (0 * 2 ^ 52 + m) / 2 ^ 52 = 0 := by omega
    have f : (0 * 2 ^ 52 + m) % 2 ^ 52 = m := by omega
    rw [e, f]
    simp
  · rcases Nat.lt_or_ge m (2 ^ 53) with h2 | h2
    · have e : (t * 2 ^ 52 + m) / 2 ^ 52 = t + 1 := by omega
      have f : (t * 2 ^ 52 + m) % 2 ^ 52 = m - 2 ^ 52 := by omega
      rw [e, f]
      simp only [Nat.add_eq_zero_iff, one_ne_zero, and_false, if_false, Nat.add_sub_cancel]
      refine ⟨?_, .inl ?_⟩
      · rw [Nat.add_sub_cancel' h1]
      · omega
    · obtain rfl : m = 2 ^ 53 := by omega
      have e : (t * 2 ^ 52 + 2 ^ 53) / 2 ^ 52 = t + 2 := by omega
      have f : (t * 2 ^ 52 + 2 ^ 53) % 2 ^ 52 = 0 := by omega
      rw [e, f]
      simp only [Nat.add_eq_zero_iff, OfNat.ofNat_ne_zero, and_false, if_false]
      refine ⟨?_, .inr (by decide)⟩
      rw [show t + 2 - 1 = t + 1 by omega, pow_succ]
      omega

/-! ### Rounding to a whole number -/

/-- `roundEven` is the nearest whole number, and even at a tie. -/
theorem roundEven_spec (num den : Nat) (hd : 0 < den) :
    (2 * (roundEven num den * den) ≤ 2 * num + den ∧ 2 * num ≤ 2 * (roundEven num den * den) + den) ∧
    ((2 * (roundEven num den * den) = 2 * num + den ∨ 2 * num = 2 * (roundEven num den * den) + den) →
      roundEven num den % 2 = 0) := by
  have h := Nat.div_add_mod num den
  have hr := Nat.mod_lt num hd
  rw [Nat.mul_comm] at h
  unfold roundEven
  dsimp only
  split
  · next hc =>
    simp only [Bool.or_eq_true, decide_eq_true_eq, Bool.and_eq_true, beq_iff_eq] at hc
    rw [Nat.add_mul]
    generalize num / den = q at *
    generalize num % den = r at *
    generalize q * den = qd at *
    omega
  · next hc =>
    simp only [Bool.or_eq_true, decide_eq_true_eq, Bool.and_eq_true, beq_iff_eq, not_or, not_and] at hc
    generalize num / den = q at *
    generalize num % den = r at *
    generalize q * den = qd at *
    omega

/-- A larger ratio does not round to a smaller whole number. -/
theorem roundEven_mono {a b c d : Nat} (hb : 0 < b) (hd : 0 < d) (h : a * d ≤ c * b) :
    roundEven a b ≤ roundEven c d := by
  obtain ⟨⟨h1, -⟩, h3⟩ := roundEven_spec a b hb
  obtain ⟨⟨-, h5⟩, h6⟩ := roundEven_spec c d hd
  generalize roundEven a b = m at *
  generalize roundEven c d = n at *
  by_contra hlt
  have hmn : n + 1 ≤ m := by omega
  -- both ratios lie at the midpoint n + 1/2, where both roundings are even
  have e1 : 2 * (m * b) * d ≤ (2 * a + b) * d := Nat.mul_le_mul_right _ h1
  have e2 : 2 * c * b ≤ (2 * (n * d) + d) * b := Nat.mul_le_mul_right _ h5
  have e3 : (n + 1) * (b * d) ≤ m * (b * d) := Nat.mul_le_mul_right _ hmn
  have hbd : 0 < b * d := Nat.mul_pos hb hd
  have k1 : 2 * (m * (b * d)) ≤ 2 * (a * d) + b * d := by nlinarith
  have k2 : 2 * (c * b) ≤ 2 * (n * (b * d)) + b * d := by nlinarith
  have k3 : n * (b * d) + b * d ≤ m * (b * d) := by nlinarith
  have t1 : 2 * (m * (b * d)) = 2 * (a * d) + b * d := by omega
  have t2 : 2 * (c * b) = 2 * (n * (b * d)) + b * d := by omega
  have t3 : m * (b * d) = n * (b * d) + b * d := by omega
  have u1 : 2 * (m * b) = 2 * a + b := by
    apply Nat.eq_of_mul_eq_mul_right hd; nlinarith
  have u2 : 2 * c = 2 * (n * d) + d := by
    apply Nat.eq_of_mul_eq_mul_right hb; nlinarith
  have u3 : m = n + 1 := by
    apply Nat.eq_of_mul_eq_mul_right hbd; nlinarith
  have := h3 (.inl u1)
  have := h6 (.inr u2)
  omega

/-! ### Rounding to 53 bits -/

/-- The ratio in units of its last kept bit is below `2^53`, and not below `2^52` unless that bit is the lowest. -/
theorem ulpExp_spec (num den : Nat) (hd : 0 < den) :
    num < 2 ^ 53 * (den * 2 ^ ulpExp num den) ∧
    (ulpExp num den = 0 ∨ 2 ^ 52 * (den * 2 ^ ulpExp num den) ≤ num) := by
  unfold ulpExp
  have hq : num < (num / den + 1) * den := by
    have := Nat.div_add_mod num den
    have := Nat.mod_lt num hd
    nlinarith
  have hlog := @Nat.lt_log2_self (num / den)
  refine ⟨?_, ?_⟩
  · have hle : num / den + 1 ≤ 2 ^ 53 * 2 ^ ((num / den).log2 - 52) := by
      rw [← pow_add]
      exact le_trans hlog (Nat.pow_le_pow_right (by decide) (by omega))
    calc num < (num / den + 1) * den := hq
      _ ≤ (2 ^ 53 * 2 ^ ((num / den).log2 - 52)) * den := Nat.mul_le_mul_right _ hle
      _ = _ := by ring
  · rcases Nat.lt_or_ge (num / den).log2 53 with h | h
    · exact .inl (by omega)
    · right
      have hne : num / den ≠ 0 := by intro h0; rw [h0] at h; simp at h
      have hpow : 2 ^ (num / den).log2 ≤ num / den := Nat.log2_self_le hne
      have e : 2 ^ 52 * 2 ^ ((num / den).log2 - 52) = 2 ^ (num / den).log2 := by
        rw [← pow_add]; congr 1; omega
      calc 2 ^ 52 * (den * 2 ^ ((num / den).log2 - 52))
          = (2 ^ 52 * 2 ^ ((num / den).log2 - 52)) * den := by ring
        _ ≤ num / den * den := by rw [e]; exact Nat.mul_le_mul_right _ hpow
        _ ≤ num := Nat.div_mul_le_self _ _

/-- The rounded significand: at most `2^53`, and at least `2^52` unless the last kept bit is the lowest. -/
theorem significand_bounds (num den : Nat) (hd : 0 < den) :
    roundEven num (den * 2 ^ ulpExp num den) ≤ 2 ^ 53 ∧
    (ulpExp num den = 0 ∨ 2 ^ 52 ≤ roundEven num (den * 2 ^ ulpExp num den)) := by
  obtain ⟨h1, h2⟩ := ulpExp_spec num den hd
  have hp : 0 < den * 2 ^ ulpExp num den := Nat.mul_pos hd (by positivity)
  obtain ⟨⟨h3, h4⟩, -⟩ := roundEven_spec num _ hp
  generalize roundEven num (den * 2 ^ ulpExp num den) = m at *
  generalize den * 2 ^ ulpExp num den = u at *
  constructor
  · by_contra hc
    have : (2 ^ 53 + 1) * u ≤ m * u := Nat.mul_le_mul_right _ (by omega)
    omega
  · rcases h2 with h2 | h2
    · exact .inl h2
    · right
      by_contra hc
      have : (m + 1) * u ≤ 2 ^ 52 * u := Nat.mul_le_mul_right _ (by omega)
      rw [Nat.add_mul] at this
      omega

theorem roundBits_le (num den : Nat) : roundBits num den ≤ infBits := by
  unfold roundBits
  dsimp only
  split <;> omega

theorem roundBits_lt (num den : Nat) : roundBits num den < 2 ^ 63 :=
  lt_of_le_of_lt (roundBits_le num den) (by decide)

@[simp] theorem sign_round (neg : Bool) (num den : Nat) : sign (round neg num den) = neg :=
  sign_pack neg (roundBits_lt num den)

/-- A rounding that gives a finite binary64 did not overflow, and its magnitude is the rounded significand in place. -/
theorem round_finite {neg : Bool} {num den : Nat} (hd : 0 < den) (h : isFinite (round neg num den) = true) :
    ulpExp num den * 2 ^ 52 + roundEven num (den * 2 ^ ulpExp num den) < infBits ∧
    mag (round neg num den) = roundEven num (den * 2 ^ ulpExp num den) * 2 ^ ulpExp num den ∧
    (sig (round neg num den) % 2 = roundEven num (den * 2 ^ ulpExp num den) % 2 ∨
      sig (round neg num den) % 2 = 0) := by
  have hlt : ulpExp num den * 2 ^ 52 + roundEven num (den * 2 ^ ulpExp num den) < infBits := by
    by_contra hc
    have e : round neg num den = pack neg infBits := by
      unfold round roundBits
      dsimp only
      rw [if_neg hc]
    rw [e] at h
    simp only [isFinite, expField_pack neg (show infBits < 2 ^ 63 by decide)] at h
    revert h
    decide
  have e : round neg num den = pack neg (ulpExp num den * 2 ^ 52 + roundEven num (den * 2 ^ ulpExp num den)) := by
    unfold round roundBits
    dsimp only
    rw [if_pos hlt]
  obtain ⟨h1, h2⟩ := significand_bounds num den hd
  rw [e]
  exact ⟨hlt, mag_pack neg h1 h2 hlt⟩

/-- A rounding that does not overflow is finite. -/
theorem isFinite_round {neg : Bool} {num den : Nat}
    (h : ulpExp num den * 2 ^ 52 + roundEven num (den * 2 ^ ulpExp num den) < infBits) :
    isFinite (round neg num den) = true := by
  have hb : roundBits num den < infBits := by
    unfold roundBits
    dsimp only
    rw [if_pos h]
    exact h
  simp only [isFinite, round, expField_pack neg (roundBits_lt num den), bne_iff_ne, ne_eq]
  unfold infBits at hb
  omega

/-- A larger ratio does not round to a smaller pattern. -/
theorem roundBits_mono {a b c d : Nat} (hb : 0 < b) (hd : 0 < d) (h : a * d ≤ c * b) :
    roundBits a b ≤ roundBits c d := by
  have hdiv : a / b ≤ c / d := by
    rw [Nat.le_div_iff_mul_le hd]
    apply Nat.le_of_mul_le_mul_right _ hb
    have := Nat.div_mul_le_self a b
    nlinarith
  have ht : ulpExp a b ≤ ulpExp c d := by
    unfold ulpExp
    rcases Nat.eq_zero_or_pos (a / b) with h0 | h0
    · rw [h0]; simp
    · have := (Nat.le_log2 (by omega : c / d ≠ 0)).2 (le_trans (Nat.log2_self_le (by omega : a / b ≠ 0)) hdiv)
      omega
  have key : ulpExp a b * 2 ^ 52 + roundEven a (b * 2 ^ ulpExp a b)
      ≤ ulpExp c d * 2 ^ 52 + roundEven c (d * 2 ^ ulpExp c d) := by
    rcases Nat.lt_or_ge (ulpExp a b) (ulpExp c d) with hlt | hge
    · obtain ⟨h1, -⟩ := significand_bounds a b hb
      obtain ⟨-, h2⟩ := significand_bounds c d hd
      have : 2 ^ 52 ≤ roundEven c (d * 2 ^ ulpExp c d) := by
        rcases h2 with h2 | h2
        · omega
        · exact h2
      omega
    · have he : ulpExp a b = ulpExp c d := le_antisymm ht hge
      rw [he]
      apply Nat.add_le_add_left
      apply roundEven_mono (by positivity) (by positivity)
      calc a * (d * 2 ^ ulpExp c d) = a * d * 2 ^ ulpExp c d := by ring
        _ ≤ c * b * 2 ^ ulpExp c d := Nat.mul_le_mul_right _ h
        _ = c * (b * 2 ^ ulpExp c d) := by ring
  unfold roundBits
  dsimp only
  split <;> split <;> omega

/-! ### Every binary64 on the grid of another -/

/-- The magnitude of any binary64 is either a whole number of units `2^t` or below `2^(52+t)`. -/
theorem mag_grid (y : F64) (t : Nat) : 2 ^ t ∣ mag y ∨ mag y < 2 ^ 52 * 2 ^ t := by
  unfold mag
  rcases Nat.lt_or_ge (expField y - 1) t with h | h
  · right
    obtain ⟨j, rfl⟩ : ∃ j, t = expField y - 1 + 1 + j := ⟨t - (expField y - 1) - 1, by omega⟩
    have h1 := sig_lt y
    calc sig y * 2 ^ (expField y - 1) < 2 ^ 53 * 2 ^ (expField y - 1) :=
          Nat.mul_lt_mul_of_pos_right h1 (by positivity)
      _ = 2 ^ 52 * 2 ^ (expField y - 1 + 1) := by ring
      _ ≤ 2 ^ 52 * 2 ^ (expField y - 1 + 1 + j) :=
          Nat.mul_le_mul_left _ (Nat.pow_le_pow_right (by decide) (by omega))
  · left
    exact Dvd.dvd.mul_left (pow_dvd_pow 2 h) _

/-! ### Nearest -/

/-- The rounded magnitude is nearest among all representable ones, and its significand is even at a tie. -/
theorem round_nearest {neg : Bool} {num den : Nat} (hd : 0 < den) (h : isFinite (round neg num den) = true) (y : F64) :
    |(num : ℝ) / den - mag (round neg num den)| ≤ |(num : ℝ) / den - mag y| ∧
    (|(num : ℝ) / den - mag (round neg num den)| = |(num : ℝ) / den - mag y| →
      mag y = mag (round neg num den) ∨ sig (round neg num den) % 2 = 0) := by
  obtain ⟨-, hmag, hsig⟩ := round_finite hd h
  obtain ⟨-, hlow⟩ := ulpExp_spec num den hd
  have hgrid := mag_grid y (ulpExp num den)
  have hp : 0 < den * 2 ^ ulpExp num den := Nat.mul_pos hd (by positivity)
  obtain ⟨⟨h1, h2⟩, h3⟩ := roundEven_spec num _ hp
  generalize round neg num den = r at *
  generalize roundEven num (den * 2 ^ ulpExp num den) = m at *
  generalize ulpExp num den = t at *
  rw [hmag]
  have hdR : (0 : ℝ) < den := by exact_mod_cast hd
  have hu : (0 : ℝ) < 2 ^ t := by positivity
  -- everything in units of the last kept bit
  obtain ⟨w, hw⟩ : ∃ w : ℝ, w = (num : ℝ) / (den * 2 ^ t) := ⟨_, rfl⟩
  have hv : (num : ℝ) / den = w * 2 ^ t := by rw [hw]; field_simp
  have hpR : (0 : ℝ) < (den : ℝ) * 2 ^ t := by positivity
  have hnum : (num : ℝ) = w * (den * 2 ^ t) := by rw [hw]; field_simp
  have a1 : 2 * (m : ℝ) ≤ 2 * w + 1 := by
    have : (2 : ℝ) * (m * (den * 2 ^ t)) ≤ 2 * num + den * 2 ^ t := by exact_mod_cast h1
    rw [hnum] at this
    nlinarith
  have a2 : 2 * w ≤ 2 * (m : ℝ) + 1 := by
    have : (2 : ℝ) * num ≤ 2 * (m * (den * 2 ^ t)) + den * 2 ^ t := by exact_mod_cast h2
    rw [hnum] at this
    nlinarith
  have a3 : 2 * (m : ℝ) = 2 * w + 1 ∨ 2 * w = 2 * (m : ℝ) + 1 → m % 2 = 0 := by
    intro hor
    apply h3
    rcases hor with e | e
    · left
      have : (2 : ℝ) * (m * (den * 2 ^ t)) = 2 * num + den * 2 ^ t := by rw [hnum]; nlinarith
      exact_mod_cast this
    · right
      have : (2 : ℝ) * num = 2 * (m * (den * 2 ^ t)) + den * 2 ^ t := by rw [hnum]; nlinarith
      exact_mod_cast this
  have hm1 : |w - m| ≤ 1 / 2 := abs_le.2 ⟨by linarith, by linarith⟩
  have scale : ∀ z : ℝ, |w * 2 ^ t - z * 2 ^ t| = |w - z| * 2 ^ t := by
    intro z; rw [← sub_mul, abs_mul, abs_of_pos hu]
  rw [hv]
  push_cast
  rw [scale]
  -- a neighbour of the grid, at a whole number z of units
  have onGrid : ∀ z : ℕ, |w - m| ≤ |w - z| ∧ (|w - m| = |w - z| → z = m ∨ m % 2 = 0) := by
    intro z
    rcases lt_trichotomy z m with hz | hz | hz
    · have hz' : (z : ℝ) + 1 ≤ m := by exact_mod_cast hz
      have hpos : 0 ≤ w - z := by linarith
      rw [abs_of_nonneg hpos]
      refine ⟨abs_le.2 ⟨by linarith, by linarith⟩, fun he => .inr (a3 (.inl ?_))⟩
      rcases abs_cases (w - (m : ℝ)) with ⟨e, _⟩ | ⟨e, _⟩ <;> linarith
    · subst hz
      exact ⟨le_refl _, fun _ => .inl rfl⟩
    · have hz' : (m : ℝ) + 1 ≤ z := by exact_mod_cast hz
      have hneg : w - z ≤ 0 := by linarith
      rw [abs_of_nonpos hneg]
      refine ⟨abs_le.2 ⟨by linarith, by linarith⟩, fun he => .inr (a3 (.inr ?_))⟩
      rcases abs_cases (w - (m : ℝ)) with ⟨e, _⟩ | ⟨e, _⟩ <;> linarith
  have sigEven : m % 2 = 0 → sig r % 2 = 0 := by
    intro he
    rcases hsig with e | e
    · rw [e, he]
    · exact e
  by_cases hdvd : 2 ^ t ∣ mag y
  · obtain ⟨z, hz⟩ := hdvd
    have hzR : (mag y : ℝ) = z * 2 ^ t := by rw [hz]; push_cast; ring
    rw [hzR, scale]
    obtain ⟨g1, g2⟩ := onGrid z
    refine ⟨mul_le_mul_of_nonneg_right g1 hu.le, fun he => ?_⟩
    rcases g2 (mul_right_cancel₀ hu.ne' he) with e | e
    · left; rw [hz, e, Nat.mul_comm]
    · exact .inr (sigEven e)
  · -- off the grid: below the whole binade, so farther than its lower end
    have hlow' : 2 ^ 52 * (den * 2 ^ t) ≤ num := hlow.resolve_left (by rintro rfl; simp at hdvd)
    have hy : (mag y : ℝ) < 2 ^ 52 * 2 ^ t := by exact_mod_cast hgrid.resolve_left hdvd
    have hw52 : (2 : ℝ) ^ 52 ≤ w := by
      have : (2 : ℝ) ^ 52 * (den * 2 ^ t) ≤ num := by exact_mod_cast hlow'
      rw [hnum] at this
      exact le_of_mul_le_mul_right this hpR
    have g : |w - m| ≤ w - 2 ^ 52 := by
      have := (onGrid (2 ^ 52)).1
      rwa [Nat.cast_pow, Nat.cast_ofNat, abs_of_nonneg (by linarith : 0 ≤ w - 2 ^ 52)] at this
    have hlt : |w - m| * 2 ^ t < |w * 2 ^ t - mag y| := by
      have hpos : 0 ≤ w * 2 ^ t - mag y := by nlinarith
      rw [abs_of_nonneg hpos]
      nlinarith
    exact ⟨hlt.le, fun he => absurd he hlt.ne⟩

/-- A signed rounding is correctly rounded. -/
theorem correctlyRounded_round {neg : Bool} {num den : Nat} (hd : 0 < den)
    (h : isFinite (round neg num den) = true) :
    CorrectlyRounded ((if neg then -1 else 1) * ((num : ℝ) / den) / 2 ^ 1074) (round neg num den) := by
  intro y _
  have hr := sign_round neg num den
  have near := round_nearest hd h
  generalize round neg num den = r at *
  have hv : (0 : ℝ) ≤ (num : ℝ) / den := by positivity
  generalize (num : ℝ) / den = v at *
  have hden : (0 : ℝ) < 2 ^ 1074 := pow_pos two_pos 1074
  have hq : ∀ x : F64, (toRat x : ℝ) = (if sign x then -1 else 1) * (mag x : ℝ) / 2 ^ 1074 := by
    intro x
    simp only [toRat, units]
    split <;> push_cast <;> ring
  have scale : ∀ a b : ℝ, |a / 2 ^ 1074 - b / 2 ^ 1074| = |a - b| / 2 ^ 1074 := by
    intro a b; rw [← sub_div, abs_div, abs_of_pos hden]
  have hs : ∀ a : ℝ, |(if neg then -1 else 1) * v - (if neg then -1 else 1) * a| = |v - a| := by
    intro a
    cases neg
    · simp
    · simp only [if_true]
      rw [show -1 * v - -1 * a = -(v - a) by ring, abs_neg]
  rw [hq r, hq y, hr, scale, scale, hs]
  simp only [div_le_div_iff_of_pos_right hden, div_left_inj' hden.ne']
  by_cases hsy : sign y = neg
  · rw [hsy, hs]
    refine ⟨(near y).1, fun he => ?_⟩
    rcases (near y).2 he with e | e
    · left
      have : units y = units r := by simp only [units, hsy, hr, e]
      rw [toRat, toRat, this]
    · exact .inr e
  · -- the other sign is no nearer than zero is
    have hopp : |(if neg then -1 else 1) * v - (if sign y then -1 else 1) * (mag y : ℝ)| = v + mag y := by
      have hy0 : (0 : ℝ) ≤ mag y := by positivity
      cases neg <;> cases hy' : sign y <;> simp [hy'] at hsy ⊢
      · linarith
      · rw [show -v - (mag y : ℝ) = -(v + mag y) by ring, abs_neg, abs_of_nonneg (by linarith)]
    have hz : mag (zero false) = 0 := by decide
    obtain ⟨n1, n2⟩ := near (zero false)
    rw [hz] at n1 n2
    simp only [Nat.cast_zero, sub_zero, abs_of_nonneg hv] at n1 n2
    have hy0 : (0 : ℝ) ≤ mag y := by positivity
    rw [hopp]
    refine ⟨by linarith, fun he => ?_⟩
    have hmy : (mag y : ℝ) = 0 := by linarith
    have hmy' : mag y = 0 := by exact_mod_cast hmy
    rcases n2 (by linarith) with e | e
    · left
      simp [toRat, units, hmy', ← e]
    · exact .inr e

end Sys2Proof.Machine.F64
end

