-- ==== Sys2Proof/Laws/Arithmetic.lean ====
section
/-! SUPPORT. The binary64 operations on finite operands, one lemma each: which single rounding an operation is, and what
the square root's digits and its sticky bit are worth (41_delay_geometry.md R101). -/

namespace Sys2Proof.Machine.F64

/-! ### Finite operands -/

/-- A finite pattern is no NaN. -/
theorem not_nan {x : F64} (h : isFinite x = true) : isNaN x = false := by
  simp_all [isFinite, isNaN]

/-- A finite pattern is no infinity. -/
theorem not_inf {x : F64} (h : isFinite x = true) : isInf x = false := by
  simp_all [isFinite, isInf]

/-- The value of a finite pattern from its sign and magnitude, over the reals. -/
theorem toRatR (x : F64) : (toRat x : ℝ) = (if sign x then -1 else 1) * (mag x : ℝ) / 2 ^ 1074 := by
  simp only [toRat, units]
  split <;> push_cast <;> ring

/-- Negation negates the value. -/
theorem toRat_neg (x : F64) : toRat (neg x) = - toRat x := by
  simp only [toRat, units, sign_neg, mag_neg]
  cases sign x <;> simp [neg_div]

/-- Values compare as their units do. -/
theorem toRat_le {x y : F64} : toRat x ≤ toRat y ↔ units x ≤ units y := by
  unfold toRat
  rw [div_le_div_iff_of_pos_right (pow_pos two_pos _)]
  exact Int.cast_le

/-- The magnitude of a finite pattern is below `2^2098` units. -/
theorem mag_lt {x : F64} (hx : isFinite x = true) : mag x < 2 ^ 2098 := by
  have h1 := sig_lt x
  have h2 := expField_lt x
  have h3 : expField x ≠ 2047 := by simpa [isFinite] using hx
  unfold mag
  calc sig x * 2 ^ (expField x - 1) < 2 ^ 53 * 2 ^ (expField x - 1) := Nat.mul_lt_mul_of_pos_right h1 (by positivity)
    _ ≤ 2 ^ 53 * 2 ^ 2045 := Nat.mul_le_mul_left _ (Nat.pow_le_pow_right (by decide) (by omega))
    _ = 2 ^ 2098 := by rw [← pow_add]

/-- A zero has no magnitude. -/
theorem mag_zero (b : Bool) : mag (zero b) = 0 := by cases b <;> decide

/-! ### Exact roundings -/

/-- A whole number rounds to itself. -/
theorem roundEven_exact (n d : Nat) (hd : 0 < d) : roundEven (n * d) d = n := by
  obtain ⟨⟨a, b⟩, -⟩ := roundEven_spec (n * d) d hd
  by_contra hne
  rcases Nat.lt_or_gt_of_ne hne with h | h
  · have : (roundEven (n * d) d + 1) * d ≤ n * d := Nat.mul_le_mul_right _ h
    rw [Nat.add_mul] at this
    omega
  · have : (n + 1) * d ≤ roundEven (n * d) d * d := Nat.mul_le_mul_right _ h
    rw [Nat.add_mul] at this
    omega

/-- A magnitude of at most 53 significant bits, in range, is rounded exactly. -/
theorem round_exact (neg : Bool) {m e : Nat} (hm : m < 2 ^ 53) (he : e ≤ 2044) :
    isFinite (round neg (m * 2 ^ e) 1) = true ∧ mag (round neg (m * 2 ^ e) 1) = m * 2 ^ e := by
  obtain ⟨h1, h2⟩ := ulpExp_spec (m * 2 ^ e) 1 (by decide)
  have ht : ulpExp (m * 2 ^ e) 1 ≤ e := by
    rcases h2 with h2 | h2
    · omega
    · by_contra hc
      have : 2 ^ (e + 1) ≤ 2 ^ ulpExp (m * 2 ^ e) 1 := Nat.pow_le_pow_right (by decide) (by omega)
      have hp : 0 < 2 ^ e := by positivity
      rw [pow_succ] at this
      have : 2 ^ 53 * 2 ^ e ≤ m * 2 ^ e := by nlinarith
      have := Nat.le_of_mul_le_mul_right this hp
      omega
  have hr : roundEven (m * 2 ^ e) (1 * 2 ^ ulpExp (m * 2 ^ e) 1) * 2 ^ ulpExp (m * 2 ^ e) 1 = m * 2 ^ e := by
    obtain ⟨j, hj⟩ : ∃ j, e = ulpExp (m * 2 ^ e) 1 + j := ⟨e - ulpExp (m * 2 ^ e) 1, by omega⟩
    have hx : m * 2 ^ e = (m * 2 ^ j) * 2 ^ ulpExp (m * 2 ^ e) 1 := by
      conv_lhs => rw [hj, pow_add]
      ring
    have : roundEven (m * 2 ^ e) (1 * 2 ^ ulpExp (m * 2 ^ e) 1) = m * 2 ^ j := by
      rw [Nat.one_mul]
      conv_lhs => arg 1; rw [hx]
      exact roundEven_exact _ _ (by positivity)
    rw [this, ← hx]
  have hfin : isFinite (round neg (m * 2 ^ e) 1) = true := by
    apply isFinite_round
    have := (significand_bounds (m * 2 ^ e) 1 (by decide)).1
    have e : infBits = 2047 * 2 ^ 52 := rfl
    omega
  exact ⟨hfin, by rw [(round_finite (by decide) hfin).2.1, hr]⟩

/-- Nothing rounds to a zero of the sign asked for. -/
theorem round_zero (s : Bool) (d : Nat) : round s 0 d = zero s := by
  have h : roundBits 0 d = 0 := by
    have h0 : ulpExp 0 d = 0 := by simp [ulpExp]
    simp [roundBits, h0, roundEven, infBits]
  unfold round
  rw [h]
  rfl

/-! ### Monotone roundings -/

/-- The magnitude of any bits 62:0. -/
theorem mag_pack_eq (b : Bool) {low : Nat} (h : low < 2 ^ 63) :
    mag (pack b low) = if low < 2 ^ 52 then low else (2 ^ 52 + low % 2 ^ 52) * 2 ^ (low / 2 ^ 52 - 1) := by
  simp only [mag, sig, expField_pack b h, frac_pack b h]
  by_cases hl : low < 2 ^ 52
  · have e : low / 2 ^ 52 = 0 := by omega
    have f : low % 2 ^ 52 = low := by omega
    rw [if_pos hl, e, f]; simp
  · have e : low / 2 ^ 52 ≠ 0 := by omega
    rw [if_neg hl, if_neg e]

/-- Larger bits 62:0 have no smaller magnitude. -/
theorem mag_pack_mono (b b' : Bool) {l l' : Nat} (h : l ≤ l') (hl : l' < 2 ^ 63) : mag (pack b l) ≤ mag (pack b' l') := by
  rw [mag_pack_eq b (lt_of_le_of_lt h hl), mag_pack_eq b' hl]
  by_cases h1 : l < 2 ^ 52
  · rw [if_pos h1]
    by_cases h2 : l' < 2 ^ 52
    · rw [if_pos h2]; exact h
    · rw [if_neg h2]
      calc l ≤ 2 ^ 52 + l' % 2 ^ 52 := by omega
        _ ≤ _ := Nat.le_mul_of_pos_right _ (Nat.pow_pos (by decide))
  · have h2 : ¬ l' < 2 ^ 52 := by omega
    rw [if_neg h1, if_neg h2]
    obtain ⟨j, hj⟩ : ∃ j, l' / 2 ^ 52 = l / 2 ^ 52 + j := ⟨l' / 2 ^ 52 - l / 2 ^ 52, by omega⟩
    rcases Nat.eq_zero_or_pos j with rfl | hj0
    · rw [hj]
      exact Nat.mul_le_mul_right _ (by omega)
    · obtain ⟨i, rfl⟩ : ∃ i, j = i + 1 := ⟨j - 1, by omega⟩
      rw [hj, show l / 2 ^ 52 + (i + 1) - 1 = (l / 2 ^ 52 - 1) + 1 + i by omega, pow_add, pow_succ]
      have e : 2 ^ 52 + l % 2 ^ 52 ≤ (2 ^ 52 + l' % 2 ^ 52) * 2 := by omega
      calc _ ≤ ((2 ^ 52 + l' % 2 ^ 52) * 2) * 2 ^ (l / 2 ^ 52 - 1) := Nat.mul_le_mul_right _ e
        _ = (2 ^ 52 + l' % 2 ^ 52) * (2 ^ (l / 2 ^ 52 - 1) * 2) := by ring
        _ ≤ _ := Nat.mul_le_mul_left _ (Nat.le_mul_of_pos_right _ (Nat.pow_pos (by decide)))

/-- A larger ratio does not round to a smaller magnitude, whatever the signs. -/
theorem mag_round_mono {s s' : Bool} {a b c d : Nat} (hb : 0 < b) (hd : 0 < d) (h : a * d ≤ c * b) :
    mag (round s a b) ≤ mag (round s' c d) :=
  mag_pack_mono s s' (roundBits_mono hb hd h) (roundBits_lt c d)

/-! ### Operations on finite operands -/

/-- A sum of finite operands is `addFinite`. -/
theorem add_finite {x y : F64} (hx : isFinite x = true) (hy : isFinite y = true) : add x y = addFinite x y := by
  simp [add, not_nan hx, not_nan hy, not_inf hx, not_inf hy]

/-- A product of finite operands is one rounding. -/
theorem mul_finite {x y : F64} (hx : isFinite x = true) (hy : isFinite y = true) :
    mul x y = round (sign x != sign y) (mag x * mag y) (2 ^ 1074) := by
  simp [mul, not_nan hx, not_nan hy, not_inf hx, not_inf hy]

/-- A quotient of finite operands, the divisor not 0, is one rounding. -/
theorem div_finite {x y : F64} (hx : isFinite x = true) (hy : isFinite y = true) (h0 : 0 < mag y) :
    div x y = round (sign x != sign y) (mag x * 2 ^ 1074) (mag y) := by
  have hne : mag y ≠ 0 := by omega
  simp [div, not_nan hx, not_nan hy, not_inf hx, not_inf hy, hne]

/-- The magnitude of a difference that is not negative is one rounding of the exact difference. -/
theorem sub_mag {x m : F64} (hx : isFinite x = true) (hm : isFinite m = true) (h : units m ≤ units x) :
    mag (sub x m) = mag (round false (units x - units m).toNat 1) := by
  have hn : isNaN x = false := by simp_all [isFinite, isNaN]
  have hi : isInf x = false := by simp_all [isFinite, isInf]
  have h3 : isNaN (neg m) = false := by simp_all [isFinite, isNaN]
  have h4 : isInf (neg m) = false := by simp_all [isFinite, isInf]
  have e : sub x m = addFinite x (neg m) := by simp [sub, add, *]
  have hs : ∀ s n, mag (round s n 1) = mag (round false n 1) := fun s n =>
    le_antisymm (mag_round_mono (by decide) (by decide) le_rfl) (mag_round_mono (by decide) (by decide) le_rfl)
  rw [e]
  unfold addFinite
  rw [sign_neg, mag_neg]
  unfold units at h ⊢
  generalize mag x = a at *
  generalize mag m = b at *
  revert h
  cases sign x <;> cases sign m <;> intro h <;> simp only [Bool.not_false, Bool.not_true, Bool.false_eq_true, if_false, if_true, reduceCtorEq] at h ⊢
  · by_cases h1 : b < a
    · rw [if_pos h1, hs]; congr 2; omega
    · have : a = b := by omega
      subst this
      simp only [lt_irrefl, if_false, sub_self]; decide
  · congr 2; omega
  · have ha : a = 0 := by omega
    have hb : b = 0 := by omega
    subst ha; subst hb; decide
  · by_cases h1 : b < a
    · exfalso; omega
    · rw [if_neg h1]
      by_cases h2 : a < b
      · rw [if_pos h2, hs]; congr 2; omega
      · have : a = b := by omega
        subst this
        simp only [lt_irrefl, if_false, sub_self]; decide

/-- A finite product has finite factors. -/
theorem finite_of_mul {x y : F64} (h : isFinite (mul x y) = true) : isFinite x = true ∧ isFinite y = true := by
  have hnan : isFinite quietNaN = false := by decide
  have hinf : ∀ b, isFinite (inf b) = false := by decide
  unfold mul at h
  dsimp only at h
  split at h
  · simp [hnan] at h
  · next h1 =>
    split at h
    · split at h <;> simp [hnan, hinf] at h
    · next h2 =>
      simp only [isNaN, isInf, isFinite] at *
      constructor
      · by_contra hc; simp_all
      · by_contra hc; simp_all

/-- A finite quotient has a finite dividend, and a divisor that is infinite or finite and not 0. -/
theorem finite_of_div {x y : F64} (h : isFinite (div x y) = true) : isFinite x = true ∧ (isInf y = true ∨ (isFinite y = true ∧ mag y ≠ 0)) := by
  have hnan : isFinite quietNaN = false := by decide
  have hinf : ∀ b, isFinite (inf b) = false := by decide
  unfold div at h
  dsimp only at h
  split at h
  · simp [hnan] at h
  · next h1 =>
    split at h
    · split at h <;> simp [hnan, hinf] at h
    · next h2 =>
      have hx : isFinite x = true := by
        simp only [isNaN, isInf, isFinite] at *
        by_contra hc; simp_all
      refine ⟨hx, ?_⟩
      split at h
      · next h3 => exact .inl h3
      · next h3 =>
        right
        split at h
        · split at h <;> simp [hnan, hinf] at h
        · next h4 => 
          refine ⟨?_, by simpa using h4⟩
          simp only [isNaN, isInf, isFinite] at *
          by_contra hc; simp_all

/-! ### The square root -/

/-- The digit-by-digit root is the whole-number square root. -/
theorem isqrt_spec (b n r : Nat) (h1 : r * r ≤ n) (h2 : n < (r + 2^b) * (r + 2^b)) :
    isqrt b n r * isqrt b n r ≤ n ∧ n < (isqrt b n r + 1) * (isqrt b n r + 1) := by
  induction b generalizing r with
  | zero => exact ⟨h1, by simpa [isqrt] using h2⟩
  | succ b ih =>
    unfold isqrt
    split
    · next hc => 
      apply ih _ hc
      calc n < _ := h2
        _ = _ := by ring
    · next hc => 
      exact ih _ h1 (by omega)

/-- The 61 leading binary digits of the root, and how many digits are dropped behind them. -/
theorem sqrt_parts {N : Nat} (h : 2 ^ 1074 ≤ N) :
    let k := sqrtDrop N
    let r := isqrt 62 (N / 2 ^ (2 * k)) 0
    2 ^ 60 ≤ r ∧ r < 2 ^ 61 ∧ r * r * 2 ^ (2 * k) ≤ N ∧ N < (r + 1) * (r + 1) * 2 ^ (2 * k) := by
  intro k r
  have hlog : 1074 ≤ N.log2 := (Nat.le_log2 (by have : 0 < 2^1074 := Nat.pow_pos (by decide)
                                                omega)).2 h
  have hk : k = N.log2 / 2 - 60 := rfl
  have hN0 : N ≠ 0 := by rintro rfl; simp at hlog
  have hP : 0 < 2 ^ (2 * k) := by positivity
  have n1 : 2 ^ 120 ≤ N / 2 ^ (2 * k) := by
    rw [Nat.le_div_iff_mul_le hP, ← pow_add]
    exact le_trans (Nat.pow_le_pow_right (by decide) (by omega)) (Nat.log2_self_le hN0)
  have n2 : N / 2 ^ (2 * k) < 2 ^ 122 := by
    rw [Nat.div_lt_iff_lt_mul hP, ← pow_add]
    exact lt_of_lt_of_le Nat.lt_log2_self (Nat.pow_le_pow_right (by decide) (by omega))
  obtain ⟨s1, s2⟩ := isqrt_spec 62 (N / 2 ^ (2 * k)) 0 (by simp) (by
    calc _ < 2 ^ 122 := n2
      _ ≤ _ := by norm_num)
  change r * r ≤ _ at s1
  change _ < (r + 1) * (r + 1) at s2
  refine ⟨?_, ?_, ?_, ?_⟩
  · by_contra hc
    have : (r + 1) * (r + 1) ≤ 2 ^ 60 * 2 ^ 60 := Nat.mul_le_mul (by omega) (by omega)
    have e : 2 ^ 60 * 2 ^ 60 = 2 ^ 120 := by norm_num
    omega
  · by_contra hc
    have : 2 ^ 61 * 2 ^ 61 ≤ r * r := Nat.mul_le_mul (by omega) (by omega)
    have e : 2 ^ 61 * 2 ^ 61 = 2 ^ 122 := by norm_num
    omega
  · calc _ ≤ N / 2 ^ (2 * k) * 2 ^ (2 * k) := Nat.mul_le_mul_right _ s1
      _ ≤ N := Nat.div_mul_le_self _ _
  · rw [← Nat.div_lt_iff_lt_mul hP]; exact s2

/-- A value strictly between two neighbours of 61 digits rounds as the midpoint between them does. -/
theorem sticky_nearest {r k : Nat} (hr : 2 ^ 60 ≤ r) {u : ℝ} (hu1 : (r : ℝ) * 2 ^ k < u) (hu2 : u < (r + 1) * 2 ^ k)
    (h : isFinite (round false ((2 * r + 1) * 2 ^ k) 2) = true) (y : F64) :
    |u - mag (round false ((2 * r + 1) * 2 ^ k) 2)| ≤ |u - mag y| ∧
    (|u - mag (round false ((2 * r + 1) * 2 ^ k) 2)| = |u - mag y| → mag y = mag (round false ((2 * r + 1) * 2 ^ k) 2)) := by
  obtain ⟨-, hmag, -⟩ := round_finite (by decide) h
  obtain ⟨-, hlow⟩ := ulpExp_spec ((2 * r + 1) * 2 ^ k) 2 (by decide)
  have hgrid := mag_grid y (ulpExp ((2 * r + 1) * 2 ^ k) 2)
  have ht : k + 1 ≤ ulpExp ((2 * r + 1) * 2 ^ k) 2 := by
    unfold ulpExp
    have h1 : 2 ^ (k + 60) ≤ (2 * r + 1) * 2 ^ k / 2 := by
      rw [Nat.le_div_iff_mul_le (by decide)]
      calc 2 ^ (k + 60) * 2 = (2 * 2 ^ 60) * 2 ^ k := by ring
        _ ≤ _ := Nat.mul_le_mul_right _ (by omega)
    have hpp : 0 < 2 ^ (k+60) := by positivity
    have h0 : (2 * r + 1) * 2 ^ k / 2 ≠ 0 := by omega
    have := (Nat.le_log2 h0).2 h1
    omega
  obtain ⟨⟨h1, h2⟩, -⟩ := roundEven_spec ((2 * r + 1) * 2 ^ k) (2 * 2 ^ ulpExp ((2 * r + 1) * 2 ^ k) 2) (by positivity)
  generalize round false ((2 * r + 1) * 2 ^ k) 2 = R at *
  generalize roundEven ((2 * r + 1) * 2 ^ k) (2 * 2 ^ ulpExp ((2 * r + 1) * 2 ^ k) 2) = m at *
  generalize ulpExp ((2 * r + 1) * 2 ^ k) 2 = t at *
  obtain ⟨j, rfl⟩ : ∃ j, t = k + 1 + j := ⟨t - (k+1), by omega⟩
  have hK : 0 < 2 ^ k := by positivity
  have hKR : (0:ℝ) < 2 ^ k := by positivity
  have et : 2 ^ (k + 1 + j) = 2 * 2 ^ j * 2 ^ k := by ring
  have etR : (2:ℝ) ^ (k + 1 + j) = 2 * 2 ^ j * 2 ^ k := by ring
  have hC : 0 < 2 ^ j := by positivity
  rw [et] at h1 h2 hlow hgrid hmag
  rw [hmag]
  generalize hc : 2 ^ j = c at *
  -- in units of 2^k
  have b1 : 4 * (m * c) ≤ 2 * r + 1 + 2 * c := by
    apply Nat.le_of_mul_le_mul_right _ hK
    nlinarith
  have b2 : 2 * r + 1 ≤ 4 * (m * c) + 2 * c := by
    apply Nat.le_of_mul_le_mul_right _ hK
    nlinarith
  obtain ⟨v, hv⟩ : ∃ v : ℝ, u = v * 2 ^ k := ⟨u / 2 ^ k, by field_simp⟩
  have hv1 : (r:ℝ) < v := by rw [hv] at hu1; exact lt_of_mul_lt_mul_right hu1 hKR.le
  have hv2 : v < r + 1 := by rw [hv] at hu2; exact lt_of_mul_lt_mul_right hu2 hKR.le
  have scale : ∀ z : ℝ, |v * 2 ^ k - z * 2 ^ k| = |v - z| * 2 ^ k := by
    intro z; rw [← sub_mul, abs_mul, abs_of_pos hKR]
  have onGrid : ∀ z : ℕ, |v - 2 * (m * c : ℕ)| ≤ |v - 2 * (z * c : ℕ)| ∧ (|v - 2 * (m * c : ℕ)| = |v - 2 * (z * c : ℕ)| → z = m) := by
    intro z
    rcases lt_trichotomy z m with hz | hz | hz
    · have e : (z + 1) * c ≤ m * c := Nat.mul_le_mul_right _ hz
      rw [Nat.add_mul] at e
      have e2 : m * c + z * c ≤ r := by omega
      have e2R : ((m * c : ℕ) : ℝ) + (z * c : ℕ) ≤ r := by exact_mod_cast e2
      have e3 : ((z * c : ℕ) : ℝ) + 1 ≤ (m * c : ℕ) := by exact_mod_cast (by omega : z * c + 1 ≤ m * c)
      have : |v - 2 * (m * c : ℕ)| < |v - 2 * (z * c : ℕ)| := by
        rw [abs_of_nonneg (show 0 ≤ v - 2 * ((z * c : ℕ):ℝ) by linarith)]
        exact abs_lt.2 ⟨by linarith, by linarith⟩
      exact ⟨this.le, fun he => absurd he this.ne⟩
    · subst hz; exact ⟨le_refl _, fun _ => rfl⟩
    · have e : (m + 1) * c ≤ z * c := Nat.mul_le_mul_right _ hz
      rw [Nat.add_mul] at e
      have e2 : r + 1 ≤ m * c + z * c := by omega
      have e2R : (r : ℝ) + 1 ≤ ((m * c : ℕ) : ℝ) + (z * c : ℕ) := by exact_mod_cast e2
      have e3 : ((m * c : ℕ) : ℝ) + 1 ≤ (z * c : ℕ) := by exact_mod_cast (by omega : m * c + 1 ≤ z * c)
      have : |v - 2 * (m * c : ℕ)| < |v - 2 * (z * c : ℕ)| := by
        rw [abs_of_nonpos (show v - 2 * ((z * c : ℕ):ℝ) ≤ 0 by linarith)]
        exact abs_lt.2 ⟨by linarith, by linarith⟩
      exact ⟨this.le, fun he => absurd he this.ne⟩
  have em : ((m * (2 * c * 2 ^ k) : ℕ) : ℝ) = (2 * (m * c : ℕ)) * 2 ^ k := by push_cast; ring
  rw [hv, em, scale]
  by_cases hdvd : 2 * c * 2 ^ k ∣ mag y
  · obtain ⟨z, hz⟩ := hdvd
    have ez : (mag y : ℝ) = (2 * (z * c : ℕ)) * 2 ^ k := by rw [hz]; push_cast; ring
    rw [ez, scale]
    obtain ⟨g1, g2⟩ := onGrid z
    refine ⟨mul_le_mul_of_nonneg_right g1 hKR.le, fun he => ?_⟩
    rw [hz, g2 (mul_right_cancel₀ hKR.ne' he), Nat.mul_comm]
  · have hy := hgrid.resolve_left hdvd
    have hlow' := hlow.resolve_left (by omega)
    have l1 : 2 ^ 52 * (4 * c) ≤ 2 * r + 1 := by
      apply Nat.le_of_mul_le_mul_right _ hK
      nlinarith
    have l2 : 2 ^ 52 * (2 * c) ≤ r := by omega
    have l2R : (2:ℝ) ^ 52 * (2 * c) ≤ r := by exact_mod_cast l2
    have hyR : (mag y : ℝ) < 2 ^ 52 * (2 * c) * 2 ^ k := by
      have : (mag y : ℝ) < 2 ^ 52 * (2 * c * 2 ^ k) := by exact_mod_cast hy
      linarith
    have g := (onGrid (2 ^ 52)).1
    have e52 : (2 * ((2 ^ 52 * c : ℕ) : ℝ)) = 2 ^ 52 * (2 * c) := by push_cast; ring
    rw [e52, abs_of_nonneg (show 0 ≤ v - 2 ^ 52 * (2 * (c:ℝ)) by linarith)] at g
    have : |v - 2 * (m * c : ℕ)| * 2 ^ k < |v * 2 ^ k - mag y| := by
      rw [abs_of_nonneg (show 0 ≤ v * 2 ^ k - (mag y:ℝ) by nlinarith)]
      nlinarith
    exact ⟨this.le, fun he => absurd he this.ne⟩

end Sys2Proof.Machine.F64
end

