-- ==== Sys2Proof/Laws/Basic.lean ====
section
/-! SUPPORT. The small lemmas of the containers of Word.lean. -/

namespace Sys2Proof

variable {α β : Type}

/-- A fact about each of the eight channels is a fact about every channel. -/
theorem forall_channel {P : Channel → Prop} (h : P 0 ∧ P 1 ∧ P 2 ∧ P 3 ∧ P 4 ∧ P 5 ∧ P 6 ∧ P 7) : ∀ c, P c := by
  obtain ⟨h0, h1, h2, h3, h4, h5, h6, h7⟩ := h
  intro c
  fin_cases c <;> assumption

@[simp] theorem Eight.get_ofFn (f : Channel → α) (c : Channel) : (Eight.ofFn f).get c = f c := by
  fin_cases c <;> rfl

@[simp] theorem Eight.get_map (f : α → β) (e : Eight α) (c : Channel) : (e.map f).get c = f (e.get c) := by
  fin_cases c <;> rfl

theorem Eight.get_set (e : Eight α) (c i : Channel) (v : α) : (e.set c v).get i = if i = c then v else e.get i := by
  simp [Eight.set]

@[simp] theorem Eight.get_set_self (e : Eight α) (c : Channel) (v : α) : (e.set c v).get c = v := by
  simp [Eight.get_set]

theorem Eight.get_set_ne (e : Eight α) {c i : Channel} (h : i ≠ c) (v : α) : (e.set c v).get i = e.get i := by
  simp [Eight.get_set, h]

@[simp] theorem Eight.ofFn_get (e : Eight α) : Eight.ofFn e.get = e := rfl

/-- Two containers with the same value at every channel are one. -/
theorem Eight.ext_get {a b : Eight α} (h : ∀ c, a.get c = b.get c) : a = b := by
  rw [← Eight.ofFn_get a, ← Eight.ofFn_get b, funext h]

theorem Eight.toList_eq (e : Eight α) : e.toList = channels.map e.get := rfl

@[simp] theorem Eight.mem_toList {e : Eight α} {x : α} : x ∈ e.toList ↔ ∃ c, e.get c = x := by
  simp only [Eight.toList_eq, List.mem_map]
  constructor
  · rintro ⟨c, -, h⟩; exact ⟨c, h⟩
  · rintro ⟨c, h⟩; exact ⟨c, by fin_cases c <;> decide, h⟩

@[simp] theorem mem_channels (c : Channel) : c ∈ channels := by fin_cases c <;> decide

@[simp] theorem channels_any {P : Channel → Bool} : channels.any P = true ↔ ∃ c, P c = true := by
  simp [List.any_eq_true]

theorem channels_any_false {P : Channel → Bool} : channels.any P = false ↔ ∀ c, P c = false := by
  simp [List.any_eq_false]

@[simp] theorem vectorOf_getElem (n : Nat) (f : Nat → α) (i : Nat) (h : i < n) : (vectorOf n f)[i] = f i := by
  simp [vectorOf]

end Sys2Proof
end

