-- ==== Sys2Proof/Laws/Bus.lean ====
section
/-! SUPPORT. What a bus transaction can do (20_memory.md R58, R59): one lemma per operation, cited by every later
proof about a command that uses the bus. -/

namespace Sys2Proof.Machine

/-! ### Byte order -/

theorem halfAt_pair (b0 b1 : Byte) : halfAt [b0, b1] 0 = fromLe16 b0 b1 := rfl

@[simp] theorem fromLe16_le16 (v : Half) : fromLe16 (v.extractLsb' 0 8) (v.extractLsb' 8 8) = v := by
  have h := BitVec.isLt v
  apply BitVec.eq_of_toNat_eq
  simp only [fromLe16, BitVec.toNat_append, BitVec.extractLsb'_toNat, Nat.shiftLeft_eq, Nat.shiftRight_eq_div_pow]
  rw [Nat.mul_comm, ← Nat.two_pow_add_eq_or_of_lt (by omega)]
  omega

/-- A 16-bit value travels as its two bytes and back. -/
theorem halfAt_le16 (v : Half) : halfAt (le16 v) 0 = v := fromLe16_le16 v

@[simp] theorem le16_length (v : Half) : (le16 v).length = 2 := rfl

@[simp] theorem bytesOf_length (vs : List Half) : (bytesOf vs).length = 2 * vs.length := by
  induction vs with
  | nil => rfl
  | cons v vs ih =>
    show (le16 v ++ bytesOf vs).length = _
    rw [List.length_append, ih, le16_length, List.length_cons]
    omega

@[simp] theorem halvesOf_length (m : Nat) (bs : List Byte) : (halvesOf m bs).length = m := by simp [halvesOf]

@[simp] theorem answerBytes_length (d n : Nat) (g : List Byte) : (answerBytes d n g).length = n := by
  simp [answerBytes]

/-- An answer with all its bytes is what the read returns. -/
theorem answerBytes_full {n : Nat} {g : List Byte} (h : g.length = n) (d : Nat) : answerBytes d n g = g := by
  apply List.ext_getElem (by simp [h])
  intro i h1 h2
  simp [answerBytes, List.getD_eq_getElem?_getD, h2]

/-! ### MemRead -/

/-- A read's effect on the state is its transaction, whatever it returns. -/
theorem memRead_state (addr : Half) (n : Nat) (s : State) :
    (memRead addr n s).2 = s.logTxn (.read addr n (memRead addr n s).1) := rfl

/-- A read that returned bytes: the state is as before but for its transaction, and the bytes are `n`. -/
theorem memRead_ok {addr : Half} {n : Nat} {s s1 : State} {b : List Byte} (h : memRead addr n s = (some b, s1)) :
    s1 = s.logTxn (.read addr n (some b)) ∧ b.length = n := by
  have h1 : (memRead addr n s).1 = some b := by rw [h]
  have h2 : (memRead addr n s).2 = s1 := by rw [h]
  refine ⟨by rw [← h2, memRead_state, h1], ?_⟩
  unfold memRead at h1
  dsimp only at h1
  split at h1 <;> simp at h1
  rw [← h1, answerBytes_length]

/-- A read that returned `err`: the state is as before but for its transaction. -/
theorem memRead_err {addr : Half} {n : Nat} {s s1 : State} (h : memRead addr n s = (none, s1)) :
    s1 = s.logTxn (.read addr n none) := by
  have h1 : (memRead addr n s).1 = none := by rw [h]
  have h2 : (memRead addr n s).2 = s1 := by rw [h]
  rw [← h2, memRead_state, h1]

/-- A scripted answer of the right length is what a read returns. -/
theorem memRead_scripted (addr : Half) {n : Nat} {s : State} {b : List Byte} {rest : List BusAnswer}
    (h : s.fpga = .ok b :: rest) (hb : b.length = n) :
    memRead addr n s = (some b, s.logTxn (.read addr n (some b))) := by
  simp [memRead, State.nextAnswer, h, answerBytes_full hb]

theorem memRead_scripted_err (addr : Half) (n : Nat) {s : State} {rest : List BusAnswer} (h : s.fpga = .err :: rest) :
    memRead addr n s = (none, s.logTxn (.read addr n none)) := by
  simp [memRead, State.nextAnswer, h]

/-! ### MemWrite -/

/-- A write's effect on the state is its transaction. -/
theorem memWrite_state {addr : Half} {bytes : List Byte} {s s1 : State} {ok : Bool}
    (h : memWrite addr bytes s = (ok, s1)) : s1 = s.logTxn (.write addr bytes ok) := by
  have h1 : (memWrite addr bytes s).1 = ok := by rw [h]
  have h2 : (memWrite addr bytes s).2 = s1 := by rw [h]
  rw [← h2, ← h1]
  rfl

theorem memWrite_scripted (addr : Half) (bytes : List Byte) {s : State} {b : List Byte} {rest : List BusAnswer}
    (h : s.fpga = .ok b :: rest) : memWrite addr bytes s = (true, s.logTxn (.write addr bytes true)) := by
  simp [memWrite, State.nextAnswer, h]

theorem memWrite_scripted_err (addr : Half) (bytes : List Byte) {s : State} {rest : List BusAnswer}
    (h : s.fpga = .err :: rest) : memWrite addr bytes s = (false, s.logTxn (.write addr bytes false)) := by
  simp [memWrite, State.nextAnswer, h]

/-! ### A run of reads -/

/-- A run of good reads changes only the bus's part of the state, and logs each read. -/
theorem ReadsOk.state {addr : Half} {n : Nat} {bs : List (List Byte)} :
    ∀ {s s' : State}, ReadsOk addr n s bs s' →
      s' = { s with fpga := s'.fpga, draw := s.draw + bs.length,
                    busLog := s.busLog ++ bs.map fun b => .read addr n (some b) } ∧ ∀ b ∈ bs, b.length = n := by
  induction bs with
  | nil =>
    rintro s s' (h : s' = s)
    subst h
    exact ⟨by simp, by simp⟩
  | cons b bs ih =>
    rintro s s' ⟨s1, h1, h2⟩
    obtain ⟨rfl, hb⟩ := memRead_ok h1
    obtain ⟨e, hl⟩ := ih h2
    refine ⟨?_, by simpa [hb] using hl⟩
    rw [e]
    simp [State.logTxn]
    omega

end Sys2Proof.Machine
end

