-- ==== Sys2Proof/Laws/Queue.lean ====
section
/-! SUPPORT. The delay queues as lists of elements (42_delay_queue.md R120, R121, R124). -/

namespace Sys2Proof.Machine.DelayQueue

variable (q : DelayQueue)

@[simp] theorem push_count (v : Half) : (q.push v).count = q.count + 1 := rfl
@[simp] theorem push_head (v : Half) : (q.push v).head = q.head := rfl
@[simp] theorem pop_count : q.pop.count = q.count - 1 := rfl
@[simp] theorem pop_buf : q.pop.buf = q.buf := rfl
@[simp] theorem emptied_count : q.emptied.count = 0 := rfl
@[simp] theorem emptied_head : q.emptied.head = 0 := rfl
@[simp] theorem elements_length : q.elements.length = q.count := by simp [elements]

@[simp] theorem slot_push (v : Half) (i : Nat) : (q.push v).slot i = q.slot i := rfl

@[simp] theorem slot_zero : q.slot 0 = q.head := by
  apply Fin.ext
  simp [slot]

@[simp] theorem slot_pop (i : Nat) : q.pop.slot i = q.slot (i + 1) := by
  apply Fin.ext
  simp [slot, pop]
  omega

theorem elements_getElem (i : Nat) (h : i < q.elements.length) : q.elements[i] = q.buf[q.slot i] := by
  simp [elements]

/-- `Q_Enq` appends, while there is a free slot (R120). -/
theorem elements_push (v : Half) (h : q.count < 32) : (q.push v).elements = q.elements ++ [v] := by
  apply List.ext_getElem (by simp)
  intro i h1 h2
  rw [elements_getElem]
  simp only [elements_length, push_count] at h1
  show (q.buf.set (q.slot q.count) v)[(q.slot i : Nat)] = _
  by_cases hi : i = q.count
  · subst hi
    simp [List.getElem_append_right]
  · have hne : (q.slot q.count : Nat) ≠ q.slot i := by
      simp only [slot]
      omega
    have hlt : i < q.elements.length := by rw [elements_length]; omega
    rw [Vector.getElem_set_ne _ _ hne, List.getElem_append_left hlt, elements_getElem]
    rfl

/-- `Q_Deq` returns the first element and leaves the others (R121). -/
theorem elements_eq_cons (h : 0 < q.count) : q.elements = q.oldest :: q.pop.elements := by
  apply List.ext_getElem
  · simp
    omega
  · intro i h1 h2
    rw [elements_getElem]
    cases i with
    | zero => simp [oldest]
    | succ i => simp [elements_getElem]

/-- Pushing zeros appends them, while there is room (41_delay_geometry.md R104). -/
theorem elements_pushZeros (k : Nat) : ∀ (q : DelayQueue), q.count + k ≤ 32 →
    (pushZeros k q).elements = q.elements ++ List.replicate k 0 := by
  induction k with
  | zero => intro q _; simp [pushZeros]
  | succ k ih =>
    intro q h
    rw [pushZeros, ih _ (by rw [push_count]; omega), elements_push _ _ (by omega), List.append_assoc]
    rfl

@[simp] theorem pushZeros_count (k : Nat) : ∀ q : DelayQueue, (pushZeros k q).count = q.count + k := by
  induction k with
  | zero => intro q; rfl
  | succ k ih => intro q; rw [pushZeros, ih, push_count]; omega

/-- The capture loop keeps the depth (R124). -/
@[simp] theorem delay_count (vs : List Half) : ∀ q : DelayQueue, (delay vs q).2.count = q.count := by
  induction vs with
  | nil => intro q; rfl
  | cons v vs ih => intro q; simp [delay, ih]

@[simp] theorem delay_length (vs : List Half) : ∀ q : DelayQueue, (delay vs q).1.length = vs.length := by
  induction vs with
  | nil => intro q; rfl
  | cons v vs ih => intro q; simp [delay, ih]

/-- One turn of the capture loop: the elements with the new sample behind them, less the first. -/
theorem elements_turn (v : Half) (h : q.count < 32) :
    (q.push v).oldest :: (q.push v).pop.elements = q.elements ++ [v] := by
  rw [← elements_push q v h, elements_eq_cons (q.push v) (by simp)]

@[simp] theorem enq_full (v : Half) (h : q.count = 32) : q.enq v = none := by simp [enq, h]
@[simp] theorem enq_room (v : Half) (h : q.count ≠ 32) : q.enq v = some (q.push v) := by simp [enq, h]
@[simp] theorem deq_empty (h : q.count = 0) : q.deq = none := by simp [deq, h]
@[simp] theorem deq_some (h : q.count ≠ 0) : q.deq = some (q.oldest, q.pop) := by simp [deq, h]

end Sys2Proof.Machine.DelayQueue
end

