-- ==== Sys2Proof/Laws/Commands.lean ====
section
/-! SUPPORT. What each command can do, once: every outcome of its body as an update of the state it started from. Later
proofs take these cases and do not unfold a body. -/

namespace Sys2Proof.Machine

/-! ### Shared endings -/

/-- With nothing waiting, `finish` writes STATUS.ERR alone. -/
theorem finish_eq {s : State} (h : s.pend = none) : finish s = { s with err := .ok } := by
  simp [finish, endCommand, ErrCode.isFatal, ← h]

/-- With nothing waiting, a recoverable code writes STATUS.ERR alone. -/
theorem raise_recoverable {s : State} (h : s.pend = none) {e : ErrCode} (he : e.isFatal = false) :
    raise e s = { s with err := e } := by
  simp [raise, endCommand, he, ← h]

/-- With nothing waiting, a fatal code writes STATUS.ERR and FATAL. -/
theorem raise_fatal_eq {s : State} (h : s.pend = none) {e : ErrCode} (he : e.isFatal = true) :
    raise e s = { s with err := e, fatal := true } := by
  simp [raise, endCommand, he, ← h]

theorem pend_of_not_busy {s : State} (h : s.busy = false) : s.pend = none := by
  cases hp : s.pend with
  | none => rfl
  | some p => cases p; simp [State.busy, hp] at h

theorem busy_of_pend_none {s : State} (h : s.pend = none) : s.busy = false := by simp [State.busy, h]

theorem gated_inited {s : State} (h : s.inited = true) (body : State → State) : gated body s = body s := by
  simp [gated, h]

theorem gated_not_inited {s : State} (h : s.inited = false) (body : State → State) :
    gated body s = raise .illegalCommand s := by
  simp [gated, h]

/-- A gated command either runs its body or ends with ILLEGAL_COMMAND. -/
theorem gated_cases (body : State → State) (s : State) :
    (s.inited = true ∧ gated body s = body s) ∨ (s.inited = false ∧ gated body s = raise .illegalCommand s) := by
  cases h : s.inited
  · exact .inr ⟨rfl, gated_not_inited h body⟩
  · exact .inl ⟨rfl, gated_inited h body⟩

/-! ### First row of a table -/

/-- The first match of a search is the match with no match before it. -/
theorem find?_first {α : Type} {p : α → Bool} {before after : List α} {e : α} (hb : ∀ r ∈ before, p r = false)
    (he : p e = true) : (before ++ e :: after).find? p = some e := by
  rw [List.find?_append, List.find?_eq_none.2 (fun r hr => by simp [hb r hr])]
  simp [he]

/-! ### Rate configuration -/

/-- The state after the two reads of `ReadRateConfig`, gain first. -/
def bothRead (bg bk : List Byte) (s : State) : State :=
  (s.logTxn (.read s.params.gainAddr 2 (some bg))).logTxn (.read s.params.rateConstAddr 2 (some bk))

theorem readRateConfig_cases (s : State) :
    readRateConfig s = raise .busError (s.logTxn (.read s.params.gainAddr 2 none)) ∨
    (∃ bg, readRateConfig s = raise .busError
      ((s.logTxn (.read s.params.gainAddr 2 (some bg))).logTxn (.read s.params.rateConstAddr 2 none))) ∨
    (∃ bg bk, readRateConfig s = raise .invalidInput (bothRead bg bk s)) ∨
    (∃ bg bk e, lookupByConstant s.params (halfAt bk 0) = some e ∧ readRateConfig s =
      finish { bothRead bg bk s with gain := halfAt bg 0, rate := e.rate, result := e.rate }) := by
  unfold readRateConfig
  split
  · next h1 => rw [memRead_err h1]; exact .inl rfl
  · next bg s1 h1 =>
    obtain ⟨rfl, -⟩ := memRead_ok h1
    split
    · next h2 => rw [memRead_err h2]; exact .inr (.inl ⟨bg, rfl⟩)
    · next bk s2 h2 =>
      obtain ⟨rfl, -⟩ := memRead_ok h2
      split
      · exact .inr (.inr (.inl ⟨bg, bk, rfl⟩))
      · next e he => exact .inr (.inr (.inr ⟨bg, bk, e, he, rfl⟩))

theorem writeSampleRate_cases (s : State) :
    writeSampleRateBody s = raise .invalidInput s ∨
    ∃ e, lookupByRate s.params s.arg0 = some e ∧
      (writeSampleRateBody s = raise .busError (s.logTxn (.write s.params.gainAddr (le16 e.gain) false)) ∨
       writeSampleRateBody s = raise .busError ((s.logTxn (.write s.params.gainAddr (le16 e.gain) true)).logTxn
         (.write s.params.rateConstAddr (le16 e.constant) false)) ∨
       writeSampleRateBody s = finish { (s.logTxn (.write s.params.gainAddr (le16 e.gain) true)).logTxn
         (.write s.params.rateConstAddr (le16 e.constant) true) with gain := e.gain, rate := e.rate }) := by
  unfold writeSampleRateBody rateOperand
  split
  · exact .inl rfl
  · next e he =>
    refine .inr ⟨e, he, ?_⟩
    split
    · next h1 => rw [memWrite_state h1]; exact .inl rfl
    · next h1 =>
      obtain rfl := memWrite_state h1
      split
      · next h2 => rw [memWrite_state h2]; exact .inr (.inl rfl)
      · next h2 => rw [memWrite_state h2]; exact .inr (.inr rfl)

/-! ### Filter stage -/

/-- A set stored and pushed: the bytes are the set's, and the code says how the push ended. -/
theorem storeAndPush_eq (taps : Vector Half 128) (s : State) : ∃ ok : Bool,
    storeAndPush taps s = endCommand (if ok then .ok else .busError)
      (({ s with coeff := taps, coeffValid := true } : State).logTxn
        (.write s.params.firAddr (bytesOf taps.toList) ok)) := by
  unfold storeAndPush pushCoeff coeffBytes
  split
  · next h1 => rw [memWrite_state h1]; exact ⟨false, rfl⟩
  · next h1 => rw [memWrite_state h1]; exact ⟨true, rfl⟩

/-! ### Construction and geometry -/

/-- The seeding succeeds exactly when every queue has room. -/
theorem seedOverflows_false {k : Eight Nat} {qs : Eight DelayQueue} :
    seedOverflows k qs = false ↔ ∀ c, (qs.get c).count + k.get c ≤ 32 := by
  simp [seedOverflows]

theorem seed_cases (k : Eight Nat) (s : State) :
    (seed k s = none ∧ ∃ c, 32 < (s.queues.get c).count + k.get c) ∨
    (seed k s = some { s with queues := seeded k s.queues } ∧ ∀ c, (s.queues.get c).count + k.get c ≤ 32) := by
  unfold seed
  cases h : seedOverflows k s.queues
  · exact .inr ⟨rfl, seedOverflows_false.1 h⟩
  · refine .inl ⟨rfl, ?_⟩
    by_contra hc
    have := seedOverflows_false.2 fun c => not_lt.1 fun hlt => hc ⟨c, hlt⟩
    simp [h] at this

theorem calcDelays_cases (s : State) :
    calcDelaysBody s = raise .invalidInput s ∨ calcDelaysBody s = raise .queueFull s ∨
    ∃ k, (∀ c, (s.queues.get c).count + k.get c ≤ 32) ∧
      calcDelaysBody s = finish { s with queues := seeded k s.queues } := by
  unfold calcDelaysBody
  dsimp only
  split
  · exact .inl rfl
  · split
    · exact .inl rfl
    · next k _ =>
      rcases seed_cases k s with ⟨h, -⟩ | ⟨h, hk⟩ <;> rw [h]
      · exact .inr (.inl rfl)
      · exact .inr (.inr ⟨k, hk, rfl⟩)

/-- CALC_DELAYS of finite operands and finite geometry, with room for the delays in every queue. -/
theorem calcDelays_of_some (s : State) (k : Eight Nat) (haz : F64.isFinite (azimuthOperand s) = true)
    (hpol : F64.isFinite (polarOperand s) = true)
    (hk : geomDelays s.params (azimuthOperand s) (polarOperand s) s.rate = some k)
    (hroom : ∀ c, (s.queues.get c).count + k.get c ≤ 32) :
    calcDelaysBody s = finish { s with queues := seeded k s.queues } := by
  unfold calcDelaysBody seed
  simp only [haz, hpol, hk, seedOverflows_false.2 hroom, Bool.and_self, Bool.not_true, Bool.false_eq_true, if_false]

/-- The state in which INIT reads the rate configuration. -/
def beforeConfig (k : Eight Nat) (s : State) : State :=
  armed { constructed s with queues := seeded k (constructed s).queues }

theorem init_cases (s : State) :
    initBody s = raise .invalidInput (constructed s) ∨ initBody s = raise .queueFull (constructed s) ∨
    ∃ k, geomDelays s.params (F64.zero false) (F64.zero false) s.rate = some k ∧ (∀ c, k.get c ≤ 32) ∧
      initBody s = readRateConfig (beforeConfig k s) := by
  unfold initBody
  dsimp only
  split
  · exact .inl rfl
  · next k hk =>
    rcases seed_cases k (constructed s) with ⟨h, -⟩ | ⟨h, hc⟩ <;> rw [h]
    · exact .inr (.inl rfl)
    · refine .inr (.inr ⟨k, hk, fun c => ?_, rfl⟩)
      have := hc c
      simp [constructed] at this
      omega

/-! ### Queues -/

theorem enqueue_cases (c : Channel) (v : Half) (s : State) :
    ((s.queues.get c).count = 32 ∧ enqueueBody c v s = raise .queueFull s) ∨
    ((s.queues.get c).count ≠ 32 ∧
      enqueueBody c v s = finish { s with queues := s.queues.set c ((s.queues.get c).push v) }) := by
  unfold enqueueBody
  by_cases h : (s.queues.get c).count = 32
  · rw [DelayQueue.enq_full _ _ h]; exact .inl ⟨h, rfl⟩
  · rw [DelayQueue.enq_room _ _ h]; exact .inr ⟨h, rfl⟩

theorem dequeue_cases (c : Channel) (s : State) :
    ((s.queues.get c).count = 0 ∧ dequeueBody c s = raise .queueEmpty s) ∨
    ((s.queues.get c).count ≠ 0 ∧ dequeueBody c s = finish { s with
      queues := s.queues.set c (s.queues.get c).pop, result := (s.queues.get c).oldest.signExtend 32 }) := by
  unfold dequeueBody
  by_cases h : (s.queues.get c).count = 0
  · rw [DelayQueue.deq_empty _ h]; exact .inl ⟨h, rfl⟩
  · rw [DelayQueue.deq_some _ h]; exact .inr ⟨h, rfl⟩

/-! ### The capture cycle -/

/-- The microphone reads touch `raw` and the bus's part of the state alone; every transaction is a read of the
microphone register, and each row keeps NUM_SAMPLES samples. -/
theorem readChannels_state (ks : List Channel) : ∀ s : State, ∃ (raw : Eight (List Half)) (l : List BusTxn),
    (readChannels ks s).2 = { s with
      raw := raw, fpga := (readChannels ks s).2.fpga, draw := (readChannels ks s).2.draw, busLog := s.busLog ++ l } ∧
    (∀ x ∈ l, ∃ a, x = .read s.params.micAddr (2 * s.params.numSamples) a) ∧
    ∀ c, (s.raw.get c).length = s.params.numSamples → (raw.get c).length = s.params.numSamples := by
  induction ks with
  | nil => intro s; exact ⟨s.raw, [], by simp [readChannels], by simp, fun _ h => h⟩
  | cons k ks ih =>
    intro s
    unfold readChannels
    split
    · next s1 h =>
      obtain rfl := memRead_err h
      exact ⟨s.raw, [.read s.params.micAddr (2 * s.params.numSamples) none], by simp [State.logTxn], by simp,
        fun _ h => h⟩
    · next b s1 h =>
      obtain ⟨rfl, -⟩ := memRead_ok h
      obtain ⟨raw, l, e, hl, hr⟩ := ih { s.logTxn (.read s.params.micAddr (2 * s.params.numSamples) (some b)) with
        raw := s.raw.set k (halvesOf s.params.numSamples b) }
      refine ⟨raw, .read s.params.micAddr (2 * s.params.numSamples) (some b) :: l, ?_, ?_, fun c hc => hr c ?_⟩
      · refine Eq.trans e ?_
        simp [State.logTxn]
      · intro x hx
        rcases List.mem_cons.1 hx with rfl | hx
        · exact ⟨_, rfl⟩
        · exact hl x hx
      · show ((s.raw.set k _).get c).length = s.params.numSamples
        rw [Eight.get_set]
        split
        · simp
        · exact hc

/-- The state after the microphone reads of a capture cycle. -/
def micRead (s : State) (raw : Eight (List Half)) (fpga : List BusAnswer) (draw : Nat) (l : List BusTxn) : State :=
  { s with raw := raw, fpga := fpga, draw := draw, busLog := s.busLog ++ l }

/-- A capture cycle ends with BUS_ERROR, with QUEUE_FULL, or with the delayed block and the beam. -/
theorem capture_cases (s : State) : ∃ (raw : Eight (List Half)) (fpga : List BusAnswer) (draw : Nat) (l : List BusTxn),
    (∀ x ∈ l, ∃ a, x = .read s.params.micAddr (2 * s.params.numSamples) a) ∧
    (∀ c, (s.raw.get c).length = s.params.numSamples → (raw.get c).length = s.params.numSamples) ∧
    (captureBody s = raise .busError { micRead s raw fpga draw l with blockValid := false } ∨
     ((∃ c, (s.queues.get c).count = 32) ∧ captureBody s = raise .queueFull (micRead s raw fpga draw l)) ∨
     ((∀ c, (s.queues.get c).count ≠ 32) ∧
       captureBody s = finish { beamform (delayChannels (micRead s raw fpga draw l)) with blockValid := true })) := by
  obtain ⟨raw, l, e, hl, hr⟩ := readChannels_state channels s
  refine ⟨raw, (readChannels channels s).2.fpga, (readChannels channels s).2.draw, l, hl, hr, ?_⟩
  have e' : (readChannels channels s).2 =
      micRead s raw (readChannels channels s).2.fpga (readChannels channels s).2.draw l := e
  rcases h : readChannels channels s with ⟨ok, s1⟩
  rw [h] at e'
  change s1 = micRead s raw s1.fpga s1.draw l at e'
  show captureBody s = raise .busError { micRead s raw s1.fpga s1.draw l with blockValid := false } ∨ _
  generalize s1.fpga = f at *
  generalize s1.draw = d at *
  subst e'
  unfold captureBody
  rw [h]
  cases ok
  · exact .inl rfl
  · right
    dsimp only
    cases hq : anyQueueFull (micRead s raw f d l).queues
    · right
      refine ⟨fun c hc => ?_, rfl⟩
      simp only [anyQueueFull, channels_any_false] at hq
      have := hq c
      simp [micRead, hc] at this
    · left
      refine ⟨?_, rfl⟩
      simp only [anyQueueFull, channels_any] at hq
      obtain ⟨c, hc⟩ := hq
      exact ⟨c, by simpa [micRead] using hc⟩

theorem captureIssue_cases (s : State) :
    (s.evtPend = true ∧ captureIssue s = captureBody { s with evtPend := false }) ∨
    (s.evtPend = false ∧ captureIssue s = { s with pend := some .capture }) := by
  unfold captureIssue
  cases h : s.evtPend
  · exact .inr ⟨rfl, rfl⟩
  · exact .inl ⟨rfl, rfl⟩

theorem dataReady_cases (s : State) :
    ((s.fatal = true ∨ s.evtEn = false) ∧ dataReadyEdge s = s) ∨
    (s.fatal = false ∧ s.evtEn = true ∧ s.pend = some .capture ∧
      dataReadyEdge s = captureBody { s with pend := none }) ∨
    (s.fatal = false ∧ s.evtEn = true ∧ s.pend = none ∧ dataReadyEdge s = { s with evtPend := true }) := by
  unfold dataReadyEdge
  cases hf : s.fatal <;> cases he : s.evtEn <;> simp
  rcases hp : s.pend with _ | ⟨⟨⟩⟩ <;> simp

/-! ### Every command -/

/-- Every command answers a next state. -/
theorem exec_next (i : Instr) (s : State) : ∃ t, exec i s = .next t := by
  cases i <;> exact ⟨_, rfl⟩

end Sys2Proof.Machine
end

