-- ==== Sys2Proof/Laws/Capture.lean ====
section
/-! SUPPORT. The eight microphone reads of a capture cycle, in terms of `ReadsOk`. -/

namespace Sys2Proof.Machine

/-- What a read returns depends on the bus's script and the draw counter alone. -/
theorem memRead_congr {addr n} {s s' : State} (h1 : s'.fpga = s.fpga) (h2 : s'.draw = s.draw) : (memRead addr n s').1 = (memRead addr n s).1 := by
  unfold memRead State.nextAnswer; rw [h1, h2]

/-- A good read of one state is a good read of every state that the bus cannot tell from it. -/
theorem memRead_some_congr {addr n b} {s s' s1 : State} (h1 : s'.fpga = s.fpga) (h2 : s'.draw = s.draw) (h : memRead addr n s = (some b, s1)) :
    memRead addr n s' = (some b, s'.logTxn (.read addr n (some b))) ∧ s1.fpga = s.fpga.tail ∧ s1.draw = s.draw + 1 := by
  have e : (memRead addr n s').1 = some b := by rw [memRead_congr h1 h2, h]
  obtain ⟨rfl, -⟩ := memRead_ok h
  refine ⟨?_, rfl, rfl⟩
  rw [Prod.ext_iff]; exact ⟨e, by rw [memRead_state, e]⟩

/-- So is a failing read. -/
theorem memRead_none_congr {addr n} {s s' s1 : State} (h1 : s'.fpga = s.fpga) (h2 : s'.draw = s.draw) (h : memRead addr n s = (none, s1)) :
    memRead addr n s' = (none, s'.logTxn (.read addr n none)) ∧ s1.fpga = s.fpga.tail ∧ s1.draw = s.draw + 1 := by
  have e : (memRead addr n s').1 = none := by rw [memRead_congr h1 h2, h]
  obtain rfl := memRead_err h
  refine ⟨?_, rfl, rfl⟩
  rw [Prod.ext_iff]; exact ⟨e, by rw [memRead_state, e]⟩

/-- `raw` after reads of the channels listed that returned these blocks. -/
def rawSet (N : Nat) : List Channel → List (List Byte) → Eight (List Half) → Eight (List Half)
  | k :: ks, b :: bs, raw => rawSet N ks bs (raw.set k (halvesOf N b))
  | _, _, raw => raw

/-- Good reads of all the channels listed (43_array_reader.md R146). -/
theorem readChannels_ok : ∀ (ks : List Channel) (blocks : List (List Byte)) (s s1 s' : State), ks.length = blocks.length →
    s'.fpga = s.fpga → s'.draw = s.draw → s'.params = s.params →
    ReadsOk s.params.micAddr (2 * s.params.numSamples) s blocks s1 →
    readChannels ks s' = (true, { s' with raw := rawSet s.params.numSamples ks blocks s'.raw, fpga := s1.fpga, draw := s1.draw, busLog := s'.busLog ++ blocks.map fun b => .read s.params.micAddr (2 * s.params.numSamples) (some b) }) := by
  intro ks
  induction ks with
  | nil =>
    intro blocks s s1 s' hl h1 h2 h3 hr
    cases blocks with
    | cons b bs => simp at hl
    | nil => 
      obtain rfl : s1 = s := hr
      simp [readChannels, rawSet, ← h1, ← h2]
  | cons k ks ih =>
    intro blocks s s1 s' hl h1 h2 h3 hr
    cases blocks with
    | nil => simp at hl
    | cons b bs =>
      obtain ⟨m, hm, hr⟩ := hr
      obtain ⟨e, e1, e2⟩ := memRead_some_congr h1 h2 hm
      have hp : m.params = s.params := by rw [(memRead_ok hm).1]; rfl
      rw [← hp] at hr
      unfold readChannels
      rw [h3, e]; dsimp only
      rw [ih bs m s1 _ (by simpa using hl) (by show s'.fpga.tail = _; rw [e1, h1]) (by show s'.draw + 1 = _; rw [e2, h2]) (by show s'.params = _; rw [h3, hp]) hr]
      simp [State.logTxn, rawSet, hp, h3]

/-- A read that fails after fewer good ones than channels: the loop stops there (R146). -/
theorem readChannels_err : ∀ (ks : List Channel) (blocks : List (List Byte)) (s s1 s2 s' : State), blocks.length < ks.length →
    s'.fpga = s.fpga → s'.draw = s.draw → s'.params = s.params →
    ReadsOk s.params.micAddr (2 * s.params.numSamples) s blocks s1 → memRead s.params.micAddr (2 * s.params.numSamples) s1 = (none, s2) →
    ∃ raw, readChannels ks s' = (false, { s' with raw := raw, fpga := s2.fpga, draw := s2.draw, busLog := s'.busLog ++ (blocks.map fun b => .read s.params.micAddr (2 * s.params.numSamples) (some b)) ++ [.read s.params.micAddr (2 * s.params.numSamples) none] }) := by
  intro ks
  induction ks with
  | nil => intro blocks s s1 s2 s' hl; simp at hl
  | cons k ks ih =>
    intro blocks s s1 s2 s' hl h1 h2 h3 hr hn
    cases blocks with
    | nil =>
      obtain rfl : s1 = s := hr
      obtain ⟨e, e1, e2⟩ := memRead_none_congr h1 h2 hn
      refine ⟨s'.raw, ?_⟩
      unfold readChannels
      rw [h3, e]; dsimp only
      simp [State.logTxn, e1, e2, h1, h2, h3]
    | cons b bs =>
      obtain ⟨m, hm, hr⟩ := hr
      obtain ⟨e, e1, e2⟩ := memRead_some_congr h1 h2 hm
      have hp : m.params = s.params := by rw [(memRead_ok hm).1]; rfl
      rw [← hp] at hr hn
      unfold readChannels
      rw [h3, e]; dsimp only
      obtain ⟨raw, hraw⟩ := ih bs m s1 s2 { s'.logTxn (.read s.params.micAddr (2 * s.params.numSamples) (some b)) with raw := (s'.logTxn (.read s.params.micAddr (2 * s.params.numSamples) (some b))).raw.set k (halvesOf (s'.logTxn (.read s.params.micAddr (2 * s.params.numSamples) (some b))).params.numSamples b) } (by simpa using hl) (by show s'.fpga.tail = _; rw [e1, h1]) (by show s'.draw + 1 = _; rw [e2, h2]) (by show s'.params = _; rw [h3, hp]) hr hn
      refine ⟨raw, ?_⟩
      rw [hraw]
      simp [State.logTxn, hp]
      exact h3

/-- After the eight reads channel `c` holds block `c`. -/
theorem rawSet_get (N : Nat) (blocks : List (List Byte)) (h : blocks.length = 8) (raw) (c : Channel) : (rawSet N channels blocks raw).get c = halvesOf N (blocks.getD c.val []) := by
  match blocks, h with
  | [b0, b1, b2, b3, b4, b5, b6, b7], _ =>
    simp only [channels, rawSet, Eight.get_set]
    fin_cases c <;> simp

/-- Sample `i` of a block is its bytes `2i` and `2i+1`, the low one first (20_memory.md R59). -/
theorem halvesOf_getD (N : Nat) (b : List Byte) (i : Nat) (h : i < N) : (halvesOf N b).getD i 0 = b.getD (2 * i + 1) 0 ++ b.getD (2 * i) 0 := by
  simp [halvesOf, h, halfAt, fromLe16]

/-- No queue stops a capture when every depth is at most 31 (42_delay_queue.md R125). -/
theorem noFull {s : State} (h : ∀ c, (s.queues.get c).count ≤ 31) : anyQueueFull s.queues = false := by
  unfold anyQueueFull; rw [channels_any_false]; intro c; have := h c; simp; omega

end Sys2Proof.Machine
end

