-- ==== Sys2Proof/Laws/Geometry.lean ====
section
/-! SUPPORT. The geometry function: its minimum, its finiteness test and the functions `sin64` and `cos64`
(41_delay_geometry.md R101, R103, 00_scope.md R13). -/

namespace Sys2Proof.Machine

open F64

/-- What `finiteOf` packs is finite. -/
theorem isFinite_finiteOf (f) : isFinite (finiteOf f) = true := by
  obtain ⟨s, e, m⟩ := f
  have h1 := e.isLt
  have h2 := m.isLt
  have hl : e.val * 2 ^ 52 + m.toNat < 2 ^ 63 := by omega
  simp only [finiteOf, isFinite, expField_pack _ hl, bne_iff_ne, ne_eq]
  omega

/-- A point that stands for a finite operand has finite results. -/
theorem trigPoint_finite {p x t} (h : trigPoint p x = some t) (hx : isFinite x = true) : isFinite t.sin = true ∧ isFinite t.cos = true := by
  have := List.find?_some h
  simp [hx] at this
  exact this.2

/-- The minimum is one of the eight distances, and none is less. -/
theorem minimum_spec (d : Eight F64) : ∃ c, minimum d = d.get c ∧ ∀ i, units (d.get c) ≤ units (d.get i) := by
  have key : ∀ (l : List F64) (m : F64), (l.foldl (fun m x => if F64.lt x m then x else m) m = m ∨ l.foldl (fun m x => if F64.lt x m then x else m) m ∈ l) ∧
      units (l.foldl (fun m x => if F64.lt x m then x else m) m) ≤ units m ∧ ∀ x ∈ l, units (l.foldl (fun m x => if F64.lt x m then x else m) m) ≤ units x := by
    intro l
    induction l with
    | nil => intro m; simp
    | cons a l ih =>
      intro m
      simp only [List.foldl_cons]
      obtain ⟨i1, i2, i3⟩ := ih (if F64.lt a m then a else m)
      by_cases h : F64.lt a m = true
      · have h' : units a < units m := by simpa [F64.lt] using h
        rw [if_pos h] at i1 i2 i3 ⊢
        refine ⟨?_, by omega, ?_⟩
        · rcases i1 with e | e
          · right; rw [e]; simp
          · right; exact List.mem_cons_of_mem _ e
        · intro x hx
          rcases List.mem_cons.1 hx with rfl | hx
          · exact i2
          · exact i3 x hx
      · have h' : units m ≤ units a := by simpa [F64.lt] using h
        rw [if_neg h] at i1 i2 i3 ⊢
        refine ⟨?_, by simpa using i2, ?_⟩
        · rcases i1 with e | e
          · exact .inl e
          · right; exact List.mem_cons_of_mem _ e
        · intro x hx
          rcases List.mem_cons.1 hx with rfl | hx
          · exact le_trans i2 h'
          · exact i3 x hx
  obtain ⟨k1, k2, k3⟩ := key d.toList d.c0
  have hmem : minimum d ∈ d.toList := by
    rcases k1 with e | e
    · rw [minimum, e]; exact Eight.mem_toList.2 ⟨0, rfl⟩
    · exact e
  obtain ⟨c, hc⟩ := Eight.mem_toList.1 hmem
  refine ⟨c, hc.symm, fun i => ?_⟩
  rw [hc]
  exact k3 _ (Eight.mem_toList.2 ⟨i, rfl⟩)

/-- What `GeomDelays` returns: each delay rounded, every distance and unrounded delay finite (R101, R103). -/
theorem geomDelays_some {p az pol fs k} (h : geomDelays p az pol fs = some k) :
    (∀ c, isFinite ((distances p az pol).get c) = true) ∧
    (∀ c, isFinite (unroundedDelay p fs (minimum (distances p az pol)) ((distances p az pol).get c)) = true) ∧
    ∀ c, k.get c = roundHalfAway (unroundedDelay p fs (minimum (distances p az pol)) ((distances p az pol).get c)) := by
  unfold geomDelays at h
  split at h
  · next hf =>
    simp only [Option.some.injEq] at h
    subst h
    simp only [geometryFinite, Bool.and_eq_true, List.all_eq_true, Eight.mem_toList, forall_exists_index, forall_apply_eq_imp_iff] at hf
    refine ⟨hf.1.2, fun c => ?_, fun c => ?_⟩
    · have := hf.2 c
      simpa [unroundedDelays] using this
    · simp [unroundedDelays]
  · simp at h

/-- A delay of no magnitude rounds to 0 (R102). -/
theorem roundHalfAway_zero {t : F64} (h : mag t = 0) : roundHalfAway t = 0 := by
  unfold roundHalfAway
  rw [h, Nat.mul_zero, Nat.zero_add]
  apply Nat.div_eq_of_lt
  exact Nat.pow_lt_pow_right (by decide) (by decide)

/-- A finite value less itself is +0. -/
theorem sub_self_finite {x : F64} (hx : isFinite x = true) : sub x x = zero false := by
  have : isNaN x = false := by simp_all [isFinite, isNaN]
  have : isInf x = false := by simp_all [isFinite, isInf]
  have h3 : isNaN (neg x) = false := by simp_all [isFinite, isNaN]
  have h4 : isInf (neg x) = false := by simp_all [isFinite, isInf]
  simp [sub, add, *, addFinite]

end Sys2Proof.Machine
end

