-- ==== Sys2Proof/Laws/HostPort.lean ====
section
/-! SUPPORT. The host port and the step: which accesses are served (20_memory.md R51 to R56), and what each input does. -/

namespace Sys2Proof.Machine

/-! ### The step -/

theorem step_nil {s : State} (h : s.inputs = []) : step s = .next (idle s) := by
  unfold step; rw [h]

theorem step_cons {s : State} {i : Input} {rest : List Input} (h : s.inputs = i :: rest) :
    step s = serve i (takeInput rest s) := by
  unfold step; rw [h]

/-! ### The map -/

/-- The offset of a register, as R52 lists it. -/
def HostReg.offset : HostReg → Nat
  | .cmd => 0x0000
  | .status => 0x0004
  | .arg0 => 0x0008
  | .arg1 => 0x000C
  | .result => 0x0010
  | .gain => 0x0014
  | .rate => 0x0018
  | .depth c => 0x0020 + 4 * c.val
  | .coeff k => 0x0100 + 4 * k.val
  | .custom k => 0x0200 + 4 * k.val
  | .delayed c k => 0x4000 + 0x800 * c.val + 4 * k
  | .beam k => 0x8000 + 4 * k

/-- Whether a register is in the map: the DELAYED and BEAM windows end at word NUM_SAMPLES/2 (R52, R53). -/
def HostReg.inMap (numSamples : Nat) : HostReg → Prop
  | .delayed _ k | .beam k => k < numSamples / 2
  | _ => True

/-- One row of the map, taken or passed over. -/
theorem of_ite_some {P : Prop} [Decidable P] {a b : Option HostReg} {r : HostReg}
    (h : (if P then a else b) = some r) : P ∧ a = some r ∨ ¬ P ∧ b = some r := by
  by_cases c : P
  · exact .inl ⟨c, by rwa [if_pos c] at h⟩
  · exact .inr ⟨c, by rwa [if_neg c] at h⟩

/-- What stands at an aligned offset stands there in R52. -/
theorem hostReg_offset {n : Nat} {o : BitVec 16} {r : HostReg} (ha : o.toNat % 4 = 0) (h : hostReg n o = some r) :
    o.toNat = r.offset ∧ r.inMap n := by
  have ho := o.isLt
  unfold hostReg at h
  dsimp only at h
  generalize o.toNat = m at *
  -- The seven single registers, then the rows of the map in rising order, each either a gap or a window.
  iterate 7
    obtain ⟨c, h⟩ | ⟨-, h⟩ := of_ite_some h
    · cases h; exact ⟨c, trivial⟩
  obtain ⟨-, h⟩ | ⟨c, h⟩ := of_ite_some h
  · cases h
  obtain ⟨c', h⟩ | ⟨-, h⟩ := of_ite_some h
  · cases h; exact ⟨by show m = 0x0020 + 4 * ((m - 0x0020) / 4 % 8); omega, trivial⟩
  obtain ⟨-, h⟩ | ⟨c, h⟩ := of_ite_some h
  · cases h
  obtain ⟨c', h⟩ | ⟨c, h⟩ := of_ite_some h
  · cases h; exact ⟨by show m = 0x0100 + 4 * ((m - 0x0100) / 4 % 64); omega, trivial⟩
  obtain ⟨c', h⟩ | ⟨-, h⟩ := of_ite_some h
  · cases h; exact ⟨by show m = 0x0200 + 4 * ((m - 0x0200) / 4 % 64); omega, trivial⟩
  obtain ⟨-, h⟩ | ⟨c, h⟩ := of_ite_some h
  · cases h
  obtain ⟨c', h⟩ | ⟨c', h⟩ := of_ite_some h <;> obtain ⟨w, h⟩ | ⟨-, h⟩ := of_ite_some h <;> cases h
  · exact ⟨by show m = 0x4000 + 0x800 * ((m - 0x4000) / 0x800 % 8) + 4 * (m % 0x800 / 4); omega, w⟩
  · exact ⟨by show m = 0x8000 + 4 * ((m - 0x8000) / 4); omega, w⟩

/-- Every register of the map stands at its offset; the two windows of samples need NUM_SAMPLES to be allowed. -/
theorem hostReg_at {n : Nat} (r : HostReg) (hr : r.inMap n) (hn : n ≤ 1024 ∨ ∀ m, r.inMap m) :
    hostReg n (BitVec.ofNat 16 r.offset) = some r ∧ (BitVec.ofNat 16 r.offset).toNat = r.offset ∧
    r.offset % 4 = 0 := by
  have key : ∀ m, m < 0x10000 → (BitVec.ofNat 16 m).toNat = m := fun m h => by
    rw [BitVec.toNat_ofNat]; exact Nat.mod_eq_of_lt h
  have fin : ∀ {k : Nat} (c : Fin k) (m : Nat) [NeZero k], m = c.val → Fin.ofNat k m = c := by
    intro k c m _ h
    apply Fin.ext
    simp [Fin.ofNat, h, Nat.mod_eq_of_lt c.isLt]
  cases r
  case depth c =>
    have hc := c.isLt
    have e := key (0x0020 + 4 * c.val) (by omega)
    refine ⟨?_, e, by simp only [HostReg.offset]; omega⟩
    simp (disch := omega) only [hostReg, HostReg.offset, e, if_pos, if_neg, fin c]
  case coeff k =>
    have hc := k.isLt
    have e := key (0x0100 + 4 * k.val) (by omega)
    refine ⟨?_, e, by simp only [HostReg.offset]; omega⟩
    simp (disch := omega) only [hostReg, HostReg.offset, e, if_pos, if_neg, fin k]
  case custom k =>
    have hc := k.isLt
    have e := key (0x0200 + 4 * k.val) (by omega)
    refine ⟨?_, e, by simp only [HostReg.offset]; omega⟩
    simp (disch := omega) only [hostReg, HostReg.offset, e, if_pos, if_neg, fin k]
  case delayed c k =>
    have hc := c.isLt
    have hk : k < n / 2 := hr
    have hn' : n ≤ 1024 := hn.resolve_right fun h => absurd (h 0) (by simp [HostReg.inMap])
    have e := key (0x4000 + 0x800 * c.val + 4 * k) (by omega)
    refine ⟨?_, e, by simp only [HostReg.offset]; omega⟩
    simp (disch := omega) only [hostReg, HostReg.offset, e, if_pos, if_neg, fin c,
      show (0x4000 + 0x800 * c.val + 4 * k) % 0x800 / 4 = k by omega]
  case beam k =>
    have hk : k < n / 2 := hr
    have hn' : n ≤ 1024 := hn.resolve_right fun h => absurd (h 0) (by simp [HostReg.inMap])
    have e := key (0x8000 + 4 * k) (by omega)
    refine ⟨?_, e, by simp only [HostReg.offset]; omega⟩
    simp (disch := omega) only [hostReg, HostReg.offset, e, if_pos, if_neg, Nat.add_sub_cancel_left,
      Nat.mul_div_cancel_left]
  all_goals exact ⟨rfl, rfl, rfl⟩

/-! ### Which accesses are served -/

theorem served_misaligned (s : State) {o : BitVec 16} {b : Nat} (h : o.toNat % 4 ≠ 0 ∨ b ≠ 32) (d : Direction) :
    served s o b d = none := by
  unfold served; rw [if_pos h]

/-- An aligned 32-bit access is served exactly when its register exists, allows the direction and is not guarded. -/
theorem served_aligned (s : State) {o : BitVec 16} (h : o.toNat % 4 = 0) (d : Direction) :
    served s o 32 d = (hostReg s.params.numSamples o).bind fun r =>
      if r.allows d && guardOpen s r d then some r else none := by
  unfold served
  rw [if_neg (by simp [h])]
  cases hostReg s.params.numSamples o <;> rfl

/-- What a served access is served at, it may be accessed at. -/
theorem served_some {s : State} {o : BitVec 16} {b : Nat} {d : Direction} {r : HostReg} (h : served s o b d = some r) :
    o.toNat % 4 = 0 ∧ b = 32 ∧ hostReg s.params.numSamples o = some r ∧ r.allows d = true ∧ guardOpen s r d = true := by
  unfold served at h
  split at h
  · cases h
  · next ha =>
    rw [not_or, not_not, not_not] at ha
    split at h
    · cases h
    · next r' hr =>
      split at h
      · next hc =>
        cases h
        rw [Bool.and_eq_true] at hc
        exact ⟨ha.1, ha.2, hr, hc.1, hc.2⟩
      · cases h

/-- An access at a register's offset is served at it, in an allowed direction, with no guard closed. -/
theorem served_at {s : State} {r : HostReg} {d : Direction} (hr : r.inMap s.params.numSamples)
    (hn : s.params.numSamples ≤ 1024 ∨ ∀ m, r.inMap m) (ha : r.allows d = true) (hg : guardOpen s r d = true) :
    served s (BitVec.ofNat 16 r.offset) 32 d = some r := by
  obtain ⟨h1, h2, h3⟩ := hostReg_at r hr hn
  rw [served_aligned s (by rw [h2]; exact h3), h1]
  simp [ha, hg]

/-- While FATAL = 1 only a read of STATUS is served (R56, first guard). -/
theorem served_of_fatal {s : State} (hf : s.fatal = true) (o : BitVec 16) (b : Nat) (d : Direction) :
    served s o b d = if o = 0x0004#16 ∧ b = 32 ∧ d = .read then some .status else none := by
  split
  · next h =>
    obtain ⟨rfl, rfl, rfl⟩ := h
    rw [served_aligned s (by decide)]
    show (if (true && guardOpen s .status .read) = true then some HostReg.status else none) = _
    simp [guardOpen]
  · next h =>
    cases hs : served s o b d with
    | none => rfl
    | some r =>
      obtain ⟨ha, rfl, hr, -, hg⟩ := served_some hs
      simp only [guardOpen, hf, Bool.not_true, Bool.false_or, Bool.and_eq_true, beq_iff_eq] at hg
      obtain ⟨⟨rfl, rfl⟩, -⟩ := hg
      exact absurd ⟨BitVec.eq_of_toNat_eq (hostReg_offset ha hr).1, rfl, rfl⟩ h

/-- While FATAL = 0 a write to CMD is served: R204 decides what it does (R56). -/
theorem served_cmd_write {s : State} (hf : s.fatal = false) : served s 0x0000#16 32 .write = some .cmd :=
  served_at (r := .cmd) trivial (.inr fun _ => trivial) rfl (by simp [guardOpen, hf])

/-! ### Host accesses -/

/-- A write that is not served gets an error response and writes nothing else (R51 to R56). -/
theorem hostWrite_refused {s : State} {o : BitVec 16} {b : Nat} (h : served s o b .write = none) (w : Word) :
    hostWrite o b w s = .next { s with reply := .error } := by
  unfold hostWrite; rw [h]

theorem hostWrite_cmd {s : State} (hf : s.fatal = false) (w : Word) : hostWrite 0x0000#16 32 w s = writeCmd w s := by
  unfold hostWrite; rw [served_cmd_write hf]

/-- A read that is not served gets an error response (R51 to R56). -/
theorem readReply_refused {s : State} {o : BitVec 16} {b : Nat} (h : served s o b .read = none) :
    readReply s o b = .error := by
  unfold readReply; rw [h]

theorem readReply_served {s : State} {o : BitVec 16} {b : Nat} {r : HostReg} (h : served s o b .read = some r) :
    readReply s o b = .data (readReg s r) := by
  unfold readReply; rw [h]

/-- A write is refused, stores into ARG0, ARG1 or the staging buffer, or goes to CMD (R52, R57). -/
theorem hostWrite_cases (o : BitVec 16) (b : Nat) (w : Word) (s : State) :
    hostWrite o b w s = .next { s with reply := .error } ∨
    hostWrite o b w s = .next { s with arg0 := w, reply := .ack } ∨
    hostWrite o b w s = .next { s with arg1 := w, reply := .ack } ∨
    (∃ k, hostWrite o b w s = .next { s with staging := writeCustom k w s.staging, reply := .ack }) ∨
    (o = 0x0000#16 ∧ b = 32 ∧ s.fatal = false ∧ hostWrite o b w s = writeCmd w s) := by
  rcases h : served s o b .write with _ | r
  · exact .inl (hostWrite_refused h w)
  · obtain ⟨ha, rfl, hr, -, hg⟩ := served_some h
    unfold hostWrite
    rw [h]
    cases r
    case cmd =>
      refine .inr (.inr (.inr (.inr ⟨BitVec.eq_of_toNat_eq (hostReg_offset ha hr).1, rfl, ?_, rfl⟩)))
      cases hf : s.fatal
      · rfl
      · simp [guardOpen, hf] at hg
    case arg0 => exact .inr (.inl rfl)
    case arg1 => exact .inr (.inr (.inl rfl))
    case custom k => exact .inr (.inr (.inr (.inl ⟨k, rfl⟩)))
    all_goals exact .inl rfl

/-- An accepted write to CMD is refused while BUSY, ends with ILLEGAL_COMMAND, or runs its command
(60_exceptions.md R204). -/
theorem writeCmd_cases (w : Word) (s : State) :
    (s.busy = true ∧ writeCmd w s = .next { s with reply := .error }) ∨
    (s.busy = false ∧ (∃ e, decode w = .error e) ∧
      writeCmd w s = .next (raise .illegalCommand { s with reply := .ack })) ∨
    (s.busy = false ∧ ∃ i, decode w = .ok i ∧ writeCmd w s = exec i { s with reply := .ack }) := by
  unfold writeCmd issue
  cases s.busy
  · right
    cases hd : decode w with
    | error e => exact .inl ⟨rfl, ⟨e, rfl⟩, rfl⟩
    | ok i => exact .inr ⟨rfl, i, rfl, rfl⟩
  · exact .inl ⟨rfl, rfl⟩

/-- Everything a step can do: nothing arrived; a read was answered; a write was refused, stored, or accepted by CMD; an
edge; a reset. -/
theorem step_cases {s t : State} (h : step s = .next t) :
    (s.inputs = [] ∧ t = idle s) ∨
    ∃ i rest, s.inputs = i :: rest ∧
      ((∃ o b, i = .hostRead o b ∧ t = hostRead o b (takeInput rest s)) ∨
       (i = .dataReady ∧ t = dataReadyEdge (takeInput rest s)) ∨
       (i = .reset ∧ t = resetEvent (takeInput rest s)) ∨
       ∃ o b w, i = .hostWrite o b w ∧
         (t = { takeInput rest s with reply := .error } ∨
          t = { takeInput rest s with arg0 := w, reply := .ack } ∨
          t = { takeInput rest s with arg1 := w, reply := .ack } ∨
          (∃ k, t = { takeInput rest s with staging := writeCustom k w s.staging, reply := .ack }) ∨
          (o = 0x0000#16 ∧ b = 32 ∧ s.fatal = false ∧ s.busy = false ∧
            (t = raise .illegalCommand { takeInput rest s with reply := .ack } ∨
             ∃ c, decode w = .ok c ∧ exec c { takeInput rest s with reply := .ack } = .next t)))) := by
  cases hi : s.inputs with
  | nil =>
    rw [step_nil hi] at h
    cases h
    exact .inl ⟨rfl, rfl⟩
  | cons i rest =>
    rw [step_cons hi] at h
    refine .inr ⟨i, rest, rfl, ?_⟩
    cases i with
    | hostRead o b => cases h; exact .inl ⟨o, b, rfl, rfl⟩
    | dataReady => cases h; exact .inr (.inl ⟨rfl, rfl⟩)
    | reset => cases h; exact .inr (.inr (.inl ⟨rfl, rfl⟩))
    | hostWrite o b w =>
      refine .inr (.inr (.inr ⟨o, b, w, rfl, ?_⟩))
      change hostWrite o b w (takeInput rest s) = _ at h
      rcases hostWrite_cases o b w (takeInput rest s) with e | e | e | ⟨k, e⟩ | ⟨rfl, rfl, hf, e⟩
      · rw [e] at h; cases h; exact .inl rfl
      · rw [e] at h; cases h; exact .inr (.inl rfl)
      · rw [e] at h; cases h; exact .inr (.inr (.inl rfl))
      · rw [e] at h; cases h; exact .inr (.inr (.inr (.inl ⟨k, rfl⟩)))
      · rw [e] at h
        rcases writeCmd_cases w (takeInput rest s) with ⟨-, e⟩ | ⟨hb, -, e⟩ | ⟨hb, c, hd, e⟩
        · rw [e] at h; cases h; exact .inl rfl
        · rw [e] at h; cases h; exact .inr (.inr (.inr (.inr ⟨rfl, rfl, hf, hb, .inl rfl⟩)))
        · rw [e] at h; exact .inr (.inr (.inr (.inr ⟨rfl, rfl, hf, hb, .inr ⟨c, hd, h⟩⟩)))

end Sys2Proof.Machine
end

