-- ==== Sys2Proof/Laws/Params.lean ====
section
/-! SUPPORT. The parameters of the machine that comes out of reset meet the spec's constraints, whatever the opaque
constants are. -/

namespace Sys2Proof.Machine

/-- R6, R7, R8 and R10 of 00_scope.md, and the model's readings of them (notes/assumptions/3 and 26), hold of
`Config.params` by construction. -/
theorem params_legal : Config.params.Legal := by
  have hpos : ∀ x : F64, F64.isFinite x = true ∧ F64.sign x = false ∧ F64.expField x ≠ 0 → F64.Positive x := by
    rintro x ⟨a, b, c⟩
    refine ⟨a, b, ?_⟩
    unfold F64.mag F64.sig
    rw [if_neg c]
    exact Nat.mul_pos (by positivity) (Nat.pow_pos (by decide))
  have rows : ∀ e ∈ Config.params.freqTable, ∃ i, e = Config.freqRow i := by
    intro e he
    simp only [Config.params, List.mem_map] at he
    obtain ⟨i, -, rfl⟩ := he; exact ⟨i, rfl⟩
  have h1 := Config.halfSamplesLessOne.isLt
  refine ⟨?_, ?_, ?_, by simp [Config.params], ?_, ?_, ?_, ?_, ?_, hpos _ (by decide), hpos _ (by decide)⟩
  · simp [Config.params]
  · simp [Config.params]
  · simp [Config.params]; omega
  · intro e he
    obtain ⟨i, rfl⟩ := rows e he
    simp only [Config.freqRow]
    split
    · decide
    · have := (Config.rateAbove8000 i).isLt
      rw [BitVec.toNat_ofNat]; omega
  · refine ⟨Config.freqRow Config.row16000, ?_, ?_⟩
    · simp [Config.params]
    · simp [Config.freqRow]
  · intro e he hr
    obtain ⟨i, rfl⟩ := rows e he
    simp only [Config.freqRow] at hr ⊢
    rw [if_pos hr]
  · simp [Config.params]; have := Config.firRowCount.isLt; omega
  · intro f hf
    simp only [Config.params, List.mem_map] at hf
    obtain ⟨i, -, rfl⟩ := hf
    intro h
    have hi := (Config.firRateLessOne i).isLt
    replace h := congrArg BitVec.toNat h
    change ((Config.firRateLessOne i).val + 1) % 2 ^ 32 = 0 at h
    omega

end Sys2Proof.Machine
end

