-- ==== Sys2Proof/Laws/PerInstr.lean ====
section
/-! SUPPORT. The facts proved command by command: every command is well-formed, as every channel is a channel. -/

namespace Sys2Proof.Laws.WellFormed

/-- The command's word is legal (30_encoding.md R73). -/
def Statement (i : Instr) : Prop := i.wellFormed = true

theorem init : Statement .init := by rfl
theorem readSampleRate : Statement .readSampleRate := by rfl
theorem writeSampleRate : Statement .writeSampleRate := by rfl
theorem selectFirCoeff : Statement .selectFirCoeff := by rfl
theorem setCustomFirCoeff : Statement .setCustomFirCoeff := by rfl
theorem calcDelays : Statement .calcDelays := by rfl
theorem capture : Statement .capture := by rfl
theorem enqueue (ch : Channel) : Statement (.enqueue ch) := by revert ch; unfold Statement; decide
theorem dequeue (ch : Channel) : Statement (.dequeue ch) := by revert ch; unfold Statement; decide

end Sys2Proof.Laws.WellFormed
end

