-- ==== Sys2Proof/Machine/HostProgram.lean ====
section
/-! DEFINITION. The host's side of a program: the accesses that the spec's syntax and its pseudo-instructions stand for
(30_encoding.md R78, R79). MICCORE does not see them as such; a program is the list of inputs they expand to. -/

namespace Sys2Proof.Machine

/-- A pseudo-instruction (R79). Angles and rates are 32-bit patterns, taps and samples 16-bit patterns. -/
inductive Pseudo where
  | init
  | rdsr
  | wrsr (rate : Word)
  | selfir
  | setfir (taps : Vector Half 128)
  | calc (az pol : Word)
  /-- CAPTURE, then POLL: as many reads of STATUS as it takes until BUSY = 0. -/
  | capture (polls : Nat)
  | enq (c : Channel) (v : Half)
  | deq (c : Channel)
  /-- `chk` reads STATUS; that the program stops at an error is the host's own act. -/
  | chk
  deriving DecidableEq, Repr

/-- `W <reg>, <value>` and `R <reg>`: one aligned 32-bit access (R78). -/
def hostW (offset : BitVec 16) (value : Word) : Input := .hostWrite offset 32 value
def hostR (offset : BitVec 16) : Input := .hostRead offset 32

/-- The write of CUSTOM[k] that stages taps `2k` and `2k+1` (R79). -/
def stageTaps (taps : Vector Half 128) (k : Nat) : Input :=
  hostW (BitVec.ofNat 16 (0x0200 + 4 * k)) (windowWord taps.toList k)

/-- The write of a command to CMD (R78). -/
def hostIssue (i : Instr) : Input := hostW 0x0000 (encode i)

/-- The accesses a pseudo-instruction stands for (R79). -/
def Pseudo.expand : Pseudo → List Input
  | .init => [hostIssue .init]
  | .rdsr => [hostIssue .readSampleRate, hostR 0x0010]
  | .wrsr rate => [hostW 0x0008 rate, hostIssue .writeSampleRate]
  | .selfir => [hostIssue .selectFirCoeff]
  | .setfir taps => (List.range 64).map (stageTaps taps) ++ [hostIssue .setCustomFirCoeff]
  | .calc az pol => [hostW 0x0008 az, hostW 0x000C pol, hostIssue .calcDelays]
  | .capture polls => hostIssue .capture :: List.replicate polls (hostR 0x0004)
  | .enq c v => [hostW 0x0008 (v.setWidth 32), hostIssue (.enqueue c)]
  | .deq c => [hostIssue (.dequeue c), hostR 0x0010]
  | .chk => [hostR 0x0004]

end Sys2Proof.Machine
end

