-- ==== Sys2Proof/Tests/Slice0.lean ====
section
/-! SUPPORT. Tests of one step each, their expected values taken from 95_test_vectors.md and 30_encoding.md, and for each
statement with hypotheses a witness that meets them together. -/

namespace Sys2Proof.Tests

set_option Elab.async false

open Sys2Proof.Machine

/-! ### The test configuration TC of 95_test_vectors.md, and states -/

/-- `sqrt64(800.0)`, the bits that 95_test_vectors.md gives. -/
def micA : F64 := 0x403C48C6001F0AC0#64

/-- 40.0. -/
def micR : F64 := 0x4044000000000000#64

/-- Microphones on the axes and the diagonals. -/
def circle (r a : F64) : Eight MicPos :=
  let z := F64.zero false
  ⟨⟨r, z⟩, ⟨a, a⟩, ⟨z, r⟩, ⟨F64.neg a, a⟩, ⟨F64.neg r, z⟩, ⟨F64.neg a, F64.neg a⟩, ⟨z, F64.neg r⟩, ⟨a, F64.neg a⟩⟩

/-- TC. The one point of `sin64` and `cos64` is the operand f32(1.5707964) with a faithful libm's results. -/
def tc : Params where
  numSamples := 4
  freqTable := [⟨8000, 1, 5⟩, ⟨12000, 3, 4⟩, ⟨16000, 2, 3⟩, ⟨22050, 4, 3⟩, ⟨24000, 5, 3⟩, ⟨32000, 6, 2⟩, ⟨44100, 7, 1⟩,
    ⟨48000, 8, 1⟩, ⟨96000, 9, 0⟩]
  firTable := [⟨16000, vectorOf 128 fun i => BitVec.ofNat 16 i - 64⟩,
    ⟨48000, vectorOf 128 fun i => if i = 0 then 32767 else 0⟩]
  micPos := circle micR micA
  srcDist := 0x4059000000000000#64
  soundSpeed := 0x4113880000000000#64
  defaultGain := 0
  defaultRate := 16000
  micAddr := 0x0100
  gainAddr := 0x0200
  rateConstAddr := 0x0202
  firAddr := 0x0300
  trig := [⟨0x3FF921FB60000000#64, 0x3FEFFFFFFFFFFFF7#64, 0xBE6777A5CF72CECC#64⟩]

/-- Microphones on the two axes, all at one computed distance from the centre. -/
def crossed : Params :=
  { tc with micPos := .ofFn fun c => if c.val % 2 = 0 then ⟨micR, F64.zero false⟩ else ⟨F64.zero true, F64.neg micR⟩ }

theorem tc_legal : tc.Legal := by
  constructor <;> first | decide +kernel | (constructor <;> decide +kernel)

/-- A queue of `n` elements with values from `f`, oldest first. -/
def filled (n : Nat) (f : Nat → Half) : DelayQueue := ⟨vectorOf 32 fun i => if i < n then f i else 0, 0, n⟩

/-- Under TC after reset, with 0 wherever reset leaves the contents open. -/
def fresh : State where
  err := .ok
  fatal := false
  pend := none
  evtPend := false
  evtEn := false
  inited := false
  blockValid := false
  coeffValid := false
  arg0 := 0
  arg1 := 0
  result := 0
  gain := 0
  rate := 16000
  queues := .ofFn fun _ => filled 0 fun _ => 0
  coeff := vectorOf 128 fun _ => 0
  staging := vectorOf 128 fun _ => 0
  raw := .ofFn fun _ => [0, 0, 0, 0]
  delayed := .ofFn fun _ => [0, 0, 0, 0]
  beam := [0, 0, 0, 0]
  params := tc
  inputs := []
  fpga := []
  busLog := []
  reply := .none
  draw := 0

/-- `fresh` after INIT with bus answers [03 00], [02 00] (95_test_vectors.md, part 2). -/
def ready : State := { fresh with inited := true, evtEn := true, gain := 3, result := 16000 }

/-- The host writes a command word next, and the FPGA bus answers so. -/
def cmd (w : Word) (s : State) (answers : List BusAnswer := []) : State :=
  { s with inputs := [cmdWrite w], fpga := answers }

/-- What holds of the state after one step. -/
def after {α : Type} (s : State) (f : State → α) : Option α :=
  match step s with
  | .next t => some (f t)
  | .fault _ | .refused _ => none

/-- The depths of the eight queues. -/
def depths (s : State) : List Nat := (s.queues.map DelayQueue.count).toList

/-- STATUS, GAIN, RATE and RESULT as the host reads them. -/
def registers (s : State) : List Word := [.status, .gain, .rate, .result].map (readReg s)

/-- The elements of the eight queues. -/
def elements (s : State) : List (List Half) := (s.queues.map DelayQueue.elements).toList

/-- Eight reads that return these bytes. -/
def eightReads (b : List Byte) : List BusAnswer := List.replicate 8 (.ok b)

/-- `ready` with a latched edge. -/
def edgeLatched : State := { ready with evtPend := true }

/-- `ready` with ARG0 = f32(1.5707964) and ARG1 = 0. -/
def steered : State := { ready with arg0 := 0x3FC90FDB }

/-- `ready` with a queue on channel `c`. -/
def withQueue (c : Channel) (q : DelayQueue) : State := { ready with queues := ready.queues.set c q }

/-! ### Well-formedness: an ill-formed word for each check of 30_encoding.md R73 -/

theorem test_wellFormed_refuses_reserved : CommandFields.legal ⟨0x01, 0, 1⟩ = false := by decide
theorem test_wellFormed_refuses_opcode_0 : CommandFields.legal ⟨0x00, 0, 0⟩ = false := by decide
theorem test_wellFormed_refuses_opcode_10 : CommandFields.legal ⟨0x0A, 0, 0⟩ = false := by decide
theorem test_wellFormed_refuses_channel : CommandFields.legal ⟨0x07, 1, 0⟩ = false := by decide
theorem test_wellFormed_accepts_enqueue_7 : CommandFields.legal ⟨0x08, 7, 0⟩ = true := by decide

/-! ### Decoding: words written out from R70 and R71 -/

theorem test_decode_init : decode 0x00000001#32 = .ok .init := by decide
theorem test_decode_readSampleRate : decode 0x00000002#32 = .ok .readSampleRate := by decide
theorem test_decode_writeSampleRate : decode 0x00000003#32 = .ok .writeSampleRate := by decide
theorem test_decode_selectFirCoeff : decode 0x00000004#32 = .ok .selectFirCoeff := by decide
theorem test_decode_setCustomFirCoeff : decode 0x00000005#32 = .ok .setCustomFirCoeff := by decide
theorem test_decode_calcDelays : decode 0x00000006#32 = .ok .calcDelays := by decide
theorem test_decode_capture : decode 0x00000007#32 = .ok .capture := by decide
/-- EN4, EN5; P6's ENQUEUE 4. -/
theorem test_decode_enqueue : decode 0x00000708#32 = .ok (.enqueue 7) ∧ decode 0x00000408#32 = .ok (.enqueue 4) := by
  decide
theorem test_decode_dequeue : decode 0x00000709#32 = .ok (.dequeue 7) ∧ decode 0x00000209#32 = .ok (.dequeue 2) := by
  decide
/-- EN6, EN7, EN8, EN10, EN11, EN12. -/
theorem test_decode_refuses : decode 0x00000801#32 = .error .reservedBits ∧ decode 0x00000101#32 = .error .channel ∧
    decode 0x00000000#32 = .error .opcode ∧ decode 0x000000FF#32 = .error .opcode ∧
    decode 0x00010007#32 = .error .reservedBits ∧ decode 0x80000009#32 = .error .reservedBits := by decide
/-- The bytes of a word stand lane 0 first (20_memory.md R51). -/
theorem test_decodeBytes : decodeBytes [0x08, 0x07, 0x00, 0x00] = .ok (.enqueue 7) ∧
    decodeBytes [0x08, 0x07, 0x00] = .error .length := by decide
theorem test_decodeTableWord : decodeTableWord 32 0x00000309 = some (.dequeue 3) ∧
    decodeTableWord 32 0x00010007 = none := by decide
/-- The host's way to run a word right after reset. -/
theorem test_fetch_runs_the_word : step (State.reset.withFetchWord 32 0x00000708) =
    exec (.enqueue 7) { State.reset with reply := .ack } := by rfl

/-- R79's expansions of `calc`, `enq` and `setfir`, with R72's and R182's example words. -/
theorem test_pseudo_expands :
    Pseudo.expand (.calc 0x3FC90FDB 0) = [.hostWrite 0x0008 32 0x3FC90FDB, .hostWrite 0x000C 32 0, cmdWrite 0x00000006] ∧
    Pseudo.expand (.enq 2 0xFFFF) = [.hostWrite 0x0008 32 0x0000FFFF, cmdWrite 0x00000208] ∧
    (Pseudo.expand (.setfir (vectorOf 128 fun i => if i = 0 then 0x7FFF else if i = 1 then 0x8000 else 0))).take 2 =
      [.hostWrite 0x0200 32 0x80007FFF, .hostWrite 0x0204 32 0] := by decide +kernel

/-! ### Commands -/

/-- RD1. -/
theorem test_init : after (cmd 0x00000001 fresh [.ok [0x03, 0x00], .ok [0x02, 0x00]])
    (fun t => (registers t, depths t, t.busLog)) = some ([0x180, 3, 16000, 16000], [0, 0, 0, 0, 0, 0, 0, 0],
      [.read 0x0200 2 (some [0x03, 0x00]), .read 0x0202 2 (some [0x02, 0x00])]) := by decide +kernel
/-- RD3. -/
theorem test_init_unknown_constant : after (cmd 0x00000001 fresh [.ok [0x03, 0x00], .ok [0x00, 0x00]])
    registers = some [0x181, 0, 16000, 0] := by decide +kernel
/-- RD2's answers, to READ_SAMPLE_RATE: the gain read, not the row's. -/
theorem test_readSampleRate : after (cmd 0x00000002 ready [.ok [0x07, 0x00], .ok [0x08, 0x00]])
    registers = some [0x180, 7, 48000, 48000] := by decide +kernel
/-- RD4. -/
theorem test_readSampleRate_bus_error : after (cmd 0x00000002 ready [.err])
    (fun t => (registers t, t.busLog)) = some ([0x182, 3, 16000, 16000], [.read 0x0200 2 none]) := by decide +kernel
/-- RD6. -/
theorem test_writeSampleRate : after (cmd 0x00000003 { ready with arg0 := 48000 } [.ok [], .ok []])
    (fun t => (registers t, t.busLog)) = some ([0x180, 1, 48000, 16000],
      [.write 0x0200 [0x01, 0x00] true, .write 0x0202 [0x08, 0x00] true]) := by decide +kernel
/-- RD8. -/
theorem test_writeSampleRate_second_write_fails : after (cmd 0x00000003 { ready with arg0 := 96000 } [.ok [], .err])
    (fun t => (registers t, t.busLog)) = some ([0x182, 3, 16000, 16000],
      [.write 0x0200 [0x00, 0x00] true, .write 0x0202 [0x09, 0x00] false]) := by decide +kernel
/-- F1. -/
theorem test_selectFirCoeff : after (cmd 0x00000004 ready [.ok []])
    (fun t => ([.status, .coeff 0, .coeff 31, .coeff 32, .coeff 63].map (readReg t),
      t.busLog == [.write 0x0300 (coeffBytes t.coeff) true], (coeffBytes t.coeff).take 4)) =
    some ([0x580, 0xFFC1FFC0, 0xFFFFFFFE, 0x00010000, 0x003F003E], true, [0xC0, 0xFF, 0xC1, 0xFF]) := by
  decide +kernel
/-- F2, and TC0's SELECT_FIR_COEFF at rate 0 (the notes on the geometry vectors). -/
theorem test_selectFirCoeff_no_row : ([8000, 0] : List Word).map (fun r =>
    after (cmd 0x00000004 { ready with rate := r } [.ok []]) fun t => (t.status, t.busLog)) =
    [some (0x181, []), some (0x181, [])] := by decide +kernel
/-- F6. -/
theorem test_setCustomFirCoeff :
    after (cmd 0x00000005 { ready with staging := writeCustom 0 0x80007FFF ready.staging } [.ok []])
      (fun t => (t.status, readReg t (.coeff 0), readReg t (.coeff 1), t.busLog)) =
    some (0x580, 0x80007FFF, 0,
      [.write 0x0300 ([0xFF, 0x7F, 0x00, 0x80] ++ List.replicate 252 0x00) true]) := by decide +kernel
/-- G2. -/
theorem test_calcDelays : after (cmd 0x00000006 steered) (fun t => (t.status, depths t)) =
    some (0x180, [0, 1, 2, 4, 4, 4, 2, 1]) := by decide +kernel
/-- G10. -/
theorem test_calcDelays_overflow : after (cmd 0x00000006 { steered with
      rate := 96000, queues := ⟨filled 0 fun _ => 0, filled 5 fun _ => 0, filled 14 fun _ => 0, filled 21 fun _ => 0,
        filled 24 fun _ => 0, filled 21 fun _ => 0, filled 14 fun _ => 0, filled 5 fun _ => 0⟩ })
    (fun t => (t.status, depths t)) = some (0x193, [0, 5, 14, 21, 24, 21, 14, 5]) := by decide +kernel
/-- Program P4. -/
theorem test_capture : after (cmd 0x00000007 edgeLatched (eightReads [0xFF, 0x7F, 0x00, 0x80, 0x00, 0x10, 0xFF, 0xFF]))
    (fun t => (t.status, readReg t (.beam 0), readReg t (.beam 1), readReg t (.delayed 4 0), t.busLog.length)) =
    some (0x380, 0x80007FFF, 0xFFF87FFF, 0x80007FFF, 8) := by decide +kernel
/-- Program P3's second capture on channel 3: a depth of 4 delays the block by 4 samples. -/
theorem test_capture_delays : after (cmd 0x00000007
      { withQueue 3 (filled 4 fun i => if i = 0 then 1000 else 0) with evtPend := true }
      (eightReads [0x05, 0x00, 0x06, 0x00, 0x07, 0x00, 0x08, 0x00]))
    (fun t => (t.delayed.get 3, t.delayed.get 2, (elements t)[3]?, t.beam)) =
    some ([1000, 0, 0, 0], [5, 6, 7, 8], some [5, 6, 7, 8], [1035, 42, 49, 56]) := by decide +kernel
/-- Q3's operand. -/
theorem test_enqueue : after (cmd 0x00000208 { withQueue 2 (filled 1 fun _ => 0x1234) with arg0 := 0x00018000 })
    (fun t => (t.status, elements t, t.result)) =
    some (0x180, [[], [], [0x1234, 0x8000], [], [], [], [], []], 16000) := by decide +kernel
/-- Q5. -/
theorem test_enqueue_full : after (cmd 0x00000008 { withQueue 0 (filled 32 fun i => BitVec.ofNat 16 (i + 1)) with
      arg0 := 33 })
    (fun t => (t.status, depths t)) = some (0x193, [32, 0, 0, 0, 0, 0, 0, 0]) := by decide +kernel
/-- Q2's second DEQUEUE. -/
theorem test_dequeue : after (cmd 0x00000209 (withQueue 2 (filled 1 fun _ => 0xFFFF)))
    (fun t => (t.status, t.result, depths t)) = some (0x180, 0xFFFFFFFF, [0, 0, 0, 0, 0, 0, 0, 0]) := by decide +kernel
/-- Q7. -/
theorem test_dequeue_empty : after (cmd 0x00000509 ready) (fun t => (t.status, t.result)) =
    some (0x194, 16000) := by decide +kernel

/-! ### The host port, the latch and reset -/

/-- EN2. -/
theorem test_gate : after (cmd 0x00000002 fresh [.ok []]) (fun t => (t.status, t.busLog, t.reply)) =
    some (0x005, [], .ack) := by decide +kernel
/-- EN13. -/
theorem test_busy_refuses : after (cmd 0x00000001 { ready with pend := some .capture }) (fun t => (t.status, t.reply)) =
    some (0x1A0, .error) := by decide +kernel
/-- RD10. -/
theorem test_capture_waits : after (cmd 0x00000007 ready) (fun t => (t.status, t.busLog)) = some (0x1A0, []) := by
  decide +kernel
/-- RD11. -/
theorem test_edge_runs_capture : after { ready with
      pend := some .capture, inputs := [.dataReady], fpga := [.ok [], .ok [], .ok [], .err] }
    (fun t => (t.status, t.busLog.length, depths t)) = some (0x182, 4, [0, 0, 0, 0, 0, 0, 0, 0]) := by decide +kernel
/-- RD12 and X3. -/
theorem test_edge_latched : after { ready with inputs := [.dataReady] } State.status = some 0x1C0 ∧
    after { fresh with inputs := [.dataReady] } State.status = some 0 := by decide +kernel
/-- X5. -/
theorem test_reset_abandons_capture : after { ready with pend := some .capture, inputs := [.reset] }
    (fun t => (t.status, depths t, t.pend, t.busLog)) = some (0, [0, 0, 0, 0, 0, 0, 0, 0], none, []) := by decide +kernel
/-- HP1 to HP5, HP7, HP8 and HP11. -/
theorem test_reads : readReply ready 0x0006 32 = .error ∧ readReply ready 0x0004 16 = .error ∧
    readReply ready 0x0000 32 = .error ∧ after { ready with inputs := [.hostWrite 0x0004 32 0] } State.reply = some .error ∧
    readReply ready 0x001C 32 = .error ∧ readReply ready 0x0100 32 = .error ∧
    readReply { ready with blockValid := true } 0x4008 32 = .error ∧ readReply ready 0x0014 32 = .data 3 := by
  decide +kernel
/-- HP9. -/
theorem test_custom_window : after { ready with inputs := [.hostWrite 0x0214 32 0xFFFE0003] }
    (fun t => (t.staging[10], t.staging[11], readReply t 0x0214 32)) = some (3, 0xFFFE, .data 0xFFFE0003) := by
  decide +kernel

/-! ### Arithmetic -/

/-- `f64(x32)`: f32(1.5707964) is 0x1.921fb6p+0 in both formats. -/
theorem test_widen : F64.ofBinary32 0x3FC90FDB = 0x3FF921FB60000000#64 ∧ F64.ofBinary32 0x80000000 = F64.zero true ∧
    F64.isNaN (F64.ofBinary32 0x7FC00000) = true := by decide +kernel
/-- TC: A = sqrt64(800.0). -/
theorem test_sqrt : F64.sqrt (F64.ofWord 800) = micA := by decide +kernel
/-- G2's distances, the decimals of 95_test_vectors.md as binary64. -/
theorem test_distances : (distances tc 0x3FF921FB60000000#64 0).toList =
    [0x404E000000000009#64, 0x405345E01075E27D#64, 0x405AED02CDD31070#64, 0x40606BB0EB0D00C8#64, 0x40617FFFFFFFFFFE#64,
      0x40606BB0EB0D00C8#64, 0x405AED02CDD31070#64, 0x405345E01075E27D#64] := by decide +kernel
/-- The table of R102: 0.0, 0.4999999999999999, 0.5, 1.5, 2.5, 3.5683. -/
theorem test_roundHalfAway : [0x0000000000000000#64, 0x3FDFFFFFFFFFFFFE#64, 0x3FE0000000000000#64, 0x3FF8000000000000#64,
    0x4004000000000000#64, 0x400C8BE0DED288CE#64].map F64.roundHalfAway = [0, 0, 1, 2, 3, 4] := by decide +kernel
/-- BF1, BF3, BF7 and BF10. -/
theorem test_beam : clamp16 (beamAcc (.ofFn fun _ => [0x7FFF]) 0) = 0x7FFF ∧
    clamp16 (beamAcc (.ofFn fun c => if c.val < 4 then [0x7FFF] else [0x8000]) 0) = 0xFFFC ∧
    clamp16 (beamAcc (.ofFn fun c => if c.val = 0 then [0x7FFF] else if c.val = 1 then [1] else [0]) 0) = 0x7FFF ∧
    clamp16 (beamAcc (.ofFn fun c => if c.val = 0 then [0x8000] else if c.val = 1 then [0xFFFF] else [0]) 0) = 0x8000 := by
  decide +kernel

/-! ### Witnesses: for each statement with hypotheses, states and operands that meet them, clause by clause -/

/-- `ready` with one input. -/
def given (i : Input) (s : State := ready) : State := { s with inputs := [i] }

def waiting : State := { ready with pend := some .capture }

def failed : State := { ready with err := .queueEmpty, fatal := true }

/-- `ready` after a capture and a filter command. -/
def loaded : State := { ready with blockValid := true, coeffValid := true }

theorem ready_inv : ready.Inv := by
  constructor <;> first | exact tc_legal | decide +kernel

theorem loaded_inv : loaded.Inv := by
  constructor <;> first | exact tc_legal | decide +kernel

theorem witness_IllegalWordsEndWithIllegalCommand : ∀ w ∈ [0x00000000#32, 0x0000000A#32, 0x000000FF#32, 0x00000801#32,
    0x80000001#32, 0x00000101#32, 0x00000707#32], illegalWord w ∧ (cmd w ready).inputs = cmdWrite w :: [] ∧
    (cmd w ready).fatal = false ∧ (cmd w ready).busy = false := by
  intro w hw; refine ⟨?_, rfl, rfl, rfl⟩; revert w; unfold illegalWord; simp

theorem witness_StepRunsTheWrittenCommand : ∃ (s : State) (w : Word) (i : Instr) (rest : List Input),
    s.inputs = cmdWrite w :: rest ∧ s.fatal = false ∧ s.busy = false ∧ decode w = .ok i :=
  ⟨cmd 0x00000708 ready, 0x00000708, .enqueue 7, [], by decide⟩

theorem witness_CmdWritePriority :
    (∃ (s : State) (w : Word) (rest : List Input), s.inputs = cmdWrite w :: rest ∧ s.fatal = true) ∧
    (∃ (s : State) (w : Word) (rest : List Input), s.inputs = cmdWrite w :: rest ∧ s.fatal = false ∧ s.busy = true) ∧
    (∃ (s : State) (w : Word) (rest : List Input), s.inputs = cmdWrite w :: rest ∧ s.fatal = false ∧ s.busy = false ∧
      ∃ e, decode w = .error e) ∧
    (∃ (s : State) (w : Word) (rest : List Input), s.inputs = cmdWrite w :: rest ∧ s.fatal = false ∧ s.busy = false ∧
      s.inited = false ∧ ∃ i, decode w = .ok i ∧ i ≠ .init) ∧
    ∃ (s : State) (w : Word) (rest : List Input), s.inputs = cmdWrite w :: rest ∧ s.fatal = false ∧ s.busy = false ∧
      ∃ i, decode w = .ok i :=
  ⟨⟨cmd 1 failed, 1, [], by decide⟩, ⟨cmd 1 waiting, 1, [], by decide⟩,
    ⟨cmd 0 ready, 0, [], by decide, by decide, by decide, .opcode, by decide⟩,
    ⟨cmd 7 fresh, 7, [], by decide, by decide, by decide, by decide, .capture, by decide⟩,
    ⟨cmd 1 ready, 1, [], by decide, by decide, by decide, .init, by decide⟩⟩

theorem witness_InitedGate : fresh.inited = false ∧ Instr.capture ≠ .init ∧ fresh.busy = false := by decide

theorem witness_ResetEventClearsState : (given .reset waiting).inputs = .reset :: [] := by decide

theorem witness_StepKeepsInvariant : ∃ s t : State, s.Inv ∧ step s = .next t := ⟨loaded, _, loaded_inv, rfl⟩

theorem witness_FatalStateLeftOnlyByReset : ∀ i ∈ [Input.reset, .dataReady, cmdWrite 1, .hostRead 0x0004 32,
    .hostRead 0x0018 32], (given i failed).fatal = true ∧ (given i failed).inputs = i :: [] ∧ failed.inputs = [] := by decide

theorem witness_ErrorResponseChangesNothing : ∃ (s t : State) (i : Input) (rest : List Input),
    s.inputs = i :: rest ∧ step s = .next t ∧ t.reply = .error :=
  ⟨given (.hostRead 0x0006 32), _, _, _, rfl, rfl, by decide⟩

theorem listed_beam : listedOffset 4 0x8004 := by unfold listedOffset; exact .inr (.inr (.inr (.inr (.inr ⟨1, by decide⟩))))

theorem not_listed : ¬ listedOffset 4 0x001C ∧ ¬ listedOffset 4 0x4008 ∧ ¬ listedOffset 4 0x8008 := by
  refine ⟨?_, ?_, ?_⟩ <;>
    rintro (h | ⟨c, hc, h⟩ | ⟨k, hk, h⟩ | ⟨k, hk, h⟩ | ⟨c, hc, k, hk, h⟩ | ⟨k, hk, h⟩) <;>
    first | omega | exact absurd h (by decide)

theorem witness_MisalignedNarrowAndReservedAccessesRefused : tc.Legal ∧
    (0x0006#16).toNat % 4 ≠ 0 ∧ (16 : Nat) ≠ 32 ∧ ¬ listedOffset tc.numSamples (0x001C#16).toNat ∧
    ¬ listedOffset tc.numSamples (0x8008#16).toNat ∧ listedOffset tc.numSamples (0x8004#16).toNat ∧
    (0x8004#16) ≠ 0x0000#16 ∧ (given (.hostRead 0x8004 32) loaded).inputs = .hostRead 0x8004 32 :: [] ∧
    loaded.fatal = false ∧ loaded.blockValid = true ∧ loaded.coeffValid = true :=
  ⟨tc_legal, by decide, by decide, not_listed.1, not_listed.2.2, listed_beam, by decide, by decide, by decide, by decide,
    by decide⟩

theorem witness_WrongDirectionRefused : (given (.hostRead 0x0000 32)).inputs = .hostRead 0x0000#16 32 :: [] ∧
    ∀ o ∈ [0x0004#16, 0x0010#16, 0x01FC#16, 0x0300#16, 0x4000#16],
      (given (.hostWrite o 32 0)).inputs = .hostWrite o 32 0 :: [] ∧ o.toNat ∉ [0x0000, 0x0008, 0x000C] ∧
      (o.toNat < 0x0200 ∨ 0x0300 ≤ o.toNat) := by simp only [List.forall_mem_cons, List.not_mem_nil, false_implies, implies_true]; decide +kernel

theorem witness_AccessGuards :
    (failed.fatal = true ∧ (0x0018#16) ≠ 0x0004#16 ∧ (0x0018#16).toNat % 4 = 0) ∧
    (ready.blockValid = false ∧ 0x4000 ≤ (0x4000#16).toNat ∧ 0x4000 ≤ (0xFFFC#16).toNat) ∧
    (ready.coeffValid = false ∧ 0x0100 ≤ (0x0100#16).toNat ∧ (0x01FC#16).toNat < 0x0200) ∧
    (waiting.fatal = false ∧ 0x0020 ≤ (0x0020#16).toNat ∧ (0x003C#16).toNat < 0x0040 ∧
      0x0200 ≤ (0x0200#16).toNat ∧ (0x02FC#16).toNat < 0x0300) ∧
    (given (.hostRead 0x4000 32)).inputs = .hostRead 0x4000#16 32 :: [] ∧
    (given (.hostRead 0x0004 32) failed).inputs = .hostRead 0x0004#16 32 :: [] ∧
    (given (.hostWrite 0x0008 32 5) failed).inputs = .hostWrite 0x0008#16 32 5 :: [] ∧
    (given (.hostWrite 0x02FC 32 5) waiting).inputs = .hostWrite 0x02FC#16 32 5 :: [] := by decide

theorem witness_ReadsReturnTheRegisterMap : loaded.params.numSamples ≤ 1024 ∧ (∀ c, (loaded.queues.get c).count ≤ 32) ∧
    loaded.fatal = false ∧ loaded.coeffValid = true ∧ loaded.blockValid = true ∧ 1 < loaded.params.numSamples / 2 := by
  decide

theorem witness_HostPortSideEffects : (given (.hostRead 0x0004 32)).inputs = .hostRead 0x0004 32 :: [] ∧
    (given (.hostWrite 0x0008 32 5) waiting).inputs = .hostWrite 0x0008#16 32 5 :: [] ∧ waiting.fatal = false ∧
    (given (.hostWrite 0x02FC 32 5)).inputs = .hostWrite (BitVec.ofNat 16 (0x0200 + 4 * (63 : Fin 64).val)) 32 5 :: [] ∧
    ready.fatal = false ∧ ready.busy = false ∧ ∃ s t : State, s.inputs = cmdWrite 8 :: cmdWrite 8 :: [] ∧
      s.fatal = false ∧ s.busy = false ∧ step s = .next t ∧ t.fatal = false ∧ t.busy = false :=
  ⟨by decide, by decide, by decide, by decide, by decide, by decide,
    { ready with inputs := [cmdWrite 8, cmdWrite 8] }, _, by decide, by decide, by decide, rfl, by decide +kernel,
    by decide +kernel⟩

theorem witness_BusTransactions : (∃ s : State, ∃ rest, s.fpga = .err :: rest) ∧
    ∃ (s : State) (b : List Byte) (n : Nat) (rest : List BusAnswer), s.fpga = .ok b :: rest ∧ b.length = n :=
  ⟨⟨cmd 1 ready [.err], [], by decide⟩, ⟨cmd 1 ready [.ok [3, 0]], [3, 0], 2, [], by decide⟩⟩

theorem witness_OnlyListedBusTransactions : ∃ s t : State, step s = .next t := ⟨cmd 7 edgeLatched, _, rfl⟩

theorem witness_EnqueueAppends : (∃ (s : State) (c : Channel), s.inited = true ∧ s.pend = none ∧
    (s.queues.get c).count < 32) ∧ ∃ (s : State) (c : Channel), s.inited = true ∧ s.pend = none ∧
    (s.queues.get c).count = 32 :=
  ⟨⟨withQueue 1 (filled 31 fun _ => 0), 1, by decide⟩, ⟨withQueue 1 (filled 32 fun _ => 0), 1, by decide⟩⟩

theorem witness_DequeueReturnsOldest : (∃ (s : State) (c : Channel) (v : Half) (rest : List Half), s.inited = true ∧
    s.pend = none ∧ (s.queues.get c).elements = v :: rest) ∧
    ∃ (s : State) (c : Channel), s.inited = true ∧ s.pend = none ∧ (s.queues.get c).count = 0 :=
  ⟨⟨withQueue 2 (filled 1 fun _ => 0x1234), 2, 0x1234, [], by decide⟩, ⟨ready, 2, by decide⟩⟩

theorem witness_DelayLineProperty : (filled 31 fun _ => 1).count ≤ 31 ∧ (filled 0 fun _ => 1).count ≤ 31 := by decide

/-- 1.0, with the largest finite binary64 and the least one above 0 as boundary results. -/
theorem witness_ArithmeticIsCorrectlyRounded :
    (∀ x ∈ [0x3FF0000000000000#64, 0x7FEFFFFFFFFFFFFF#64, 0x0000000000000001#64],
      F64.isFinite x = true ∧ F64.sign x = false ∧ F64.isFinite (F64.add x 0x3FF0000000000000#64) = true ∧
      F64.isFinite (F64.sub x 0x3FF0000000000000#64) = true ∧ F64.isFinite (F64.mul x 0x3FF0000000000000#64) = true ∧
      F64.isFinite (F64.div x 0x3FF0000000000000#64) = true) ∧ F64.toRat 0x3FF0000000000000#64 ≠ 0 := by
  refine ⟨by simp only [List.forall_mem_cons, List.not_mem_nil, false_implies, implies_true]; decide +kernel, ?_⟩
  unfold F64.toRat
  exact div_ne_zero (Int.cast_ne_zero.mpr (by decide +kernel)) (pow_ne_zero _ two_ne_zero)

theorem witness_WideningIsExact : ((0x00000001#32).extractLsb' 23 8).toNat ≠ 255 ∧
    ((0x7F7FFFFF#32).extractLsb' 23 8).toNat ≠ 255 ∧ ((0x7F800000#32).extractLsb' 23 8).toNat = 255 := by decide

theorem witness_RoundHalfAwayIsNearest : F64.isFinite 0x3FE0000000000000#64 = true ∧
    F64.sign 0x3FE0000000000000#64 = false ∧ tc.Legal ∧ geometryFinite tc 0x3FF921FB60000000#64 0 16000 = true :=
  ⟨by decide, by decide, tc_legal, by decide +kernel⟩

theorem witness_SineAndCosineAssumptions : F64.isFinite 0x7FEFFFFFFFFFFFFF#64 = true := by decide

theorem witness_GeometryDelays : geomDelays tc 0x3FF921FB60000000#64 0 16000 = some ⟨0, 1, 2, 4, 4, 4, 2, 1⟩ ∧
    (distances tc 0x3FF921FB60000000#64 0).get 1 = (distances tc 0x3FF921FB60000000#64 0).get 7 ∧
    geomDelays tc 0x3FF921FB60000000#64 0 0 = some ⟨0, 0, 0, 0, 0, 0, 0, 0⟩ := by decide +kernel

theorem witness_DelaysFollowDistance : tc.Legal ∧
    geomDelays tc 0x3FF921FB60000000#64 0 16000 = some ⟨0, 1, 2, 4, 4, 4, 2, 1⟩ ∧
    F64.toRat ((distances tc 0x3FF921FB60000000#64 0).get 2) ≤ F64.toRat ((distances tc 0x3FF921FB60000000#64 0).get 3) :=
  ⟨tc_legal, witness_GeometryDelays.1, by
    have h : F64.units ((distances tc 0x3FF921FB60000000#64 0).get 2) ≤
        F64.units ((distances tc 0x3FF921FB60000000#64 0).get 3) := by decide +kernel
    unfold F64.toRat
    exact div_le_div_of_nonneg_right (by exact_mod_cast h) (by positivity)⟩

theorem witness_DefaultDirectionIsSynchronised : crossed.Legal ∧ F64.isFinite 0x3FF0000000000000#64 = true ∧
    (∀ a b, F64.add (F64.mul (crossed.micPos.get a).x (crossed.micPos.get a).x)
        (F64.mul (crossed.micPos.get a).y (crossed.micPos.get a).y) =
      F64.add (F64.mul (crossed.micPos.get b).x (crossed.micPos.get b).x)
        (F64.mul (crossed.micPos.get b).y (crossed.micPos.get b).y)) ∧
    geomDelays crossed (F64.zero false) (F64.zero false) 16000 = some ⟨0, 0, 0, 0, 0, 0, 0, 0⟩ :=
  ⟨{ tc_legal with }, by decide, by decide +kernel, by decide +kernel⟩

/-- Channel 3 is at its limit: 28 elements and 4 zeros. -/
theorem witness_CalcDelaysSeedsQueues : ∃ (s : State) (k : Eight Nat), s.inited = true ∧ s.pend = none ∧
    F64.isFinite (F64.ofBinary32 s.arg0) = true ∧ F64.isFinite (F64.ofBinary32 s.arg1) = true ∧
    geomDelays s.params (F64.ofBinary32 s.arg0) (F64.ofBinary32 s.arg1) s.rate = some k ∧
    ∀ c, (s.queues.get c).count + k.get c ≤ 32 :=
  ⟨{ steered with queues := steered.queues.set 3 (filled 28 fun _ => 1) }, ⟨0, 1, 2, 4, 4, 4, 2, 1⟩, by decide +kernel⟩

/-- A source distance of the largest binary64 makes the squares overflow. -/
def farSource : Params := { tc with srcDist := 0x7FEFFFFFFFFFFFFF#64 }

theorem witness_CalcDelaysErrors : ready.inited = true ∧ ready.pend = none ∧
    F64.isFinite (F64.ofBinary32 0x7FC00000) = false ∧ F64.isFinite (F64.ofBinary32 0x7F800000) = false ∧
    geometryFinite farSource (F64.ofBinary32 0) (F64.ofBinary32 0) 16000 = false ∧
    ∃ (s : State) (k : Eight Nat) (c : Channel), s.inited = true ∧ s.pend = none ∧
      F64.isFinite (F64.ofBinary32 s.arg0) = true ∧ F64.isFinite (F64.ofBinary32 s.arg1) = true ∧
      geomDelays s.params (F64.ofBinary32 s.arg0) (F64.ofBinary32 s.arg1) s.rate = some k ∧
      32 < (s.queues.get c).count + k.get c :=
  ⟨by decide, by decide, by decide +kernel, by decide +kernel, by decide +kernel,
    ⟨{ steered with queues := steered.queues.set 3 (filled 29 fun _ => 1) }, ⟨0, 1, 2, 4, 4, 4, 2, 1⟩, 3,
      by decide +kernel⟩⟩

/-- The rows of TC before the row of index `n`, that row, and the rows after it. -/
def rowsBefore (n : Nat) : List FreqRow := tc.freqTable.take n
def rowsAfter (n : Nat) : List FreqRow := tc.freqTable.drop (n + 1)

/-- The state after a read and after a write that the bus answers. -/
def afterRead (a : Half) (s : State) : State := (memRead a 2 s).2
def afterWrite (a : Half) (b : List Byte) (s : State) : State := (memWrite a b s).2

theorem witness_ReadSampleRateAdopts : let s := { ready with fpga := [.ok [3, 0], .ok [2, 0]] }
    s.inited = true ∧ s.pend = none ∧ memRead s.params.gainAddr 2 s = (some [3, 0], afterRead 0x0200 s) ∧
    memRead s.params.rateConstAddr 2 (afterRead 0x0200 s) = (some [2, 0], afterRead 0x0202 (afterRead 0x0200 s)) ∧
    s.params.freqTable = rowsBefore 2 ++ ⟨16000, 2, 3⟩ :: rowsAfter 2 ∧
    (∀ r ∈ rowsBefore 2, r.constant ≠ (0 : Byte) ++ (2 : Byte)) ∧ (2 : Half) = (0 : Byte) ++ (2 : Byte) := by decide +kernel

theorem witness_ReadSampleRateErrors : ready.inited = true ∧ ready.pend = none ∧
    (memRead 0x0200 2 { ready with fpga := [.err] }).1 = none ∧
    (memRead 0x0200 2 { ready with fpga := [.ok [3, 0], .err] }).1 = some [3, 0] ∧
    (memRead 0x0202 2 (afterRead 0x0200 { ready with fpga := [.ok [3, 0], .err] })).1 = none ∧
    (memRead 0x0202 2 (afterRead 0x0200 { ready with fpga := [.ok [3, 0], .ok [0, 0]] })).1 = some [0, 0] ∧
    ∀ r ∈ tc.freqTable, r.constant ≠ (0 : Byte) ++ (0 : Byte) := by decide

theorem witness_WriteSampleRateSwitches : let s := { ready with arg0 := 8000, fpga := [.ok [], .ok []] }
    s.inited = true ∧ s.pend = none ∧ s.params.freqTable = rowsBefore 0 ++ ⟨8000, 1, 5⟩ :: rowsAfter 0 ∧
    (∀ r ∈ rowsBefore 0, r.rate ≠ s.arg0) ∧ (8000 : Word) = s.arg0 ∧
    (memWrite s.params.gainAddr [5, 0] s).1 = true ∧
    (memWrite s.params.rateConstAddr [1, 0] (afterWrite 0x0200 [5, 0] s)).1 = true := by decide

theorem witness_WriteSampleRateErrors : ready.inited = true ∧ ready.pend = none ∧
    (∀ r ∈ tc.freqTable, r.rate ≠ 99999) ∧ (∀ r ∈ tc.freqTable, r.rate ≠ 0) ∧
    tc.freqTable = rowsBefore 8 ++ ⟨96000, 9, 0⟩ :: rowsAfter 8 ∧ (∀ r ∈ rowsBefore 8, r.rate ≠ 96000) ∧
    (memWrite 0x0200 [0, 0] { ready with fpga := [.err] }).1 = false ∧
    (memWrite 0x0200 [0, 0] { ready with fpga := [.ok [], .err] }).1 = true ∧
    (memWrite 0x0202 [9, 0] (afterWrite 0x0200 [0, 0] { ready with fpga := [.ok [], .err] })).1 = false := by decide

theorem witness_Rate16000HasGain3 : tc.Legal ∧ ready.inited = true ∧ ready.pend = none ∧
    ∃ s : State, s.params = tc ∧ s.arg0 = 16000 ∧ s.fpga = .ok [] :: .ok [] :: [] :=
  ⟨tc_legal, by decide, by decide, { ready with arg0 := 16000, fpga := [.ok [], .ok []] }, rfl, rfl, rfl⟩

theorem witness_InitConstructs : let s := { fresh with fpga := [.ok [3, 0], .ok [2, 0]] }
    s.pend = none ∧
    geomDelays s.params (F64.zero false) (F64.zero false) s.rate = some ⟨0, 0, 0, 0, 0, 0, 0, 0⟩ ∧
    memRead s.params.gainAddr 2 s = (some [3, 0], afterRead 0x0200 s) ∧
    memRead s.params.rateConstAddr 2 (afterRead 0x0200 s) = (some [2, 0], afterRead 0x0202 (afterRead 0x0200 s)) ∧
    s.params.freqTable = rowsBefore 2 ++ ⟨16000, 2, 3⟩ :: rowsAfter 2 ∧
    (∀ r ∈ rowsBefore 2, r.constant ≠ (0 : Byte) ++ (2 : Byte)) := by decide +kernel

/-- A microphone 100 m away makes the default direction too deep. -/
def lopsided : Params := { tc with micPos := tc.micPos.set 0 ⟨F64.ofWord 100000, F64.zero false⟩ }

theorem witness_InitErrors : fresh.pend = none ∧
    geomDelays tc (F64.zero false) (F64.zero false) 16000 = some ⟨0, 0, 0, 0, 0, 0, 0, 0⟩ ∧
    geometryFinite farSource (F64.zero false) (F64.zero false) 16000 = false ∧
    (∃ k, geomDelays lopsided (F64.zero false) (F64.zero false) 16000 = some k ∧ 32 < k.get 0) ∧
    ∀ r ∈ tc.freqTable, r.constant ≠ (0 : Byte) ++ (0 : Byte) :=
  ⟨by decide, by decide +kernel, by decide +kernel, ⟨⟨4995, 0, 0, 0, 0, 0, 0, 0⟩, by decide +kernel⟩, by decide⟩

theorem witness_CaptureHoldsWithoutEdge : ready.inited = true ∧ ready.evtPend = false := by decide

/-- `n` reads answered from a script of eight-byte blocks. -/
theorem reads_of_script (s : State) (hp : s.params = tc) (n : Nat) (b : List Byte) (hb : b.length = 8)
    (rest : List BusAnswer) (h : s.fpga = List.replicate n (.ok b) ++ rest) :
    ∃ s1 : State, ReadsOk tc.micAddr (2 * tc.numSamples) s (List.replicate n b) s1 ∧ s1.fpga = rest := by
  induction n generalizing s with
  | zero => exact ⟨s, rfl, h⟩
  | succ n ih =>
    obtain ⟨s1, h1, h2⟩ := ih ((memRead tc.micAddr (2 * tc.numSamples) s).2) hp (by show s.fpga.tail = _; rw [h]; rfl)
    refine ⟨s1, ⟨_, Prod.ext ?_ rfl, h1⟩, h2⟩
    have : s.nextAnswer = .ok b := by unfold State.nextAnswer; rw [h]; rfl
    unfold memRead
    rw [this]
    obtain ⟨a0, a1, a2, a3, a4, a5, a6, a7, rfl⟩ : ∃ a0 a1 a2 a3 a4 a5 a6 a7, b = [a0, a1, a2, a3, a4, a5, a6, a7] := by
      match b, hb with
      | [a0, a1, a2, a3, a4, a5, a6, a7], _ => exact ⟨_, _, _, _, _, _, _, _, rfl⟩
    rfl

/-- A latched edge, one queue of `n` elements, and the answers to the eight reads. -/
def captureReady (n : Nat) (answers : List BusAnswer) : State :=
  { edgeLatched with queues := ready.queues.set 7 (filled n fun _ => 1), fpga := answers }

theorem witness_CaptureCycle : ∃ (s s1 : State) (blocks : List (List Byte)), s.inited = true ∧ s.evtPend = true ∧
    s.pend = none ∧ (∀ c, (s.queues.get c).count ≤ 31) ∧ blocks.length = 8 ∧
    ReadsOk s.params.micAddr (2 * s.params.numSamples) s blocks s1 := by
  obtain ⟨s1, h, -⟩ := reads_of_script
    (captureReady 31 (eightReads [1, 0, 2, 0, 3, 0, 4, 0])) rfl 8 [1, 0, 2, 0, 3, 0, 4, 0] rfl [] rfl
  exact ⟨captureReady 31 (eightReads [1, 0, 2, 0, 3, 0, 4, 0]), s1, _, rfl, rfl, rfl, by decide, rfl, h⟩

/-- The answers of W6, with NUM_SAMPLES = 4. -/
def thousand : List BusAnswer :=
  .ok [0xE8, 0x03, 0, 0, 0, 0, 0, 0] :: List.replicate 7 (.ok [0, 0, 0, 0, 0, 0, 0, 0])

theorem witness_EndToEndThousand : ∃ s s1 : State, s.inited = true ∧ s.evtPend = true ∧ s.pend = none ∧
    (∀ c, (s.queues.get c).count = 0) ∧ 1 ≤ s.params.numSamples ∧
    ReadsOk s.params.micAddr (2 * s.params.numSamples) s
      ((0xE8#8 :: 0x03#8 :: List.replicate (2 * s.params.numSamples - 2) 0) ::
        List.replicate 7 (List.replicate (2 * s.params.numSamples) 0)) s1 := by
  obtain ⟨s1, h, -⟩ := reads_of_script
    (memRead 0x0100 8 (captureReady 0 thousand)).2 rfl 7 [0, 0, 0, 0, 0, 0, 0, 0] rfl [] rfl
  exact ⟨captureReady 0 thousand, s1, rfl, rfl, rfl, by decide, by decide, _, rfl, h⟩

/-- Seven good answers, then a failing one. -/
def sevenThenErr : List BusAnswer := List.replicate 7 (.ok [1, 0, 2, 0, 3, 0, 4, 0]) ++ [.err]

theorem witness_CaptureBusError : ∃ (s s1 s2 : State) (blocks : List (List Byte)), s.inited = true ∧ s.evtPend = true ∧
    s.pend = none ∧ blocks.length < 8 ∧ ReadsOk s.params.micAddr (2 * s.params.numSamples) s blocks s1 ∧
    memRead s.params.micAddr (2 * s.params.numSamples) s1 = (none, s2) := by
  obtain ⟨s1, h, hf⟩ := reads_of_script
    (captureReady 0 sevenThenErr) rfl 7 [1, 0, 2, 0, 3, 0, 4, 0] rfl [.err] rfl
  refine ⟨captureReady 0 sevenThenErr, s1,
    (memRead 0x0100 8 s1).2, List.replicate 7 [1, 0, 2, 0, 3, 0, 4, 0], rfl, rfl, rfl, by decide, h, Prod.ext ?_ rfl⟩
  unfold memRead State.nextAnswer
  rw [hf]

theorem witness_CaptureQueueFull : ∃ (s s1 : State) (blocks : List (List Byte)) (c : Channel), s.inited = true ∧
    s.evtPend = true ∧ s.pend = none ∧ (s.queues.get c).count = 32 ∧ blocks.length = 8 ∧
    ReadsOk s.params.micAddr (2 * s.params.numSamples) s blocks s1 := by
  obtain ⟨s1, h, -⟩ := reads_of_script
    (captureReady 32 (eightReads [1, 0, 2, 0, 3, 0, 4, 0])) rfl 8 [1, 0, 2, 0, 3, 0, 4, 0] rfl [] rfl
  exact ⟨captureReady 32 (eightReads [1, 0, 2, 0, 3, 0, 4, 0]), s1, _, 7, rfl, rfl, rfl, by decide, rfl, h⟩

theorem witness_DataReadyEdge : (given .dataReady).inputs = .dataReady :: [] ∧ failed.fatal = true ∧
    fresh.evtEn = false ∧ (ready.fatal = false ∧ ready.evtEn = true ∧ ready.pend = none) ∧
    (waiting.fatal = false ∧ waiting.evtEn = true ∧ waiting.pend = some .capture ∧ waiting.inited = true ∧
      waiting.evtPend = false) ∧ (given .dataReady).inputs.head? ≠ some .reset ∧
    ∃ t, step (given .dataReady) = .next t := ⟨by decide, by decide, by decide, by decide, by decide, by decide, _, rfl⟩

theorem witness_SelectFirCoeffLoadsAndPushes : ∃ (before after : List FirRow) (f : FirRow),
    { ready with rate := 48000 }.params.firTable = before ++ f :: after ∧ (∀ r ∈ before, r.rate ≠ 48000) ∧
    f.rate = 48000 ∧ ready.inited = true ∧ ready.pend = none ∧
    (memWrite tc.firAddr (bytesOf f.taps.toList) { ready with fpga := [.ok []] }).1 = true ∧
    (memWrite tc.firAddr (bytesOf f.taps.toList) { ready with fpga := [.err] }).1 = false :=
  ⟨tc.firTable.take 1, [], ⟨48000, vectorOf 128 fun i => if i = 0 then 32767 else 0⟩, by decide +kernel⟩

theorem witness_SelectFirCoeffWithoutRow : ready.inited = true ∧ ready.pend = none ∧
    ∀ r ∈ tc.firTable, r.rate ≠ { ready with rate := 8000 }.rate := by decide

theorem witness_SetCustomFirCoeffLoadsAndPushes : ready.inited = true ∧ ready.pend = none ∧
    (memWrite tc.firAddr (bytesOf ready.staging.toList) { ready with fpga := [.ok []] }).1 = true := by decide

theorem witness_CoefficientsNeverReachSamples : ∃ (s t t' : State) (taps : Vector Half 128), step s = .next t ∧
    step { s with coeff := taps } = .next t' ∧ s.coeff ≠ taps :=
  ⟨cmd 7 edgeLatched, _, _, vectorOf 128 fun _ => 1, rfl, rfl, by decide +kernel⟩

theorem witness_OnlyThreeCommandsWriteResult : ∃ s t : State, step s = .next t ∧ t.result ≠ s.result :=
  ⟨cmd 0x00000209 (withQueue 2 (filled 1 fun _ => 0xFFFF)), _, rfl, by decide +kernel⟩

theorem witness_OnlyRateCommandsWriteGainAndRate : ∃ s t : State, step s = .next t ∧ (t.gain ≠ s.gain ∨ t.rate ≠ s.rate) :=
  ⟨cmd 0x00000002 ready [.ok [7, 0], .ok [8, 0]], _, rfl, by decide +kernel⟩

theorem witness_BlocksStayUntilCaptureInitOrReset : ∃ s t : State, step s = .next t ∧
    (t.delayed ≠ s.delayed ∨ t.beam ≠ s.beam ∨ t.blockValid ≠ s.blockValid) :=
  ⟨cmd 7 edgeLatched (eightReads [1, 0, 2, 0, 3, 0, 4, 0]), _, rfl, by decide +kernel⟩

theorem witness_OnlyFilterCommandsWriteCoefficients : ∃ s t : State, step s = .next t ∧
    (t.coeff ≠ s.coeff ∨ t.coeffValid ≠ s.coeffValid) := ⟨cmd 4 ready [.ok []], _, rfl, by decide +kernel⟩

theorem witness_OnlyQueueCommandsChangeQueues : ∃ s t : State, step s = .next t ∧ t.queues ≠ s.queues :=
  ⟨cmd 8 ready, _, rfl, by decide +kernel⟩

theorem witness_CommandsLeaveArguments : ∃ (i : Instr) (s t : State), exec i s = .next t := ⟨.calcDelays, steered, _, rfl⟩

theorem witness_OnlyEdgeOrResetEndsTheWait : ∃ s t : State, step s = .next t ∧ s.fatal = false ∧
    s.pend = some .capture ∧ s.inputs.head? ≠ some .reset ∧ s.inputs.head? ≠ some .dataReady :=
  ⟨cmd 1 waiting, _, rfl, by decide⟩

/-- TC0 of 95_test_vectors.md, with queues at the two ends of their range. -/
theorem witness_RateZeroGivesNoDelayAndNoCoefficients : ∃ s : State, s.params.Legal ∧ s.inited = true ∧ s.pend = none ∧
    s.rate = 0 ∧ F64.isFinite (F64.ofBinary32 s.arg0) = true ∧ F64.isFinite (F64.ofBinary32 s.arg1) = true ∧
    geometryFinite s.params (F64.ofBinary32 s.arg0) (F64.ofBinary32 s.arg1) 0 = true ∧
    (∀ c, (s.queues.get c).count ≤ 32) ∧ ∃ s' : State, s'.params.Legal ∧ s'.arg0 = 0 :=
  ⟨{ withQueue 7 (filled 32 fun _ => 1) with rate := 0, arg0 := 0x3FC90FDB }, tc_legal, by decide, by decide, by decide,
    by decide +kernel, by decide +kernel, by decide +kernel, by decide, ready, tc_legal, by decide⟩

end Sys2Proof.Tests
end

section
/-! PROOFS of the family 00_scope.md: exact widening (O27), what is assumed of sin64 and cos64 (O29) and the rate facts
of SAMPLE_FREQ_TABLE (O39). -/

/-! ### Exact conversions -/

namespace Sys2Proof.Machine.F64

/-- The value of a pattern from its sign and magnitude. -/
theorem toRat_eq (x : F64) : toRat x = (if sign x then -1 else 1) * (mag x : ℚ) / 2 ^ 1074 := by
  unfold toRat units
  split <;> simp

/-- A magnitude of at most 53 significant bits, in range, keeps its value, not only its magnitude, when rounded. -/
theorem toRat_round_exact (neg : Bool) {m e : Nat} (hm : m < 2 ^ 53) (he : e ≤ 2044) :
    toRat (round neg (m * 2 ^ e) 1) = (if neg then -1 else 1) * ((m : ℚ) * 2 ^ e) / 2 ^ 1074 := by
  rw [toRat_eq, sign_round, (round_exact neg hm he).2]
  push_cast
  rfl

/-- The exponent field of a binary32 pattern. -/
def expField32 (w : Word) : Nat := (w.extractLsb' 23 8).toNat

/-- The significand of a finite binary32 pattern with its hidden bit. -/
def sig32 (w : Word) : Nat :=
  if expField32 w = 0 then (w.extractLsb' 0 23).toNat else 2 ^ 23 + (w.extractLsb' 0 23).toNat

theorem expField32_le (w : Word) : expField32 w ≤ 255 := Nat.le_of_lt_succ (w.extractLsb' 23 8).isLt

theorem sig32_lt (w : Word) : sig32 w < 2 ^ 24 := by
  have hf := (w.extractLsb' 0 23).isLt
  unfold sig32
  split <;> omega

/-- A finite binary32 widens by one rounding of its significand, shifted into place. -/
theorem ofBinary32_finite {w : Word} (h : expField32 w ≠ 255) :
    ofBinary32 w = round w.msb (sig32 w * 2 ^ (expField32 w - 1 + 925)) 1 := by
  rw [pow_add, ← Nat.mul_assoc]
  exact if_neg h

/-- A binary32 NaN or infinity widens to a pattern with its fraction and the exponent field of a NaN or infinity. -/
theorem ofBinary32_not_finite {w : Word} (h : expField32 w = 255) :
    ofBinary32 w = pack w.msb (infBits + (w.extractLsb' 0 23).toNat * 2 ^ 29) := if_pos h

/-- Both kinds of finite binary32 have the value of their significand at its place: a subnormal one has the place of the
exponent field 1. -/
theorem sig32_value (w : Word) : (sig32 w : ℚ) * 2 ^ (expField32 w - 1 + 925) / 2 ^ 1074 =
    if expField32 w = 0 then ((w.extractLsb' 0 23).toNat : ℚ) / 2 ^ 149
    else (2 ^ 23 + ((w.extractLsb' 0 23).toNat : ℚ)) * 2 ^ (expField32 w : ℤ) / 2 ^ 150 := by
  have place (a : ℚ) (k n : Nat) : a * 2 ^ (k + 925) / 2 ^ (n + 925) = a * 2 ^ k / 2 ^ n := by
    rw [pow_add, pow_add, ← mul_assoc]
    exact mul_div_mul_right _ _ (pow_ne_zero _ two_ne_zero)
  rw [place _ _ 149]
  unfold sig32
  by_cases h : expField32 w = 0
  · simp [h]
  · obtain ⟨k, hk⟩ := Nat.exists_eq_add_one_of_ne_zero h
    rw [if_neg h, if_neg h, zpow_natCast, hk, Nat.add_sub_cancel]
    push_cast
    ring

/-- A finite binary32 widens to a finite binary64 of the same value (00_scope.md R14). -/
theorem ofBinary32_exact {w : Word} (h : expField32 w ≠ 255) : isFinite (ofBinary32 w) = true ∧
    toRat (ofBinary32 w) = (if w.msb then -1 else 1) *
      ((sig32 w : ℚ) * 2 ^ (expField32 w - 1 + 925) / 2 ^ 1074) := by
  have hm : sig32 w < 2 ^ 53 := (sig32_lt w).trans (by decide)
  have he : expField32 w - 1 + 925 ≤ 2044 := by
    have := expField32_le w
    omega
  rw [ofBinary32_finite h, ← mul_div_assoc]
  exact ⟨(round_exact w.msb hm he).1, toRat_round_exact w.msb hm he⟩

/-- A binary32 NaN or infinity stays not finite. -/
theorem isFinite_ofBinary32_of_not_finite {w : Word} (h : expField32 w = 255) : isFinite (ofBinary32 w) = false := by
  have hf := (w.extractLsb' 0 23).isLt
  have hlow : infBits + (w.extractLsb' 0 23).toNat * 2 ^ 29 < 2 ^ 63 := by unfold infBits; omega
  have he : (infBits + (w.extractLsb' 0 23).toNat * 2 ^ 29) / 2 ^ 52 = 2047 := by unfold infBits; omega
  rw [ofBinary32_not_finite h, isFinite, expField_pack _ hlow, he]
  rfl

/-- A u32 widens to a finite binary64 of the same value (41_delay_geometry.md R101). -/
theorem ofWord_exact (w : Word) : isFinite (ofWord w) = true ∧ toRat (ofWord w) = w.toNat := by
  have hm : w.toNat < 2 ^ 53 := w.isLt.trans (by decide)
  refine ⟨(round_exact false hm (by decide)).1, ?_⟩
  rw [ofWord, toRat_round_exact false hm (by decide), if_neg Bool.false_ne_true, one_mul]
  exact mul_div_cancel_right₀ _ (pow_ne_zero _ two_ne_zero)

/-- The pattern of 1.0. -/
theorem toRat_one : toRat 0x3FF0000000000000#64 = 1 := by
  have hs : sign 0x3FF0000000000000#64 = false := by decide
  have hm : mag 0x3FF0000000000000#64 = 2 ^ 1074 := by decide +kernel
  rw [toRat_eq, hs, hm, if_neg Bool.false_ne_true, one_mul, Nat.cast_pow, Nat.cast_ofNat]
  exact div_self (pow_ne_zero _ two_ne_zero)

end Sys2Proof.Machine.F64

/-! ### sin64 and cos64 -/

namespace Sys2Proof.Machine

open F64

/-- `sin64` is +0.0 at +0.0 (00_scope.md R13). -/
theorem sin64_zero (p : Params) : sin64 p (zero false) = zero false := if_pos rfl

/-- `cos64` is 1.0 at +0.0 (R13). -/
theorem cos64_zero (p : Params) : cos64 p (zero false) = 0x3FF0000000000000#64 := if_pos rfl

/-- A finite operand, +0.0, one that `trig` lists or any other, has a finite sine and cosine (R13). -/
theorem isFinite_sin64_cos64 (p : Params) {x : F64} (hx : isFinite x = true) :
    isFinite (sin64 p x) = true ∧ isFinite (cos64 p x) = true := by
  by_cases h0 : x = zero false
  · rw [h0, sin64_zero, cos64_zero]
    decide
  · simp only [sin64, cos64, if_neg h0, if_pos hx]
    cases ht : trigPoint p x with
    | none => exact ⟨isFinite_finiteOf _, isFinite_finiteOf _⟩
    | some t => exact trigPoint_finite ht hx

/-! ### Rates of the frequency table -/

/-- The lookup finds no row exactly when no row has the rate (43_array_reader.md R144). -/
theorem lookupByRate_eq_none {p : Params} {r : Word} : lookupByRate p r = none ↔ ∀ e ∈ p.freqTable, e.rate ≠ r := by
  simp [lookupByRate]

/-- A row the lookup finds is a row of the table with the rate asked for (R144). -/
theorem lookupByRate_some {p : Params} {r : Word} {e : FreqRow} (h : lookupByRate p r = some e) :
    e ∈ p.freqTable ∧ e.rate = r :=
  ⟨List.mem_of_find?_eq_some h, by simpa using List.find?_some h⟩

/-- An allowed table has a row of 16000 Hz, and the one found has gain 3 (00_scope.md R7, notes/assumptions/3). -/
theorem lookupByRate_16000 {p : Params} (hp : p.Legal) :
    ∃ e, lookupByRate p 16000 = some e ∧ e.rate = 16000 ∧ e.gain = 3 := by
  obtain ⟨e, he⟩ : ∃ e, lookupByRate p 16000 = some e := by
    obtain ⟨r, hr, h16⟩ := hp.has16000
    rw [← Option.ne_none_iff_exists']
    exact fun hn => lookupByRate_eq_none.1 hn r hr h16
  obtain ⟨hmem, hrate⟩ := lookupByRate_some he
  exact ⟨e, he, hrate, hp.gain16000 e hmem hrate⟩

/-- No row of an allowed table has a rate above 96000 Hz (R7). -/
theorem lookupByRate_above_range {p : Params} (hp : p.Legal) {r : Word} (h : 96000 < r.toNat) :
    lookupByRate p r = none := by
  refine lookupByRate_eq_none.2 fun e he heq => ?_
  have hmax := (hp.rates e he).2
  rw [heq] at hmax
  omega

/-! ### WRITE_SAMPLE_RATE -/

/-- An inited WRITE_SAMPLE_RATE runs its body (30_encoding.md R77). -/
theorem exec_writeSampleRate_inited {s : State} (hi : s.inited = true) :
    exec .writeSampleRate s = .next (writeSampleRateBody s) :=
  congrArg Host.Outcome.next (gated_inited hi writeSampleRateBody)

/-- A rate of no row ends with INVALID_INPUT, with no bus traffic (43_array_reader.md R143). -/
theorem writeSampleRateBody_of_no_row {s : State} (h : lookupByRate s.params s.arg0 = none) :
    writeSampleRateBody s = raise .invalidInput s := by
  simp only [writeSampleRateBody, rateOperand, h]

/-- With row `e` found and both writes good, gain and rate take the row's values (R143). -/
theorem writeSampleRateBody_of_writes {s s1 s2 : State} {e : FreqRow} (he : lookupByRate s.params s.arg0 = some e)
    (h1 : memWrite s.params.gainAddr (le16 e.gain) s = (true, s1))
    (h2 : memWrite s1.params.rateConstAddr (le16 e.constant) s1 = (true, s2)) :
    writeSampleRateBody s = finish { s2 with gain := e.gain, rate := e.rate } := by
  simp only [writeSampleRateBody, rateOperand, he, h1, h2]

/-! ### The obligations -/

/-- Settles O27: each conversion is one rounding of at most 53 significant bits, which is exact. -/
theorem wideningIsExact : Obligations.WideningIsExact := by
  refine ⟨fun w h => ?_, fun w h => isFinite_ofBinary32_of_not_finite h, ofWord_exact⟩
  obtain ⟨hfin, hval⟩ := ofBinary32_exact h
  exact ⟨hfin, hval.trans (congrArg _ (sig32_value w))⟩

/-- Settles O29: the two values at +0.0 and the finite results, each by its lemma. -/
theorem sineAndCosineAssumptions : Obligations.SineAndCosineAssumptions := fun p =>
  ⟨sin64_zero p, by rw [cos64_zero, toRat_one], fun _ hx => isFinite_sin64_cos64 p hx⟩

/-- Settles O39: the row found for 16000 Hz has gain 3, and 99999 Hz is above every rate of an allowed table. -/
theorem rate16000HasGain3 : Obligations.Rate16000HasGain3 := by
  intro s hp hi hn
  rw [exec_writeSampleRate_inited hi]
  constructor
  · intro b1 b2 rest harg hbus
    obtain ⟨e, he, hrate, hgain⟩ := lookupByRate_16000 hp
    have h1 := memWrite_scripted s.params.gainAddr (le16 e.gain) hbus
    have hbus1 : (s.logTxn (.write s.params.gainAddr (le16 e.gain) true)).fpga = .ok b2 :: rest := by
      rw [logTxn_fpga, hbus, List.tail_cons]
    have h2 := memWrite_scripted s.params.rateConstAddr (le16 e.constant) hbus1
    refine ⟨_, congrArg _ (writeSampleRateBody_of_writes (harg ▸ he) h1 h2), ?_, ?_, finish_err _⟩
    · rw [finish_gain, hgain]
    · rw [finish_rate, hrate]
  · intro harg
    have hrow : lookupByRate s.params s.arg0 = none := lookupByRate_above_range hp (by rw [harg]; decide)
    rw [writeSampleRateBody_of_no_row hrow, raise_recoverable hn rfl]

end Sys2Proof.Machine
end

section
/-! PROOFS of the family 10_state.md: the invariant (O11, O12), reset values and STATUS (O9, O20), the fatal state
(O13), what may write each part of the state (O53 to O58) and the waiting CAPTURE (O59). -/

namespace Sys2Proof.Machine

/-! ### What a command runs, and what it may write -/

/-- What a command does once it is past the INITED gate (30_encoding.md R71, R77). -/
def commandBody : Instr → State → State
  | .init => initBody
  | .readSampleRate => readRateConfig
  | .writeSampleRate => writeSampleRateBody
  | .selectFirCoeff => selectFirCoeffBody
  | .setCustomFirCoeff => fun s => storeAndPush (coeffOperand s) s
  | .calcDelays => calcDelaysBody
  | .capture => captureIssue
  | .enqueue ch => fun s => enqueueBody ch (sampleOperand s) s
  | .dequeue ch => dequeueBody ch

/-- INIT has no gate; every other command is gated (R77). -/
theorem exec_eq_commandBody (c : Instr) (s : State) :
    exec c s = .next (if c = .init then commandBody c s else gated (commandBody c) s) := by
  cases c <;> rfl

/-- A command is stopped by the gate, or runs its body: INIT always, the others after INIT (R77). -/
theorem exec_cases {c : Instr} {s t : State} (h : exec c s = .next t) :
    t = raise .illegalCommand s ∨ ((c = .init ∨ s.inited = true) ∧ t = commandBody c s) := by
  rw [exec_eq_commandBody] at h
  obtain rfl := Host.Outcome.next.inj h
  split
  · next hc => exact .inr ⟨.inl hc, rfl⟩
  · obtain ⟨hi, e⟩ | ⟨-, e⟩ := gated_cases (commandBody c) s
    · exact .inr ⟨.inr hi, e⟩
    · exact .inl e

/-- `s` with what any command may write taken from `t`: how it ended (60_exceptions.md R201, R202) and the bus's
part. -/
def withEnding (t s : State) : State :=
  { s with err := t.err, fatal := t.fatal, pend := t.pend, fpga := t.fpga, busLog := t.busLog, draw := t.draw }

/-- `s` with what command `c` may write taken from `t`: the ending, and the fields that 10_state.md names for `c`. -/
def commandFrame (c : Instr) (t s : State) : State :=
  match c with
  | .init => { withEnding t s with
      queues := t.queues, inited := t.inited, blockValid := t.blockValid, evtEn := t.evtEn, evtPend := t.evtPend,
      gain := t.gain, rate := t.rate, result := t.result }
  | .readSampleRate => { withEnding t s with gain := t.gain, rate := t.rate, result := t.result }
  | .writeSampleRate => { withEnding t s with gain := t.gain, rate := t.rate }
  | .selectFirCoeff | .setCustomFirCoeff => { withEnding t s with coeff := t.coeff, coeffValid := t.coeffValid }
  | .calcDelays | .enqueue _ => { withEnding t s with queues := t.queues }
  | .capture => { withEnding t s with
      evtPend := t.evtPend, raw := t.raw, delayed := t.delayed, queues := t.queues, beam := t.beam,
      blockValid := t.blockValid }
  | .dequeue _ => { withEnding t s with queues := t.queues, result := t.result }

/-- SELECT_FIR_COEFF stores and pushes the taps of a row, or ends with INVALID_INPUT (44_filter_stage.md R180). -/
theorem selectFirCoeff_cases (s : State) :
    selectFirCoeffBody s = raise .invalidInput s ∨ ∃ f : FirRow, selectFirCoeffBody s = storeAndPush f.taps s := by
  unfold selectFirCoeffBody
  split
  · exact .inl rfl
  · next f _ => exact .inr ⟨f, rfl⟩

theorem storeAndPush_frame (taps : Vector Half 128) (s : State) :
    storeAndPush taps s = commandFrame .selectFirCoeff (storeAndPush taps s) s := by
  obtain ⟨ok, e⟩ := storeAndPush_eq taps s
  rw [e]; rfl

theorem captureBody_frame (s : State) : captureBody s = commandFrame .capture (captureBody s) s := by
  obtain ⟨raw, fpga, draw, l, -, -, e | ⟨-, e⟩ | ⟨-, e⟩⟩ := capture_cases s <;> rw [e] <;> rfl

theorem readRateConfig_frame (s : State) : readRateConfig s = commandFrame .readSampleRate (readRateConfig s) s := by
  obtain e | ⟨_, e⟩ | ⟨_, _, e⟩ | ⟨_, _, _, -, e⟩ := readRateConfig_cases s <;> rw [e] <;> rfl

theorem initBody_frame (s : State) : initBody s = commandFrame .init (initBody s) s := by
  obtain e | e | ⟨k, -, -, e⟩ := init_cases s <;> rw [e]
  · rfl
  · rfl
  · rw [readRateConfig_frame]; rfl

/-- A command's body writes nothing outside its frame. -/
theorem commandBody_frame (c : Instr) (s : State) : commandBody c s = commandFrame c (commandBody c s) s := by
  cases c with
  | init => exact initBody_frame s
  | readSampleRate => exact readRateConfig_frame s
  | writeSampleRate =>
    obtain e | ⟨_, -, e | e | e⟩ := writeSampleRate_cases s <;> rw [commandBody, e] <;> rfl
  | selectFirCoeff =>
    obtain e | ⟨f, e⟩ := selectFirCoeff_cases s <;> rw [commandBody, e]
    · rfl
    · exact storeAndPush_frame f.taps s
  | setCustomFirCoeff => exact storeAndPush_frame (coeffOperand s) s
  | calcDelays => obtain e | e | ⟨_, -, e⟩ := calcDelays_cases s <;> rw [commandBody, e] <;> rfl
  | capture =>
    obtain ⟨-, e⟩ | ⟨-, e⟩ := captureIssue_cases s <;> rw [commandBody, e]
    · rw [captureBody_frame]; rfl
    · rfl
  | enqueue ch =>
    obtain ⟨-, e⟩ | ⟨-, e⟩ := enqueue_cases ch (sampleOperand s) s <;> simp only [commandBody, e] <;> rfl
  | dequeue ch => obtain ⟨-, e⟩ | ⟨-, e⟩ := dequeue_cases ch s <;> rw [commandBody, e] <;> rfl

theorem endCommand_frame (code : ErrCode) (c : Instr) (s : State) :
    endCommand code s = commandFrame c (endCommand code s) s := by
  cases c <;> rfl

/-- A command writes nothing outside its frame. -/
theorem exec_frame {c : Instr} {s t : State} (h : exec c s = .next t) : t = commandFrame c t s := by
  obtain rfl | ⟨-, rfl⟩ := exec_cases h
  · exact endCommand_frame .illegalCommand c s
  · exact commandBody_frame c s

/-! ### What a step does -/

/-- The state in which a command that CMD has accepted runs: its word is taken and acknowledged
(60_exceptions.md R204). -/
def accepted (s : State) : State := { takeInput s.inputs.tail s with reply := .ack }

/-- `s` with what the host port may write without a command taken from `t` (20_memory.md R57). -/
def withHostPort (t s : State) : State :=
  { s with arg0 := t.arg0, arg1 := t.arg1, staging := t.staging, inputs := t.inputs, reply := t.reply }

/-- Everything a step can do to MICCORE: nothing behind the host port, an edge, a reset, or an accepted write to CMD. -/
theorem step_effects {s t : State} (h : step s = .next t) :
    t = withHostPort t s ∨
    (s.inputs.head? = some .dataReady ∧ t = dataReadyEdge (takeInput s.inputs.tail s)) ∨
    (s.inputs.head? = some .reset ∧ t = resetEvent (takeInput s.inputs.tail s)) ∨
    ∃ w, s.inputs.head? = some (cmdWrite w) ∧ s.fatal = false ∧ s.busy = false ∧
      (t = raise .illegalCommand (accepted s) ∨ ∃ c, decode w = .ok c ∧ exec c (accepted s) = .next t) := by
  obtain ⟨-, rfl⟩ | ⟨i, rest, hi, hcase⟩ := step_cases h
  · exact .inl rfl
  have htail : s.inputs.tail = rest := by rw [hi]; rfl
  unfold accepted
  rw [htail, hi]
  obtain ⟨o, b, -, rfl⟩ | ⟨rfl, e⟩ | ⟨rfl, e⟩ | ⟨o, b, w, rfl, hwrite⟩ := hcase
  · exact .inl rfl
  · exact .inr (.inl ⟨rfl, e⟩)
  · exact .inr (.inr (.inl ⟨rfl, e⟩))
  obtain rfl | rfl | rfl | ⟨k, rfl⟩ | ⟨rfl, rfl, hf, hb, e⟩ := hwrite
  · exact .inl rfl
  · exact .inl rfl
  · exact .inl rfl
  · exact .inl rfl
  · exact .inr (.inr (.inr ⟨w, rfl, hf, hb, e⟩))

/-- `s` with what a step that runs no command may write taken from `t`: the host port's part, STATUS.ERR and FATAL,
the pending command and the latched edge. -/
def withStatus (t s : State) : State :=
  { withHostPort t s with err := t.err, fatal := t.fatal, pend := t.pend, evtPend := t.evtPend }

/-- What may be written, by what arrived: anything by a reset, the frame of CAPTURE by an edge it waited for, a
command's frame by a write to CMD, and else no register but ARG0 and ARG1, no queue, block or coefficient. -/
theorem step_writes {s t : State} (h : step s = .next t) :
    s.inputs.head? = some .reset ∨ t = withStatus t s ∨
    (s.inputs.head? = some .dataReady ∧ s.pend = some .capture ∧
      t = commandFrame .capture t (takeInput s.inputs.tail s)) ∨
    ∃ w c, s.inputs.head? = some (cmdWrite w) ∧ decode w = .ok c ∧ s.fatal = false ∧
      exec c (accepted s) = .next t := by
  obtain e | ⟨hd, rfl⟩ | ⟨hr, -⟩ | ⟨w, hw, hf, -, rfl | ⟨c, hd, he⟩⟩ := step_effects h
  · exact .inr (.inl (by rw [e]; rfl))
  · obtain ⟨-, e⟩ | ⟨-, -, hp, e⟩ | ⟨-, -, -, e⟩ := dataReady_cases (takeInput s.inputs.tail s) <;> rw [e]
    · exact .inr (.inl rfl)
    · exact .inr (.inr (.inl ⟨hd, hp, captureBody_frame _⟩))
    · exact .inr (.inl rfl)
  · exact .inl hr
  · exact .inr (.inl rfl)
  · exact .inr (.inr (.inr ⟨w, c, hw, hd, hf, he⟩))

/-! ### What a command leaves of the registers, the coefficients and the queues -/

/-- `ReadRateConfig` ends well, with the rate in RESULT, or leaves gain, rate and RESULT (43_array_reader.md R141). -/
theorem readRateConfig_rates (s : State) :
    ((readRateConfig s).err = .ok ∧ (readRateConfig s).result = (readRateConfig s).rate) ∨
    ((readRateConfig s).gain = s.gain ∧ (readRateConfig s).rate = s.rate ∧ (readRateConfig s).result = s.result) := by
  obtain e | ⟨_, e⟩ | ⟨_, _, e⟩ | ⟨_, _, _, -, e⟩ := readRateConfig_cases s <;> rw [e]
  · exact .inr ⟨rfl, rfl, rfl⟩
  · exact .inr ⟨rfl, rfl, rfl⟩
  · exact .inr ⟨rfl, rfl, rfl⟩
  · exact .inl ⟨rfl, rfl⟩

/-- INIT leaves gain, rate and RESULT to its `ReadRateConfig` (R140). -/
theorem initBody_rates (s : State) :
    ((initBody s).err = .ok ∧ (initBody s).result = (initBody s).rate) ∨
    ((initBody s).gain = s.gain ∧ (initBody s).rate = s.rate ∧ (initBody s).result = s.result) := by
  obtain e | e | ⟨k, -, -, e⟩ := init_cases s <;> rw [e]
  · exact .inr ⟨rfl, rfl, rfl⟩
  · exact .inr ⟨rfl, rfl, rfl⟩
  · exact readRateConfig_rates (beforeConfig k s)

/-- WRITE_SAMPLE_RATE ends well or leaves gain and rate (R143). -/
theorem writeSampleRate_rates (s : State) :
    (writeSampleRateBody s).err = .ok ∨
    ((writeSampleRateBody s).gain = s.gain ∧ (writeSampleRateBody s).rate = s.rate) := by
  obtain e | ⟨_, -, e | e | e⟩ := writeSampleRate_cases s <;> rw [e]
  · exact .inr ⟨rfl, rfl⟩
  · exact .inr ⟨rfl, rfl⟩
  · exact .inr ⟨rfl, rfl⟩
  · exact .inl rfl

/-- A command that changes RESULT ended well, and left the rate or the oldest element there (10_state.md R26). -/
theorem exec_result {c : Instr} {s t : State} (h : exec c s = .next t) (hne : t.result ≠ s.result) :
    t.err = .ok ∧ ((c = .readSampleRate ∨ c = .init) ∧ t.result = t.rate ∨
      ∃ ch, c = .dequeue ch ∧ t.result = BitVec.ofInt 32 (s.queues.get ch).oldest.toInt) := by
  have hframe := congrArg State.result (exec_frame h)
  obtain rfl | ⟨-, rfl⟩ := exec_cases h
  · exact absurd rfl hne
  cases c with
  | init =>
    obtain ⟨hok, hr⟩ | ⟨-, -, hsame⟩ := initBody_rates s
    · exact ⟨hok, .inl ⟨.inr rfl, hr⟩⟩
    · exact absurd hsame hne
  | readSampleRate =>
    obtain ⟨hok, hr⟩ | ⟨-, -, hsame⟩ := readRateConfig_rates s
    · exact ⟨hok, .inl ⟨.inl rfl, hr⟩⟩
    · exact absurd hsame hne
  | dequeue ch =>
    obtain ⟨-, e⟩ | ⟨-, e⟩ := dequeue_cases ch s <;> rw [commandBody, e] at hne ⊢
    · exact absurd rfl hne
    · exact ⟨rfl, .inr ⟨ch, rfl, rfl⟩⟩
  | writeSampleRate | selectFirCoeff | setCustomFirCoeff | calcDelays | capture | enqueue => exact absurd hframe hne

/-- A command that changes gain or rate is one of three and ended well (R27, R28). -/
theorem exec_gain_rate {c : Instr} {s t : State} (h : exec c s = .next t)
    (hchange : ¬ (t.gain = s.gain ∧ t.rate = s.rate)) :
    t.err = .ok ∧ (c = .readSampleRate ∨ c = .init ∨ c = .writeSampleRate) := by
  have hgain := congrArg State.gain (exec_frame h)
  have hrate := congrArg State.rate (exec_frame h)
  obtain rfl | ⟨-, rfl⟩ := exec_cases h
  · exact absurd ⟨rfl, rfl⟩ hchange
  cases c with
  | init =>
    obtain ⟨hok, -⟩ | ⟨hg, hr, -⟩ := initBody_rates s
    · exact ⟨hok, .inr (.inl rfl)⟩
    · exact absurd ⟨hg, hr⟩ hchange
  | readSampleRate =>
    obtain ⟨hok, -⟩ | ⟨hg, hr, -⟩ := readRateConfig_rates s
    · exact ⟨hok, .inl rfl⟩
    · exact absurd ⟨hg, hr⟩ hchange
  | writeSampleRate =>
    obtain hok | hsame := writeSampleRate_rates s
    · exact ⟨hok, .inr (.inr rfl)⟩
    · exact absurd hsame hchange
  | selectFirCoeff | setCustomFirCoeff | calcDelays | capture | enqueue | dequeue =>
    exact absurd ⟨hgain, hrate⟩ hchange

/-- A command that changes a block or BLOCK_VALID is CAPTURE, or INIT, which leaves the blocks (R35, R36, R37). -/
theorem exec_blocks {c : Instr} {s t : State} (h : exec c s = .next t)
    (hchange : ¬ (t.delayed = s.delayed ∧ t.beam = s.beam ∧ t.blockValid = s.blockValid)) :
    c = .capture ∨ (c = .init ∧ t.delayed = s.delayed ∧ t.beam = s.beam) := by
  have hdelayed := congrArg State.delayed (exec_frame h)
  have hbeam := congrArg State.beam (exec_frame h)
  have hvalid := congrArg State.blockValid (exec_frame h)
  cases c with
  | init => exact .inr ⟨rfl, hdelayed, hbeam⟩
  | capture => exact .inl rfl
  | readSampleRate | writeSampleRate | selectFirCoeff | setCustomFirCoeff | calcDelays | enqueue | dequeue =>
    exact absurd ⟨hdelayed, hbeam, hvalid⟩ hchange

theorem storeAndPush_coeffValid (taps : Vector Half 128) (s : State) : (storeAndPush taps s).coeffValid = true := by
  obtain ⟨ok, e⟩ := storeAndPush_eq taps s
  rw [e]; rfl

/-- A command that changes the coefficient store is a filter command and leaves COEFF_VALID set (R32). -/
theorem exec_coeff {c : Instr} {s t : State} (h : exec c s = .next t)
    (hchange : ¬ (t.coeff = s.coeff ∧ t.coeffValid = s.coeffValid)) :
    t.coeffValid = true ∧ (c = .selectFirCoeff ∨ c = .setCustomFirCoeff) := by
  have hcoeff := congrArg State.coeff (exec_frame h)
  have hvalid := congrArg State.coeffValid (exec_frame h)
  obtain rfl | ⟨-, rfl⟩ := exec_cases h
  · exact absurd ⟨rfl, rfl⟩ hchange
  cases c with
  | selectFirCoeff =>
    obtain e | ⟨f, e⟩ := selectFirCoeff_cases s <;> rw [commandBody, e] at hchange ⊢
    · exact absurd ⟨rfl, rfl⟩ hchange
    · exact ⟨storeAndPush_coeffValid f.taps s, .inl rfl⟩
  | setCustomFirCoeff => exact ⟨storeAndPush_coeffValid (coeffOperand s) s, .inr rfl⟩
  | init | readSampleRate | writeSampleRate | calcDelays | capture | enqueue | dequeue =>
    exact absurd ⟨hcoeff, hvalid⟩ hchange

/-- A capture cycle that raises leaves the queues; one that ends well leaves FATAL (43_array_reader.md R147). -/
theorem captureBody_queues (s : State) :
    (captureBody s).queues = s.queues ∨ (captureBody s).fatal = s.fatal := by
  obtain ⟨raw, fpga, draw, l, -, -, e | ⟨-, e⟩ | ⟨-, e⟩⟩ := capture_cases s <;> rw [e]
  · exact .inl rfl
  · exact .inl rfl
  · exact .inr (finish_fatal _)

/-- A command that changes a queue is INIT, or one of four that has not ended in the fatal state (R30, R202). -/
theorem exec_queues {c : Instr} {s t : State} (h : exec c s = .next t) (hf : s.fatal = false)
    (hne : t.queues ≠ s.queues) :
    c = .init ∨ t.fatal = false ∧ (c = .calcDelays ∨ c = .capture ∨ ∃ ch, c = .enqueue ch ∨ c = .dequeue ch) := by
  have hframe := congrArg State.queues (exec_frame h)
  obtain rfl | ⟨-, rfl⟩ := exec_cases h
  · exact absurd rfl hne
  cases c with
  | init => exact .inl rfl
  | calcDelays =>
    obtain e | e | ⟨_, -, e⟩ := calcDelays_cases s <;> rw [commandBody, e] at hne ⊢
    · exact absurd rfl hne
    · exact absurd rfl hne
    · exact .inr ⟨(finish_fatal _).trans hf, .inl rfl⟩
  | capture =>
    obtain ⟨-, e⟩ | ⟨-, e⟩ := captureIssue_cases s <;> rw [commandBody, e] at hne ⊢
    · obtain hq | hfatal := captureBody_queues { s with evtPend := false }
      · exact absurd hq hne
      · exact .inr ⟨hfatal.trans hf, .inr (.inl rfl)⟩
    · exact absurd rfl hne
  | enqueue ch =>
    obtain ⟨-, e⟩ | ⟨-, e⟩ := enqueue_cases ch (sampleOperand s) s <;> simp only [commandBody, e] at hne ⊢
    · exact absurd rfl hne
    · exact .inr ⟨(finish_fatal _).trans hf, .inr (.inr ⟨ch, .inl rfl⟩)⟩
  | dequeue ch =>
    obtain ⟨-, e⟩ | ⟨-, e⟩ := dequeue_cases ch s <;> rw [commandBody, e] at hne ⊢
    · exact absurd rfl hne
    · exact .inr ⟨(finish_fatal _).trans hf, .inr (.inr ⟨ch, .inr rfl⟩)⟩
  | readSampleRate | writeSampleRate | selectFirCoeff | setCustomFirCoeff => exact absurd hframe hne

/-- No command's frame holds an argument, the staging buffer, a parameter or the host port (R25, R33, R42). -/
theorem commandFrame_arguments (c : Instr) (t s : State) :
    (commandFrame c t s).arg0 = s.arg0 ∧ (commandFrame c t s).arg1 = s.arg1 ∧
    (commandFrame c t s).staging = s.staging ∧ (commandFrame c t s).params = s.params ∧
    (commandFrame c t s).inputs = s.inputs ∧ (commandFrame c t s).reply = s.reply := by
  cases c <;> exact ⟨rfl, rfl, rfl, rfl, rfl, rfl⟩

/-! ### The invariant, one rule per operation -/

section Rules

variable {s : State} (h : s.Inv) {arg0 arg1 result rate : Word} {gain : Half} {coeff staging : Vector Half 128}
  {inputs : List Input} {fpga : List BusAnswer} {busLog : List BusTxn} {reply : HostReply} {draw : Nat}
include h

/-- The invariant does not speak of the registers, the coefficients, the host port or the bus. -/
theorem State.Inv.of_unmentioned :
    State.Inv { s with
      arg0 := arg0, arg1 := arg1, result := result, rate := rate, gain := gain, coeff := coeff, staging := staging,
      inputs := inputs, fpga := fpga, busLog := busLog, reply := reply, draw := draw } :=
  { h with }

/-- A command may have written any of those before it ends; from FATAL = 0 its end sets FATAL exactly with a fatal code,
and nothing waits (60_exceptions.md R201, R202). -/
theorem State.Inv.endCommand (hf : s.fatal = false) (code : ErrCode) :
    (endCommand code { s with
      arg0 := arg0, arg1 := arg1, result := result, rate := rate, gain := gain, coeff := coeff, staging := staging,
      inputs := inputs, fpga := fpga, busLog := busLog, reply := reply, draw := draw }).Inv :=
  { h with
    fatalCode := by simp [hf]
    fatalIdle := fun _ => rfl
    waiting := fun hp => nomatch hp }

theorem State.Inv.with_queues {qs : Eight DelayQueue} (hq : ∀ c, (qs.get c).count ≤ 32) :
    State.Inv { s with queues := qs } :=
  { h with counts := hq }

theorem State.Inv.with_queue (ch : Channel) (q : DelayQueue) (hq : q.count ≤ 32) :
    State.Inv { s with queues := s.queues.set ch q } := by
  refine h.with_queues fun c => ?_
  rw [Eight.get_set]
  split
  · exact hq
  · exact h.counts c

theorem State.Inv.constructed : (constructed s).Inv :=
  { h with
    counts := fun c => by simp
    waiting := fun hp => ⟨rfl, (h.waiting hp).2⟩
    armed := fun _ => rfl
    blockInited := fun _ => rfl
    coeffInited := fun _ => rfl
    block := fun hb => nomatch hb }

theorem State.Inv.armed_latch (hi : s.inited = true) : (Machine.armed s).Inv :=
  { h with
    waiting := fun _ => ⟨hi, rfl⟩
    latched := fun _ => rfl
    armed := fun _ => hi }

/-- A set of coefficients is stored only after INIT (R32). -/
theorem State.Inv.with_coeff (hi : s.inited = true) (taps : Vector Half 128) :
    State.Inv { s with coeff := taps, coeffValid := true } :=
  { h with coeffInited := fun _ => hi }

theorem State.Inv.without_block : State.Inv { s with blockValid := false } :=
  { h with
    blockInited := fun hb => nomatch hb
    block := fun hb => nomatch hb }

theorem State.Inv.without_latch : State.Inv { s with evtPend := false } :=
  { h with
    waiting := fun hp => ⟨(h.waiting hp).1, rfl⟩
    latched := fun he => nomatch he }

theorem State.Inv.without_wait : State.Inv { s with pend := none } :=
  { h with
    fatalIdle := fun _ => rfl
    waiting := fun hp => nomatch hp }

/-- An edge is latched while armed and while nothing waits (60_exceptions.md R206). -/
theorem State.Inv.with_latch (hp : s.pend = none) (he : s.evtEn = true) : State.Inv { s with evtPend := true } :=
  { h with
    waiting := fun hw => nomatch hp.symm.trans hw
    latched := fun _ => he }

/-- CAPTURE waits after INIT, with no edge latched and not in the fatal state (43_array_reader.md R145). -/
theorem State.Inv.with_wait (hf : s.fatal = false) (hi : s.inited = true) (he : s.evtPend = false) :
    State.Inv { s with pend := some .capture } :=
  { h with
    fatalIdle := fun hf' => nomatch hf.symm.trans hf'
    waiting := fun _ => ⟨hi, he⟩ }

/-- The microphone reads write rows of NUM_SAMPLES samples (R146). -/
theorem State.Inv.micRead {raw : Eight (List Half)} (hraw : ∀ c, (raw.get c).length = s.params.numSamples)
    (fpga : List BusAnswer) (draw : Nat) (l : List BusTxn) : (micRead s raw fpga draw l).Inv :=
  { h with rawRows := hraw }

/-- The delayed block and its beam: depths and sizes are kept, and the beam is the clamped sum (R147, R148). -/
theorem State.Inv.with_block (hi : s.inited = true) :
    State.Inv { beamform (delayChannels s) with blockValid := true } :=
  { h with
    counts := fun c => by simpa using h.counts c
    delayedRows := fun c => by simpa using h.rawRows c
    beamRow := by simp
    blockInited := fun _ => hi
    block := fun _ => rfl }

/-! ### The invariant, command by command -/

theorem State.Inv.readRateConfig (hf : s.fatal = false) : (readRateConfig s).Inv := by
  obtain e | ⟨_, e⟩ | ⟨_, _, e⟩ | ⟨_, _, _, -, e⟩ := readRateConfig_cases s <;> rw [e] <;> exact h.endCommand hf _

theorem State.Inv.writeSampleRateBody (hf : s.fatal = false) : (writeSampleRateBody s).Inv := by
  obtain e | ⟨_, -, e | e | e⟩ := writeSampleRate_cases s <;> rw [e] <;> exact h.endCommand hf _

theorem State.Inv.storeAndPush (hf : s.fatal = false) (hi : s.inited = true) (taps : Vector Half 128) :
    (storeAndPush taps s).Inv := by
  obtain ⟨ok, e⟩ := storeAndPush_eq taps s
  rw [e]
  exact (h.with_coeff hi taps).endCommand hf _

theorem State.Inv.selectFirCoeffBody (hf : s.fatal = false) (hi : s.inited = true) : (selectFirCoeffBody s).Inv := by
  obtain e | ⟨f, e⟩ := selectFirCoeff_cases s <;> rw [e]
  · exact h.endCommand hf _
  · exact h.storeAndPush hf hi f.taps

theorem State.Inv.calcDelaysBody (hf : s.fatal = false) : (calcDelaysBody s).Inv := by
  obtain e | e | ⟨k, hroom, e⟩ := calcDelays_cases s <;> rw [e]
  · exact h.endCommand hf _
  · exact h.endCommand hf _
  · have hq := h.with_queues (qs := seeded k s.queues) fun c => by simpa [seeded] using hroom c
    exact hq.endCommand hf _

theorem State.Inv.enqueueBody (hf : s.fatal = false) (ch : Channel) (v : Half) : (enqueueBody ch v s).Inv := by
  obtain ⟨-, e⟩ | ⟨hroom, e⟩ := enqueue_cases ch v s <;> rw [e]
  · exact h.endCommand hf _
  · have hcount := h.counts ch
    have hq := h.with_queue ch ((s.queues.get ch).push v) (by rw [DelayQueue.push_count]; omega)
    exact hq.endCommand hf _

theorem State.Inv.dequeueBody (hf : s.fatal = false) (ch : Channel) : (dequeueBody ch s).Inv := by
  obtain ⟨-, e⟩ | ⟨-, e⟩ := dequeue_cases ch s <;> rw [e]
  · exact h.endCommand hf _
  · have hcount := h.counts ch
    have hq := h.with_queue ch (s.queues.get ch).pop (by rw [DelayQueue.pop_count]; omega)
    exact hq.endCommand hf _

theorem State.Inv.initBody (hf : s.fatal = false) : (initBody s).Inv := by
  obtain e | e | ⟨k, -, hk, e⟩ := init_cases s <;> rw [e]
  · exact h.constructed.endCommand hf _
  · exact h.constructed.endCommand hf _
  · have hseeded := h.constructed.with_queues (qs := seeded k (Machine.constructed s).queues) fun c => by
      simpa [seeded] using hk c
    exact (hseeded.armed_latch rfl).readRateConfig hf

theorem State.Inv.captureBody (hf : s.fatal = false) (hi : s.inited = true) : (captureBody s).Inv := by
  obtain ⟨raw, fpga, draw, l, -, hraw, hcase⟩ := capture_cases s
  have hread := h.micRead (fun c => hraw c (h.rawRows c)) fpga draw l
  obtain e | ⟨-, e⟩ | ⟨-, e⟩ := hcase <;> rw [e]
  · exact hread.without_block.endCommand hf _
  · exact hread.endCommand hf _
  · exact (hread.with_block hi).endCommand hf _

theorem State.Inv.captureIssue (hf : s.fatal = false) (hi : s.inited = true) : (captureIssue s).Inv := by
  obtain ⟨-, e⟩ | ⟨he, e⟩ := captureIssue_cases s <;> rw [e]
  · exact h.without_latch.captureBody hf hi
  · exact h.with_wait hf hi he

/-- Every command keeps the invariant, once past the gate. -/
theorem State.Inv.commandBody (hf : s.fatal = false) {c : Instr} (hgate : c = .init ∨ s.inited = true) :
    (commandBody c s).Inv := by
  cases c with
  | init => exact h.initBody hf
  | readSampleRate => exact h.readRateConfig hf
  | writeSampleRate => exact h.writeSampleRateBody hf
  | selectFirCoeff => exact h.selectFirCoeffBody hf (hgate.resolve_left nofun)
  | setCustomFirCoeff => exact h.storeAndPush hf (hgate.resolve_left nofun) (coeffOperand s)
  | calcDelays => exact h.calcDelaysBody hf
  | capture => exact h.captureIssue hf (hgate.resolve_left nofun)
  | enqueue ch => exact h.enqueueBody hf ch (sampleOperand s)
  | dequeue ch => exact h.dequeueBody hf ch

theorem State.Inv.exec {c : Instr} {t : State} (hf : s.fatal = false) (he : exec c s = .next t) : t.Inv := by
  obtain rfl | ⟨hgate, rfl⟩ := exec_cases he
  · exact h.endCommand hf _
  · exact h.commandBody hf hgate

theorem State.Inv.dataReadyEdge : (dataReadyEdge s).Inv := by
  obtain ⟨-, e⟩ | ⟨hf, -, hp, e⟩ | ⟨-, hen, hp, e⟩ := dataReady_cases s <;> rw [e]
  · exact h
  · exact h.without_wait.captureBody hf (h.waiting hp).1
  · exact h.with_latch hp hen

end Rules

/-- The values of R43 meet the invariant under allowed parameters, whatever reset leaves unspecified. -/
theorem initial_inv {p : Params} (hp : p.Legal) (draw : Nat) : (State.initial p draw).Inv where
  params := hp
  counts c := by simp [State.initial, DelayQueue.unspecified]
  rawRows c := by simp [State.initial]
  delayedRows c := by simp [State.initial]
  beamRow := by simp [State.initial]
  fatalCode := rfl
  fatalIdle _ := rfl
  waiting hp := nomatch hp
  latched he := nomatch he
  armed he := nomatch he
  blockInited hb := nomatch hb
  coeffInited hc := nomatch hc
  block hb := nomatch hb

theorem State.Inv.resetEvent {s : State} (h : s.Inv) : (resetEvent s).Inv :=
  (initial_inv h.params s.draw).of_unmentioned

/-! ### The fatal state -/

/-- A fatal code writes STATUS.ERR, sets FATAL and ends the wait (R202). -/
theorem raise_of_fatal (s : State) {e : ErrCode} (he : e.isFatal = true) :
    raise e s = { s with err := e, fatal := true, pend := none } := by
  simp [raise, endCommand, he]

theorem dataReadyEdge_of_fatal {s : State} (hf : s.fatal = true) : dataReadyEdge s = s := by
  simp [dataReadyEdge, hf]

/-- While FATAL = 1 every write is refused (R56, R202). -/
theorem hostWrite_of_fatal {s : State} (hf : s.fatal = true) (o : BitVec 16) (b : Nat) (w : Word) :
    hostWrite o b w s = .next { s with reply := .error } :=
  hostWrite_refused (by simp [served_of_fatal hf]) w

/-- While FATAL = 1 a read of STATUS is answered and every other read refused (R56, R202). -/
theorem readReply_of_fatal {s : State} (hf : s.fatal = true) (o : BitVec 16) (b : Nat) :
    readReply s o b = if o = 0x0004#16 ∧ b = 32 then .data s.status else .error := by
  split
  · next h => exact readReply_served (r := .status) (by simp [served_of_fatal hf, h])
  · next h => exact readReply_refused (by simp [served_of_fatal hf, h])

/-! ### The layout of STATUS -/

/-- The last bit of a word that ends in a flag is the flag. -/
theorem getLsbD_append_bitOf_zero {n : Nat} (x : BitVec n) (b : Bool) : (x ++ bitOf b).getLsbD 0 = b := by
  rw [BitVec.getLsbD_append]
  cases b <;> rfl

theorem getLsbD_append_bitOf_succ {n : Nat} (x : BitVec n) (b : Bool) (i : Nat) :
    (x ++ bitOf b).getLsbD (i + 1) = x.getLsbD i := by
  simp [BitVec.getLsbD_append]

/-- ERR stands in bits 3:0 of STATUS (R23). -/
theorem status_err (s : State) : s.status.extractLsb' 0 4 = s.err.code :=
  BitVec.extractLsb'_append_eq_right

/-- Above ERR, STATUS holds its seven flags in the order of R23, and 0 above them. -/
theorem status_getLsbD (s : State) (i : Nat) : s.status.getLsbD (4 + i) =
    [s.fatal, s.busy, s.evtPend, s.evtEn, s.inited, s.blockValid, s.coeffValid].getD i false := by
  have hflags : s.status.getLsbD (4 + i) = BitVec.getLsbD _ i :=
    BitVec.getLsbD_append.trans ((if_neg (by omega)).trans (by rw [Nat.add_sub_cancel_left]))
  rw [hflags]
  match i with
  | 0 | 1 | 2 | 3 | 4 | 5 | 6 => simp only [getLsbD_append_bitOf_zero, getLsbD_append_bitOf_succ]; rfl
  | n + 7 => simp only [getLsbD_append_bitOf_succ, BitVec.ofNat_eq_ofNat, BitVec.getLsbD_zero]; rfl

/-- BUSY is 1 exactly while CAPTURE is pending (R41). -/
theorem busy_eq_decide (s : State) : s.busy = decide (s.pend = some .capture) := by
  rw [State.busy]
  exact beq_eq_decide ..

/-! ### The obligations -/

/-- Settles O12: each of the four effects of a step keeps the invariant, by its rule. -/
theorem stepKeepsInvariant : Obligations.StepKeepsInvariant := by
  intro s t h hstep
  obtain e | ⟨-, rfl⟩ | ⟨-, rfl⟩ | ⟨w, -, hf, -, rfl | ⟨c, -, he⟩⟩ := step_effects hstep
  · rw [e]
    exact h.of_unmentioned
  · exact h.of_unmentioned.dataReadyEdge
  · exact h.of_unmentioned.resetEvent
  · exact h.endCommand hf _
  · have haccepted : (accepted s).Inv := h.of_unmentioned
    exact haccepted.exec hf he

/-- Settles O13: entry by the two fatal codes, then each kind of input while FATAL = 1. -/
theorem fatalStateLeftOnlyByReset : Obligations.FatalStateLeftOnlyByReset := by
  refine ⟨fun s => ⟨raise_of_fatal s rfl, raise_of_fatal s rfl⟩, rfl, rfl, fun s hi => step_nil hi, ?_⟩
  intro s i rest hf hi
  have hf' : (takeInput rest s).fatal = true := hf
  rw [step_cons hi]
  refine ⟨?_, ?_, ?_, ?_⟩
  · rintro rfl
    exact ⟨_, rfl, rfl⟩
  · rintro rfl
    exact congrArg Host.Outcome.next (dataReadyEdge_of_fatal hf')
  · rintro o b w rfl
    exact hostWrite_of_fatal hf' o b w
  · rintro o b rfl
    have hreply := readReply_of_fatal hf' o b
    show Host.Outcome.next { takeInput rest s with reply := readReply (takeInput rest s) o b } = _
    rw [hreply]; rfl

/-- Settles O53: a quiet step and an edge leave RESULT, and so does a command but by `exec_result`. -/
theorem onlyThreeCommandsWriteResult : Obligations.OnlyThreeCommandsWriteResult := by
  intro s t hstep hne
  obtain hr | hsame | ⟨-, -, hframe⟩ | ⟨w, c, hw, hd, -, he⟩ := step_writes hstep
  · exact .inl hr
  · exact absurd (congrArg State.result hsame) hne
  · exact absurd (congrArg State.result hframe) hne
  · obtain ⟨hok, hcase⟩ := exec_result he hne
    exact .inr ⟨w, c, hw, hd, hok, hcase⟩

/-- Settles O54: a quiet step and an edge leave gain and rate, and so does a command but by `exec_gain_rate`. -/
theorem onlyRateCommandsWriteGainAndRate : Obligations.OnlyRateCommandsWriteGainAndRate := by
  intro s t hstep hne
  have hchange : ¬ (t.gain = s.gain ∧ t.rate = s.rate) := by rwa [not_and_or]
  obtain hr | hsame | ⟨-, -, hframe⟩ | ⟨w, c, hw, hd, -, he⟩ := step_writes hstep
  · exact .inl hr
  · exact absurd (by rw [hsame]; exact ⟨rfl, rfl⟩) hchange
  · exact absurd (by rw [hframe]; exact ⟨rfl, rfl⟩) hchange
  · obtain ⟨hok, hcase⟩ := exec_gain_rate he hchange
    exact .inr ⟨w, c, hw, hd, hok, hcase⟩

/-- Settles O55: a quiet step leaves the blocks, and so does a command but by `exec_blocks`. -/
theorem blocksStayUntilCaptureInitOrReset : Obligations.BlocksStayUntilCaptureInitOrReset := by
  intro s t hstep hne
  have hchange : ¬ (t.delayed = s.delayed ∧ t.beam = s.beam ∧ t.blockValid = s.blockValid) := by
    rwa [not_and_or, not_and_or]
  obtain hr | hsame | ⟨hedge, hp, -⟩ | ⟨w, c, hw, hd, -, he⟩ := step_writes hstep
  · exact .inl hr
  · exact absurd (by rw [hsame]; exact ⟨rfl, rfl, rfl⟩) hchange
  · exact .inr (.inl ⟨hedge, hp⟩)
  · obtain rfl | ⟨rfl, hblocks⟩ := exec_blocks he hchange
    · exact .inr (.inr ⟨w, hw, .inl hd⟩)
    · exact .inr (.inr ⟨w, hw, .inr ⟨hd, hblocks⟩⟩)

/-- Settles O56: a quiet step and an edge leave the coefficients, and so does a command but by `exec_coeff`. -/
theorem onlyFilterCommandsWriteCoefficients : Obligations.OnlyFilterCommandsWriteCoefficients := by
  intro s t hstep hne
  have hchange : ¬ (t.coeff = s.coeff ∧ t.coeffValid = s.coeffValid) := by rwa [not_and_or]
  obtain hr | hsame | ⟨-, -, hframe⟩ | ⟨w, c, hw, hd, -, he⟩ := step_writes hstep
  · exact .inl hr
  · exact absurd (by rw [hsame]; exact ⟨rfl, rfl⟩) hchange
  · exact absurd (by rw [hframe]; exact ⟨rfl, rfl⟩) hchange
  · obtain ⟨hvalid, rfl | rfl⟩ := exec_coeff he hchange
    · exact .inr ⟨w, hw, hvalid, .inl hd⟩
    · exact .inr ⟨w, hw, hvalid, .inr hd⟩

/-- Settles O57: a quiet step leaves the queues, and so does a command but by `exec_queues`. -/
theorem onlyQueueCommandsChangeQueues : Obligations.OnlyQueueCommandsChangeQueues := by
  intro s t hstep hne
  obtain hr | hsame | ⟨hedge, hp, -⟩ | ⟨w, c, hw, hd, hf, he⟩ := step_writes hstep
  · exact .inl hr
  · exact absurd (congrArg State.queues hsame) hne
  · exact .inr (.inl ⟨hedge, hp⟩)
  · exact .inr (.inr ⟨w, c, hw, hd, exec_queues he hf hne⟩)

/-- Settles O58: no command's frame holds any of these fields. -/
theorem commandsLeaveArguments : Obligations.CommandsLeaveArguments := by
  intro c s t he
  rw [exec_frame he]
  exact commandFrame_arguments c t s

/-- Settles O59: while BUSY no write to CMD is accepted, so such a step stays on the host port. -/
theorem onlyEdgeOrResetEndsTheWait : Obligations.OnlyEdgeOrResetEndsTheWait := by
  intro s t hstep _ hp hnotReset hnotEdge
  obtain e | ⟨hedge, -⟩ | ⟨hreset, -⟩ | ⟨w, -, -, hbusy, -⟩ := step_effects hstep
  · rw [e]
    exact ⟨hp, rfl, rfl, rfl, rfl, rfl⟩
  · exact absurd hedge hnotEdge
  · exact absurd hreset hnotReset
  · exact nomatch hp.symm.trans (pend_of_not_busy hbusy)

/-- Settles O9: the registers by the definition of reset, the queues by their value at each channel. -/
theorem resetValues : Obligations.ResetValues := by
  refine ⟨rfl, rfl, rfl, rfl, rfl, rfl, fun c => ?_, rfl⟩
  have hq : State.reset.queues.get c = DelayQueue.unspecified 0 c := Eight.get_ofFn _ c
  rw [hq]
  exact ⟨rfl, rfl⟩

/-- Settles O11: the parameters out of reset are allowed ones. -/
theorem resetMeetsInvariant : Obligations.ResetMeetsInvariant := initial_inv params_legal 0

/-- Settles O20: the field ERR with its codes, then each flag at its place, then the reserved bits. -/
theorem statusLayout : Obligations.StatusLayout := by
  intro s
  refine ⟨?_, status_getLsbD s 0, (status_getLsbD s 1).trans (busy_eq_decide s), status_getLsbD s 2,
    status_getLsbD s 3, status_getLsbD s 4, status_getLsbD s 5, status_getLsbD s 6, ?_⟩
  · rw [status_err]
    cases s.err <;> rfl
  · apply BitVec.eq_of_getLsbD_eq
    intro i hi
    have habove : s.status.getLsbD (11 + i) = false := by
      rw [show 11 + i = 4 + (i + 7) by omega, status_getLsbD]; rfl
    rw [BitVec.getLsbD_extractLsb', habove, Bool.and_false]
    exact BitVec.getLsbD_zero.symm

end Sys2Proof.Machine
end

section
/-! PROOFS of the family 20_memory.md: which host accesses are served and what they return or store (O15 to O19), the
issue of a command (O5), and the transactions on the FPGA bus (O21, O22). -/

namespace Sys2Proof.Machine

/-! ### A step that serves a host access -/

section Access

variable {s : State} {rest : List Input} {o : BitVec 16} {b : Nat}

/-- A host read changes nothing but the answer (20_memory.md R57). -/
theorem step_hostRead (hi : s.inputs = .hostRead o b :: rest) :
    step s = .next { s with inputs := rest, reply := readReply s o b } :=
  step_cons hi

theorem step_hostRead_refused (hi : s.inputs = .hostRead o b :: rest) (h : served s o b .read = none) :
    step s = .next { s with inputs := rest, reply := .error } := by
  rw [step_hostRead hi, readReply_refused h]

theorem step_hostRead_served {r : HostReg} (hi : s.inputs = .hostRead o b :: rest)
    (h : served s o b .read = some r) : step s = .next { s with inputs := rest, reply := .data (readReg s r) } := by
  rw [step_hostRead hi, readReply_served h]

/-- Taking the input leaves everything that decides whether an access is served. -/
theorem served_takeInput (d : Direction) : served (takeInput rest s) o b d = served s o b d := rfl

theorem step_hostWrite_refused {w : Word} (hi : s.inputs = .hostWrite o b w :: rest)
    (h : served s o b .write = none) : step s = .next { s with inputs := rest, reply := .error } :=
  (step_cons hi).trans (hostWrite_refused ((served_takeInput .write).trans h) w)

/-- An access that is served in neither direction gets an error response whichever it is (R51 to R56). -/
theorem step_refused {w : Word} {i : Input} (hio : i = .hostRead o b ∨ i = .hostWrite o b w)
    (hi : s.inputs = i :: rest) (h : ∀ d, served s o b d = none) :
    step s = .next { s with inputs := rest, reply := .error } := by
  obtain rfl | rfl := hio
  · exact step_hostRead_refused hi (h .read)
  · exact step_hostWrite_refused hi (h .write)

end Access

/-! ### The map, its directions and its guards -/

/-- The offsets that R52 lists are the offsets of the registers in the map. -/
theorem listedOffset_iff {n m : Nat} : listedOffset n m ↔ ∃ r : HostReg, r.inMap n ∧ m = r.offset := by
  constructor
  · rintro (h | ⟨c, hc, rfl⟩ | ⟨k, hk, rfl⟩ | ⟨k, hk, rfl⟩ | ⟨c, hc, k, hk, rfl⟩ | ⟨k, hk, rfl⟩)
    · simp only [List.mem_cons, List.not_mem_nil, or_false] at h
      obtain rfl | rfl | rfl | rfl | rfl | rfl | rfl := h
      · exact ⟨.cmd, trivial, rfl⟩
      · exact ⟨.status, trivial, rfl⟩
      · exact ⟨.arg0, trivial, rfl⟩
      · exact ⟨.arg1, trivial, rfl⟩
      · exact ⟨.result, trivial, rfl⟩
      · exact ⟨.gain, trivial, rfl⟩
      · exact ⟨.rate, trivial, rfl⟩
    · exact ⟨.depth ⟨c, hc⟩, trivial, rfl⟩
    · exact ⟨.coeff ⟨k, hk⟩, trivial, rfl⟩
    · exact ⟨.custom ⟨k, hk⟩, trivial, rfl⟩
    · exact ⟨.delayed ⟨c, hc⟩ k, hk, rfl⟩
    · exact ⟨.beam k, hk, rfl⟩
  · rintro ⟨r, hr, rfl⟩
    cases r with
    | cmd | status | arg0 | arg1 | result | gain | rate => exact .inl (by decide)
    | depth c => exact .inr (.inl ⟨c, c.isLt, rfl⟩)
    | coeff k => exact .inr (.inr (.inl ⟨k, k.isLt, rfl⟩))
    | custom k => exact .inr (.inr (.inr (.inl ⟨k, k.isLt, rfl⟩)))
    | delayed c k => exact .inr (.inr (.inr (.inr (.inl ⟨c, c.isLt, k, hr, rfl⟩))))
    | beam k => exact .inr (.inr (.inr (.inr (.inr ⟨k, hr, rfl⟩))))

/-- Below the sample windows the map does not depend on NUM_SAMPLES (R52). -/
theorem HostReg.inMap_of_offset_lt {r : HostReg} (h : r.offset < 0x4000) (n : Nat) : r.inMap n := by
  cases r with
  | delayed | beam => exact absurd h (by simp only [HostReg.offset]; omega)
  | cmd | status | arg0 | arg1 | result | gain | rate | depth | coeff | custom => trivial

/-- Every register but CMD, the one at offset 0, may be read (R54). -/
theorem HostReg.allows_read {r : HostReg} (h : r.offset ≠ 0) : r.allows .read = true := by
  cases r with
  | cmd => exact absurd rfl h
  | _ => rfl

/-- Only CMD, ARG0, ARG1 and the CUSTOM window may be written (R52, R54). -/
theorem HostReg.offset_of_allows_write {r : HostReg} (h : r.allows .write = true) :
    r.offset ∈ [0x0000, 0x0008, 0x000C] ∨ (0x0200 ≤ r.offset ∧ r.offset < 0x0300) := by
  cases r with
  | cmd | arg0 | arg1 => exact .inl (by decide)
  | custom k => exact .inr (by simp only [HostReg.offset]; omega)
  | status | result | gain | rate | depth | coeff | delayed | beam => exact nomatch h

/-- At and above offset 0x4000 stand DELAYED and BEAM alone, which BLOCK_VALID guards (R52, R56). -/
theorem guardOpen_sample_window {s : State} {r : HostReg} {d : Direction} (h : 0x4000 ≤ r.offset)
    (hg : guardOpen s r d = true) : s.blockValid = true := by
  cases r with
  | delayed | beam => exact (Bool.and_eq_true_iff.1 hg).2
  | cmd | status | arg0 | arg1 | result | gain | rate => exact absurd h (by decide)
  | depth | coeff | custom => exact absurd h (by simp only [HostReg.offset]; omega)

/-- In 0x0100..0x01FF stands COEFF alone, which COEFF_VALID guards (R52, R56). -/
theorem guardOpen_coeff_window {s : State} {r : HostReg} {d : Direction} (h : 0x0100 ≤ r.offset)
    (h' : r.offset < 0x0200) (hg : guardOpen s r d = true) : s.coeffValid = true := by
  cases r with
  | coeff => exact (Bool.and_eq_true_iff.1 hg).2
  | cmd | status | arg0 | arg1 | result | gain | rate => exact absurd h (by decide)
  | depth => exact absurd h (by simp only [HostReg.offset]; omega)
  | custom | delayed | beam => exact absurd h' (by simp only [HostReg.offset]; omega)

/-- Outside the three guarded windows FATAL = 0 is all an access needs (R56). -/
theorem guardOpen_unguarded {s : State} {r : HostReg} (hf : s.fatal = false)
    (h : r.offset < 0x0100 ∨ (0x0200 ≤ r.offset ∧ r.offset < 0x4000)) (d : Direction) : guardOpen s r d = true := by
  cases r with
  | coeff | delayed | beam => exact absurd h (by simp only [HostReg.offset]; omega)
  | _ => simp [guardOpen, hf]

/-- With no guard closed every access may be served (R56). -/
theorem guardOpen_of_valid {s : State} (hf : s.fatal = false) (hb : s.blockValid = true) (hc : s.coeffValid = true)
    (r : HostReg) (d : Direction) : guardOpen s r d = true := by
  cases r <;> simp [guardOpen, hf, hb, hc]

/-! ### Accesses that are served, and accesses that are not -/

/-- An access that is served has a register, in the map, at its offset. -/
theorem served_offset {s : State} {o : BitVec 16} {b : Nat} {d : Direction} {r : HostReg}
    (h : served s o b d = some r) :
    o.toNat = r.offset ∧ r.inMap s.params.numSamples ∧ r.allows d = true ∧ guardOpen s r d = true := by
  obtain ⟨ha, -, hr, hallows, hguard⟩ := served_some h
  obtain ⟨ho, hin⟩ := hostReg_offset ha hr
  exact ⟨ho, hin, hallows, hguard⟩

/-- A reserved offset is served in no direction (R53). -/
theorem served_reserved {s : State} {o : BitVec 16} (h : ¬ listedOffset s.params.numSamples o.toNat) (b : Nat)
    (d : Direction) : served s o b d = none := by
  rw [Option.eq_none_iff_forall_ne_some]
  intro r hr
  obtain ⟨ho, hin, -, -⟩ := served_offset hr
  exact h (listedOffset_iff.2 ⟨r, hin, ho⟩)

/-- No read of CMD is served (R54). -/
theorem served_cmd_read (s : State) (b : Nat) : served s 0x0000#16 b .read = none := by
  rw [Option.eq_none_iff_forall_ne_some]
  intro r hr
  obtain ⟨-, -, hreg, hallows, -⟩ := served_some hr
  obtain rfl : HostReg.cmd = r := Option.some.inj hreg
  exact nomatch hallows

/-- No write is served but at CMD, ARG0, ARG1 and in the CUSTOM window (R54). -/
theorem served_write_elsewhere {o : BitVec 16} (h : o.toNat ∉ [0x0000, 0x0008, 0x000C])
    (h' : o.toNat < 0x0200 ∨ 0x0300 ≤ o.toNat) (s : State) (b : Nat) : served s o b .write = none := by
  rw [Option.eq_none_iff_forall_ne_some]
  intro r hr
  obtain ⟨ho, -, hallows, -⟩ := served_offset hr
  obtain hmem | hcustom := HostReg.offset_of_allows_write hallows
  · exact h (ho ▸ hmem)
  · omega

/-- While BLOCK_VALID = 0 no access is served at or above 0x4000 (R56). -/
theorem served_without_block {s : State} (hv : s.blockValid = false) {o : BitVec 16} (h : 0x4000 ≤ o.toNat) (b : Nat)
    (d : Direction) : served s o b d = none := by
  rw [Option.eq_none_iff_forall_ne_some]
  intro r hr
  obtain ⟨ho, -, -, hguard⟩ := served_offset hr
  exact nomatch hv.symm.trans (guardOpen_sample_window (ho ▸ h) hguard)

/-- While COEFF_VALID = 0 no access is served in 0x0100..0x01FF (R56). -/
theorem served_without_coeff {s : State} (hv : s.coeffValid = false) {o : BitVec 16} (h : 0x0100 ≤ o.toNat)
    (h' : o.toNat < 0x0200) (b : Nat) (d : Direction) : served s o b d = none := by
  rw [Option.eq_none_iff_forall_ne_some]
  intro r hr
  obtain ⟨ho, -, -, hguard⟩ := served_offset hr
  exact nomatch hv.symm.trans (guardOpen_coeff_window (ho ▸ h) (ho ▸ h') hguard)

/-- A read of a listed offset but CMD is served, when no guard of its register is closed. -/
theorem served_listed_read {s : State} {o : BitVec 16} (hl : listedOffset s.params.numSamples o.toNat)
    (h0 : o.toNat ≠ 0) (hn : s.params.numSamples ≤ 1024 ∨ o.toNat < 0x4000)
    (hg : ∀ r : HostReg, o.toNat = r.offset → guardOpen s r .read = true) :
    ∃ r, served s o 32 .read = some r := by
  obtain ⟨r, hin, ho⟩ := listedOffset_iff.1 hl
  have hofNat : BitVec.ofNat 16 r.offset = o := by rw [← ho, BitVec.ofNat_toNat, BitVec.setWidth_eq]
  have hsize : s.params.numSamples ≤ 1024 ∨ ∀ m, r.inMap m :=
    hn.imp_right fun hlt => HostReg.inMap_of_offset_lt (ho ▸ hlt)
  exact ⟨r, hofNat ▸ served_at hin hsize (HostReg.allows_read (ho ▸ h0)) (hg r ho)⟩

/-- Outside the three guarded windows an access in an allowed direction is served while FATAL = 0 (R56). -/
theorem served_unguarded {s : State} {r : HostReg} {d : Direction} (hf : s.fatal = false)
    (hr : r.offset < 0x0100 ∨ (0x0200 ≤ r.offset ∧ r.offset < 0x4000)) (hallows : r.allows d = true) :
    served s (BitVec.ofNat 16 r.offset) 32 d = some r :=
  have hin := HostReg.inMap_of_offset_lt (r := r) (by omega)
  served_at (hin _) (.inr hin) hallows (guardOpen_unguarded hf hr d)

/-- The offsets of R56's last row, the reads that no valid bit guards: they are listed, and no CMD. -/
theorem listedOffset_unguarded_read (n : Nat) {m : Nat} (ha : m % 4 = 0)
    (h : m ∈ [0x0004, 0x0008, 0x000C, 0x0010, 0x0014, 0x0018] ∨ (0x0020 ≤ m ∧ m < 0x0040) ∨
      (0x0200 ≤ m ∧ m < 0x0300)) :
    listedOffset n m ∧ m ≠ 0 ∧ (m < 0x0100 ∨ (0x0200 ≤ m ∧ m < 0x4000)) := by
  obtain hreg | hdepth | hcustom := h
  · refine ⟨.inl (List.mem_cons_of_mem _ hreg), ?_⟩
    simp only [List.mem_cons, List.not_mem_nil, or_false] at hreg
    omega
  · exact ⟨.inr (.inl ⟨(m - 0x0020) / 4, by omega, by omega⟩), by omega, by omega⟩
  · exact ⟨.inr (.inr (.inr (.inl ⟨(m - 0x0200) / 4, by omega, by omega⟩))), by omega, by omega⟩

/-- STATUS is read in every state (R56). -/
theorem served_status (s : State) : served s 0x0004#16 32 .read = some .status :=
  served_at (r := .status) trivial (.inr fun _ => trivial) rfl (by simp [guardOpen])

/-! ### What a read returns -/

/-- Outside the three guarded windows a read returns the register's content while FATAL = 0 (R52, R56). -/
theorem readReply_unguarded {s : State} {r : HostReg} (hf : s.fatal = false)
    (hr : r.offset < 0x0100 ∨ (0x0200 ≤ r.offset ∧ r.offset < 0x4000)) (hallows : r.allows .read = true) :
    readReply s (BitVec.ofNat 16 r.offset) 32 = .data (readReg s r) :=
  readReply_served (served_unguarded hf hr hallows)

/-- A window word of 128 taps is the two taps it packs (R55). -/
theorem windowWord_vector (v : Vector Half 128) (k : Fin 64) :
    windowWord v.toList k.val = v[2 * k.val + 1] ++ v[2 * k.val] := by
  have hget (i : Nat) (hi : i < 128) : v.toList.getD i 0 = v[i] := by
    rw [List.getD_eq_getElem _ _ (by simpa using hi), Vector.getElem_toList]
  rw [windowWord, hget, hget]

/-- DEPTH[c] holds every count that a queue can have (10_state.md R29, R31). -/
theorem readReg_depth_toNat {s : State} {c : Channel} (h : (s.queues.get c).count ≤ 32) :
    (readReg s (.depth c)).toNat = (s.queues.get c).count := by
  simp only [readReg, BitVec.toNat_setWidth, BitVec.toNat_ofNat]
  omega

/-! ### What a write does -/

section Write

variable {s : State} {rest : List Input} {w : Word}

theorem step_write_arg0 (hf : s.fatal = false) (hi : s.inputs = .hostWrite 0x0008#16 32 w :: rest) :
    step s = .next { s with arg0 := w, inputs := rest, reply := .ack } := by
  have hserved : served s 0x0008#16 32 .write = some .arg0 :=
    served_unguarded (r := .arg0) hf (by decide) rfl
  rw [step_cons hi, serve, hostWrite, served_takeInput, hserved]
  rfl

theorem step_write_arg1 (hf : s.fatal = false) (hi : s.inputs = .hostWrite 0x000C#16 32 w :: rest) :
    step s = .next { s with arg1 := w, inputs := rest, reply := .ack } := by
  have hserved : served s 0x000C#16 32 .write = some .arg1 :=
    served_unguarded (r := .arg1) hf (by decide) rfl
  rw [step_cons hi, serve, hostWrite, served_takeInput, hserved]
  rfl

theorem step_write_custom (hf : s.fatal = false) {k : Fin 64}
    (hi : s.inputs = .hostWrite (BitVec.ofNat 16 (0x0200 + 4 * k.val)) 32 w :: rest) :
    step s = .next { s with staging := writeCustom k w s.staging, inputs := rest, reply := .ack } := by
  have hserved : served s (BitVec.ofNat 16 (0x0200 + 4 * k.val)) 32 .write = some (.custom k) :=
    served_unguarded (r := .custom k) hf (by simp only [HostReg.offset]; omega) rfl
  rw [step_cons hi, serve, hostWrite, served_takeInput, hserved]
  rfl

/-- A write of ARG0, ARG1 or a word of CUSTOM is acknowledged while FATAL = 0 (R56). -/
theorem step_write_acknowledged {o : BitVec 16} (hf : s.fatal = false) (hi : s.inputs = .hostWrite o 32 w :: rest)
    (ha : o.toNat % 4 = 0) (h : o.toNat ∈ [0x0008, 0x000C] ∨ (0x0200 ≤ o.toNat ∧ o.toNat < 0x0300)) :
    ∃ t, step s = .next t ∧ t.reply = .ack := by
  obtain hargs | ⟨hlow, hhigh⟩ := h
  · simp only [List.mem_cons, List.not_mem_nil, or_false] at hargs
    obtain h8 | hC := hargs
    · obtain rfl : o = 0x0008#16 := BitVec.eq_of_toNat_eq h8
      exact ⟨_, step_write_arg0 hf hi, rfl⟩
    · obtain rfl : o = 0x000C#16 := BitVec.eq_of_toNat_eq hC
      exact ⟨_, step_write_arg1 hf hi, rfl⟩
  · have hk : (o.toNat - 0x0200) / 4 < 64 := by omega
    have ho : BitVec.ofNat 16 (0x0200 + 4 * ((o.toNat - 0x0200) / 4)) = o := by
      rw [show 0x0200 + 4 * ((o.toNat - 0x0200) / 4) = o.toNat by omega, BitVec.ofNat_toNat, BitVec.setWidth_eq]
    exact ⟨_, step_write_custom (k := ⟨_, hk⟩) (w := w) (rest := rest) hf (by rw [ho, hi]), rfl⟩

/-- An accepted write to CMD issues its word (60_exceptions.md R204). -/
theorem step_cmdWrite (hf : s.fatal = false) (hb : s.busy = false) (hi : s.inputs = cmdWrite w :: rest) :
    step s = issue w { s with inputs := rest, reply := .ack } := by
  have hf' : (takeInput rest s).fatal = false := hf
  have hb' : (takeInput rest s).busy = false := hb
  rw [step_cons hi, serve, hostWrite_cmd hf', writeCmd, hb']
  rfl

end Write

theorem issue_of_decode {w : Word} {c : Instr} (hd : decode w = .ok c) (s : State) : issue w s = exec c s := by
  rw [issue, hd]

/-- Issuing a word takes no input (10_state.md R25). -/
theorem issue_inputs {w : Word} {s t : State} (h : issue w s = .next t) : t.inputs = s.inputs := by
  unfold issue at h
  split at h
  · next c _ =>
    obtain ⟨-, -, -, -, hinputs, -⟩ := commandsLeaveArguments c s t h
    exact hinputs
  · obtain rfl := Host.Outcome.next.inj h
    rfl

/-- A write to CUSTOM[k] sets taps `2k` and `2k+1` and no other (R52). -/
theorem writeCustom_getElem (k : Fin 64) (w : Word) (staging : Vector Half 128) {j : Nat} (hj : j < 128) :
    (writeCustom k w staging)[j] = if j = 2 * k.val + 1 then w.extractLsb' 16 16
      else if j = 2 * k.val then w.extractLsb' 0 16 else staging[j] := by
  simp only [writeCustom, Vector.getElem_set, eq_comm]

/-! ### The transactions of R60 -/

/-- A row of R60's table, with the length and the content of its transactions. -/
inductive ListedTxn (p : Params) (coeff : Vector Half 128) : BusTxn → Prop
  | readMic (a) : ListedTxn p coeff (.read p.micAddr (2 * p.numSamples) a)
  | readGain (a) : ListedTxn p coeff (.read p.gainAddr 2 a)
  | readRateConst (a) : ListedTxn p coeff (.read p.rateConstAddr 2 a)
  | writeGain {e} (he : e ∈ p.freqTable) (ok) : ListedTxn p coeff (.write p.gainAddr (le16 e.gain) ok)
  | writeRateConst {e} (he : e ∈ p.freqTable) (ok) : ListedTxn p coeff (.write p.rateConstAddr (le16 e.constant) ok)
  | writeFir (ok) : ListedTxn p coeff (.write p.firAddr (bytesOf coeff.toList) ok)

/-- From `s` to `t` the bus log grows by transactions of R60 alone. -/
def AddsListedTxns (s t : State) : Prop :=
  ∃ l, t.busLog = s.busLog ++ l ∧ ∀ x ∈ l, ListedTxn s.params t.coeff x

section AddsListedTxns

variable {s t : State} {x y : BusTxn}

theorem AddsListedTxns.of_none (h : t.busLog = s.busLog) : AddsListedTxns s t := ⟨[], by simp [h], by simp⟩

theorem AddsListedTxns.of_one (h : t.busLog = s.busLog ++ [x]) (hx : ListedTxn s.params t.coeff x) :
    AddsListedTxns s t :=
  ⟨[x], h, by simpa using hx⟩

theorem AddsListedTxns.of_two (h : t.busLog = s.busLog ++ [x] ++ [y]) (hx : ListedTxn s.params t.coeff x)
    (hy : ListedTxn s.params t.coeff y) : AddsListedTxns s t :=
  ⟨[x, y], by simp [h], by simp [hx, hy]⟩

end AddsListedTxns

theorem readRateConfig_txns (s : State) : AddsListedTxns s (readRateConfig s) := by
  obtain e | ⟨_, e⟩ | ⟨_, _, e⟩ | ⟨_, _, _, -, e⟩ := readRateConfig_cases s <;> rw [e]
  · exact .of_one rfl (.readGain _)
  · exact .of_two rfl (.readGain _) (.readRateConst _)
  · exact .of_two rfl (.readGain _) (.readRateConst _)
  · exact .of_two rfl (.readGain _) (.readRateConst _)

theorem initBody_txns (s : State) : AddsListedTxns s (initBody s) := by
  obtain e | e | ⟨k, -, -, e⟩ := init_cases s <;> rw [e]
  · exact .of_none rfl
  · exact .of_none rfl
  · exact readRateConfig_txns (beforeConfig k s)

theorem writeSampleRateBody_txns (s : State) : AddsListedTxns s (writeSampleRateBody s) := by
  obtain e | ⟨row, hrow, hcase⟩ := writeSampleRate_cases s
  · rw [e]
    exact .of_none rfl
  · obtain ⟨hmem, -⟩ := lookupByRate_some hrow
    obtain e | e | e := hcase <;> rw [e]
    · exact .of_one rfl (.writeGain hmem _)
    · exact .of_two rfl (.writeGain hmem _) (.writeRateConst hmem _)
    · exact .of_two rfl (.writeGain hmem _) (.writeRateConst hmem _)

theorem storeAndPush_txns (taps : Vector Half 128) (s : State) : AddsListedTxns s (storeAndPush taps s) := by
  obtain ⟨ok, e⟩ := storeAndPush_eq taps s
  rw [e]
  exact .of_one rfl (.writeFir ok)

theorem captureBody_txns (s : State) : AddsListedTxns s (captureBody s) := by
  obtain ⟨raw, fpga, draw, l, hl, -, hcase⟩ := capture_cases s
  have hlog : (captureBody s).busLog = s.busLog ++ l := by
    obtain e | ⟨-, e⟩ | ⟨-, e⟩ := hcase <;> rw [e] <;> rfl
  refine ⟨l, hlog, fun x hx => ?_⟩
  obtain ⟨a, rfl⟩ := hl x hx
  exact .readMic a

/-- The commands that use the bus are the two of the rate, INIT, CAPTURE and the two of the filter stage. -/
theorem commandBody_txns (c : Instr) (s : State) : AddsListedTxns s (commandBody c s) := by
  cases c with
  | init => exact initBody_txns s
  | readSampleRate => exact readRateConfig_txns s
  | writeSampleRate => exact writeSampleRateBody_txns s
  | selectFirCoeff =>
    obtain e | ⟨f, e⟩ := selectFirCoeff_cases s <;> rw [commandBody, e]
    · exact .of_none rfl
    · exact storeAndPush_txns f.taps s
  | setCustomFirCoeff => exact storeAndPush_txns (coeffOperand s) s
  | calcDelays => obtain e | e | ⟨_, -, e⟩ := calcDelays_cases s <;> rw [commandBody, e] <;> exact .of_none rfl
  | capture =>
    obtain ⟨-, e⟩ | ⟨-, e⟩ := captureIssue_cases s <;> rw [commandBody, e]
    · exact captureBody_txns { s with evtPend := false }
    · exact .of_none rfl
  | enqueue ch =>
    obtain ⟨-, e⟩ | ⟨-, e⟩ := enqueue_cases ch (sampleOperand s) s <;> simp only [commandBody, e] <;>
      exact .of_none rfl
  | dequeue ch => obtain ⟨-, e⟩ | ⟨-, e⟩ := dequeue_cases ch s <;> rw [commandBody, e] <;> exact .of_none rfl

theorem exec_txns {c : Instr} {s t : State} (h : exec c s = .next t) : AddsListedTxns s t := by
  obtain rfl | ⟨-, rfl⟩ := exec_cases h
  · exact .of_none rfl
  · exact commandBody_txns c s

theorem dataReadyEdge_txns (s : State) : AddsListedTxns s (dataReadyEdge s) := by
  obtain ⟨-, e⟩ | ⟨-, -, -, e⟩ | ⟨-, -, -, e⟩ := dataReady_cases s <;> rw [e]
  · exact .of_none rfl
  · exact captureBody_txns { s with pend := none }
  · exact .of_none rfl

theorem step_txns {s t : State} (h : step s = .next t) : AddsListedTxns s t := by
  obtain e | ⟨-, rfl⟩ | ⟨-, rfl⟩ | ⟨w, -, -, -, rfl | ⟨c, -, he⟩⟩ := step_effects h
  · rw [e]
    exact .of_none rfl
  · exact dataReadyEdge_txns (takeInput s.inputs.tail s)
  · exact .of_none rfl
  · exact .of_none rfl
  · have haccepted : AddsListedTxns (accepted s) t := exec_txns he
    exact haccepted

/-! ### The obligations -/

/-- Settles O15: an access is served at a listed offset alone, and with no guard closed a read of one is served. -/
theorem misalignedNarrowAndReservedAccessesRefused : Obligations.MisalignedNarrowAndReservedAccessesRefused := by
  intro s o b w i rest hp hio hi
  constructor
  · intro hbad
    refine step_refused hio hi fun d => ?_
    obtain ha | hb | hres := hbad
    · exact served_misaligned s (.inl ha) d
    · exact served_misaligned s (.inr hb) d
    · exact served_reserved hres b d
  · rintro rfl hl h0 hf hbv hcv
    have h0' : o.toNat ≠ 0 := fun h => h0 (BitVec.eq_of_toNat_eq h)
    obtain ⟨r, hr⟩ := served_listed_read hl h0' (.inl hp.atMost) fun r _ => guardOpen_of_valid hf hbv hcv r .read
    exact ⟨_, step_hostRead_served hi hr⟩

/-- Settles O16: no read of CMD is served, and no write outside the writable registers. -/
theorem wrongDirectionRefused : Obligations.WrongDirectionRefused := by
  intro s o b w rest
  exact ⟨fun hi => step_hostRead_refused hi (served_cmd_read s b), fun hi hout hcustom =>
    step_hostWrite_refused hi (served_write_elsewhere hout hcustom s b)⟩

/-- Settles O17: each guard in turn, then what is served while FATAL = 0. -/
theorem accessGuards : Obligations.AccessGuards := by
  intro s o w rest ha
  refine ⟨fun hf ho hi => ?_, fun hf hi => ?_, fun hi => step_hostRead_served hi (served_status s),
    fun hv hlow hi => step_hostRead_refused hi (served_without_block hv hlow 32 .read),
    fun hv hlow hhigh hi => step_hostRead_refused hi (served_without_coeff hv hlow hhigh 32 .read),
    fun hf hi hrange => ?_, fun hf hi hrange => step_write_acknowledged hf hi ha hrange⟩
  · exact step_hostRead_refused hi (by simp [served_of_fatal hf, ho])
  · exact step_hostWrite_refused hi (by simp [served_of_fatal hf])
  · obtain ⟨hl, h0, hopen⟩ := listedOffset_unguarded_read s.params.numSamples ha hrange
    obtain ⟨r, hr⟩ := served_listed_read hl h0 (.inr (by omega)) fun r ho => guardOpen_unguarded hf (ho ▸ hopen) _
    exact ⟨_, step_hostRead_served hi hr⟩

/-- Settles O18: each row of the map by its register's content. -/
theorem readsReturnTheRegisterMap : Obligations.ReadsReturnTheRegisterMap := by
  intro s hn hcount hf
  refine ⟨readReply_unguarded (r := .status) hf (by decide) rfl, readReply_unguarded (r := .arg0) hf (by decide) rfl,
    readReply_unguarded (r := .arg1) hf (by decide) rfl, readReply_unguarded (r := .result) hf (by decide) rfl, ?_,
    readReply_unguarded (r := .rate) hf (by decide) rfl, fun c => ⟨_, ?_, readReg_depth_toNat (hcount c)⟩,
    fun k hv => ?_, fun k => ?_, fun c k hv hk => ?_, fun k hv hk => ?_⟩
  · have hext : s.gain.setWidth 32 = 0#16 ++ s.gain := BitVec.setWidth_eq_append (by decide)
    rw [← hext]
    exact readReply_unguarded (r := .gain) hf (by decide) rfl
  · exact readReply_unguarded (r := .depth c) hf (by simp only [HostReg.offset]; omega) rfl
  · rw [← windowWord_vector]
    exact readReply_served (served_at (r := .coeff k) trivial (.inl hn) rfl (by simp [guardOpen, hf, hv]))
  · rw [← windowWord_vector]
    exact readReply_unguarded (r := .custom k) hf (by simp only [HostReg.offset]; omega) rfl
  · exact readReply_served (served_at (r := .delayed c k) hk (.inl hn) rfl (by simp [guardOpen, hf, hv]))
  · exact readReply_served (served_at (r := .beam k) hk (.inl hn) rfl (by simp [guardOpen, hf, hv]))

/-- Settles O19: a read by its answer, a store by its register, and each write to CMD by the issue of its word. -/
theorem hostPortSideEffects : Obligations.HostPortSideEffects := by
  intro s rest
  refine ⟨fun o b hi => step_hostRead hi, fun w hf hi => step_write_arg0 hf hi,
    fun w hf hi => step_write_arg1 hf hi, fun k w hf hi => ?_, fun w hf hb hi => step_cmdWrite hf hb hi,
    fun w t hf hb hi hstep htf htb => ?_⟩
  · refine ⟨writeCustom k w s.staging, step_write_custom hf hi, ?_, ?_, fun j hj heven hodd => ?_⟩
    · rw [writeCustom_getElem, if_neg (by omega), if_pos rfl]
    · rw [writeCustom_getElem, if_pos rfl]
    · rw [writeCustom_getElem, if_neg hodd, if_neg heven]
  · rw [step_cmdWrite hf hb hi] at hstep
    exact step_cmdWrite htf htb (issue_inputs hstep)

/-- Settles O22: each transaction that a step adds stands in a row of R60. -/
theorem onlyListedBusTransactions : Obligations.OnlyListedBusTransactions := by
  intro s t hstep
  obtain ⟨l, hlog, hl⟩ := step_txns hstep
  refine ⟨l, hlog, fun x hx => ?_⟩
  cases hl x hx with
  | readMic a => exact .inl ⟨a, rfl⟩
  | readGain a => exact .inr (.inl ⟨a, rfl⟩)
  | readRateConst a => exact .inr (.inr (.inl ⟨a, rfl⟩))
  | writeGain he ok => exact .inr (.inr (.inr (.inl ⟨_, he, ok, rfl⟩)))
  | writeRateConst he ok => exact .inr (.inr (.inr (.inr (.inl ⟨_, he, ok, rfl⟩))))
  | writeFir ok => exact .inr (.inr (.inr (.inr (.inr ⟨ok, rfl, by simp⟩))))

/-- Settles O5: an accepted write to CMD issues its word, and a word that decodes runs its command. -/
theorem stepRunsTheWrittenCommand : Obligations.StepRunsTheWrittenCommand := by
  intro s w c rest hi hf hb hd
  rw [step_cmdWrite hf hb hi, issue_of_decode hd]

/-- Settles O21: a transaction's effect is its entry in the log, and a scripted answer is its outcome. -/
theorem busTransactions : Obligations.BusTransactions := by
  intro s addr n bytes
  refine ⟨⟨(memRead addr n s).1, rfl, fun b hb => ?_⟩, ⟨(memWrite addr bytes s).1, rfl⟩, fun rest h => ?_,
    fun b rest h hlen => ?_⟩
  · exact (memRead_ok (Prod.ext hb rfl)).2
  · exact ⟨by rw [memRead_scripted_err addr n h], by rw [memWrite_scripted_err addr bytes h]⟩
  · exact ⟨by rw [memRead_scripted addr h hlen], by rw [memWrite_scripted addr bytes h]⟩

end Sys2Proof.Machine
end

section
/-! PROOFS of the family 30_encoding.md: the decoder against the encoder (O1), the opcode map (O2) and the spec's words
(O4), the illegal words (O3) and the INITED gate (O7). -/

namespace Sys2Proof

/-! ### A command word and its fields -/

/-- The word of some fields has those fields (R70). -/
@[simp] theorem fieldsOf_wordOfFields (f : CommandFields) : fieldsOf (wordOfFields f) = f := by
  simp only [fieldsOf, wordOfFields, BitVec.extractLsb'_append_eq_right]
  rw [BitVec.extractLsb'_append_eq_of_le (by decide : 8 ≤ 8), BitVec.extractLsb'_append_eq_of_le (by decide : 8 ≤ 11),
    BitVec.extractLsb'_append_eq_right, BitVec.extractLsb'_append_eq_left]

/-- A word is the word of its fields: they are all of its bits (R70). -/
@[simp] theorem wordOfFields_fieldsOf (w : Word) : wordOfFields (fieldsOf w) = w := by
  simp only [wordOfFields, fieldsOf]
  rw [BitVec.extractLsb'_append_extractLsb'_eq_extractLsb' (by rfl),
    BitVec.extractLsb'_append_extractLsb'_eq_extractLsb' (by rfl), BitVec.extractLsb'_eq_self]

theorem wordOfFields_eq_iff {f : CommandFields} {w : Word} : wordOfFields f = w ↔ f = fieldsOf w :=
  ⟨fun h => h ▸ (fieldsOf_wordOfFields f).symm, fun h => h ▸ wordOfFields_fieldsOf w⟩

/-- The mask of ENQUEUE and DEQUEUE clears the field CH and no other bit (R71). -/
theorem and_channelMask (w : Word) : w &&& 0xFFFFF8FF#32 = wordOfFields { fieldsOf w with ch := 0 } := by
  have hmask : (0xFFFFF8FF#32 : Word) = BitVec.allOnes 21 ++ 0#3 ++ BitVec.allOnes 8 := by decide
  nth_rw 1 [← wordOfFields_fieldsOf w]
  rw [hmask, wordOfFields, BitVec.and_append, BitVec.and_append, BitVec.and_allOnes, BitVec.and_allOnes,
    BitVec.and_zero]
  rfl

/-! ### What decodes -/

/-- Fields are a command's when their opcode and channel are its own and the reserved bits are 0 (R70, R71). -/
theorem eq_fields_iff {f : CommandFields} {i : Instr} :
    f = i.fields ↔ f.opc.toNat = i.opcode.toNat ∧ f.ch = i.channelField ∧ f.rsv = 0 := by
  obtain ⟨opc, ch, rsv⟩ := f
  simp only [Instr.fields, CommandFields.mk.injEq, BitVec.toNat_inj]

theorem withoutChannel_eq_ok {ch : BitVec 3} {i j : Instr} : withoutChannel ch j = .ok i ↔ ch = 0 ∧ j = i := by
  unfold withoutChannel
  split <;> simp_all

/-- A word that decodes has the fields of the command it decodes to. -/
theorem fieldsOf_of_decode {w : Word} {i : Instr} (h : decode w = .ok i) : fieldsOf w = i.fields := by
  rw [eq_fields_iff]
  unfold decode at h
  dsimp only at h
  split at h
  · cases h
  next hrsv =>
  rw [ne_eq, not_not] at hrsv
  split at h
  case h_8 hopc | h_9 hopc => cases h; exact ⟨hopc, rfl, hrsv⟩
  case h_10 => cases h
  all_goals
    next hopc =>
    obtain ⟨hch, rfl⟩ := withoutChannel_eq_ok.1 h
    exact ⟨hopc, hch, hrsv⟩

/-- A word with the fields of a command decodes to it. -/
theorem decode_of_fieldsOf {w : Word} {i : Instr} (h : fieldsOf w = i.fields) : decode w = .ok i := by
  unfold decode
  rw [h]
  cases i <;> rfl

theorem decode_eq_ok_iff {w : Word} {i : Instr} : decode w = .ok i ↔ fieldsOf w = i.fields :=
  ⟨fieldsOf_of_decode, decode_of_fieldsOf⟩

/-- A word decodes to a command when it has the command's opcode under the mask of ENQUEUE and DEQUEUE, and its
channel (R71). -/
theorem decode_eq_ok_iff_mask {i : Instr} {opc : BitVec 8} (hi : i.opcode = opc) (w : Word) : decode w = .ok i ↔
    w &&& 0xFFFFF8FF#32 = wordOfFields ⟨opc, 0, 0⟩ ∧ (w.extractLsb' 8 3).toNat = i.channelField.toNat := by
  rw [← hi, decode_eq_ok_iff, eq_fields_iff, and_channelMask, wordOfFields_eq_iff, fieldsOf_wordOfFields,
    CommandFields.mk.injEq, BitVec.toNat_inj, BitVec.toNat_inj]
  simp only [fieldsOf]
  tauto

/-! ### Legal words -/

/-- Every command is well-formed. -/
theorem fields_legal (i : Instr) : i.fields.legal = true := by
  cases i with
  | enqueue ch => exact Laws.WellFormed.enqueue ch
  | dequeue ch => exact Laws.WellFormed.dequeue ch
  | _ => rfl

/-- Each opcode of R71 is a command's, with CH = 0. -/
theorem exists_command_of_opcode : ∀ {n : Nat}, 1 ≤ n → n ≤ 9 → ∃ i : Instr, n = i.opcode.toNat ∧ 0 = i.channelField
  | 0, h, _ => absurd h (by decide)
  | 1, _, _ => ⟨.init, rfl, rfl⟩
  | 2, _, _ => ⟨.readSampleRate, rfl, rfl⟩
  | 3, _, _ => ⟨.writeSampleRate, rfl, rfl⟩
  | 4, _, _ => ⟨.selectFirCoeff, rfl, rfl⟩
  | 5, _, _ => ⟨.setCustomFirCoeff, rfl, rfl⟩
  | 6, _, _ => ⟨.calcDelays, rfl, rfl⟩
  | 7, _, _ => ⟨.capture, rfl, rfl⟩
  | 8, _, _ => ⟨.enqueue 0, rfl, rfl⟩
  | 9, _, _ => ⟨.dequeue 0, rfl, rfl⟩
  | n + 10, _, h => absurd h (by omega)

theorem legal_iff {f : CommandFields} : f.legal = true ↔
    f.rsv = 0 ∧ (1 ≤ f.opc.toNat ∧ f.opc.toNat ≤ 9) ∧ (f.ch = 0 ∨ f.opc = 0x08 ∨ f.opc = 0x09) := by
  simp [CommandFields.legal, CommandFields.reservedClear, CommandFields.opcodeListed, CommandFields.channelAllowed,
    and_assoc, or_assoc]

/-- Legal fields are those of a command (R71, R73). -/
theorem exists_fields_of_legal {f : CommandFields} (h : f.legal = true) : ∃ i : Instr, f = i.fields := by
  obtain ⟨hrsv, ⟨hlow, hhigh⟩, hch | hopc | hopc⟩ := legal_iff.1 h
  · obtain ⟨i, hi, hi0⟩ := exists_command_of_opcode hlow hhigh
    exact ⟨i, eq_fields_iff.2 ⟨hi, hch.trans hi0, hrsv⟩⟩
  · exact ⟨.enqueue f.ch.toFin, eq_fields_iff.2 ⟨congrArg BitVec.toNat hopc, rfl, hrsv⟩⟩
  · exact ⟨.dequeue f.ch.toFin, eq_fields_iff.2 ⟨congrArg BitVec.toNat hopc, rfl, hrsv⟩⟩

theorem exists_decode_iff_legal {w : Word} : (∃ i, decode w = .ok i) ↔ (fieldsOf w).legal = true := by
  constructor
  · rintro ⟨i, h⟩
    rw [fieldsOf_of_decode h]
    exact fields_legal i
  · intro h
    obtain ⟨i, hi⟩ := exists_fields_of_legal h
    exact ⟨i, decode_of_fieldsOf hi⟩

/-- The three points of R73 are the three checks on a word's fields. -/
theorem illegalWord_iff {w : Word} : Machine.illegalWord w ↔ ¬ (fieldsOf w).legal = true := by
  have hopc : (w.extractLsb' 0 8 = 0x00#8 ∨ 0x0A ≤ (w.extractLsb' 0 8).toNat) ↔
      ¬ (1 ≤ (fieldsOf w).opc.toNat ∧ (fieldsOf w).opc.toNat ≤ 9) := by
    simp only [fieldsOf, BitVec.toNat_eq, BitVec.toNat_ofNat]
    omega
  rw [legal_iff, Machine.illegalWord, hopc]
  simp only [fieldsOf]
  tauto

namespace Machine

/-! ### Illegal words -/

/-- A word that selects no command ends with ILLEGAL_COMMAND (R73, R75). -/
theorem issue_of_no_command {w : Word} (h : ¬ ∃ i, decode w = .ok i) (s : State) :
    issue w s = .next (raise .illegalCommand s) := by
  unfold issue
  split
  · next i hi => exact absurd ⟨i, hi⟩ h
  · rfl

/-! ### The gate -/

/-- With nothing waiting, the gate writes STATUS.ERR alone (R77). -/
theorem exec_before_init {i : Instr} {s : State} (hn : s.inited = false) (hi : i ≠ .init) (hb : s.busy = false) :
    exec i s = .next { s with err := .illegalCommand } := by
  rw [exec_eq_commandBody, if_neg hi, gated_not_inited hn, raise_recoverable (pend_of_not_busy hb) rfl]

theorem readRateConfig_inited (s : State) : (readRateConfig s).inited = s.inited := by
  rw [readRateConfig_frame]
  rfl

/-- INIT sets INITED however it ends (R39, R140). -/
theorem initBody_inited (s : State) : (initBody s).inited = true := by
  obtain e | e | ⟨k, -, -, e⟩ := init_cases s <;> rw [e]
  · rfl
  · rfl
  · exact readRateConfig_inited (beforeConfig k s)

/-! ### The obligations -/

/-- Settles O1: decoder and encoder both go by a word's fields, and a word and its fields determine each other. -/
theorem decodeAndEncodeAgree : Obligations.DecodeAndEncodeAgree := fun _ _ =>
  decode_eq_ok_iff.trans (eq_comm.trans wordOfFields_eq_iff.symm)

/-- Settles O2: INIT to CAPTURE by their encodings, ENQUEUE and DEQUEUE by what their mask leaves and the channel. -/
theorem opcodeMapPatterns : Obligations.OpcodeMapPatterns := by
  have hword (i : Instr) (w : Word) : decode w = .ok i ↔ w = encode i := (decodeAndEncodeAgree w i).trans eq_comm
  exact ⟨hword .init, hword .readSampleRate, hword .writeSampleRate, hword .selectFirCoeff, hword .setCustomFirCoeff,
    hword .calcDelays, hword .capture, fun w _ => decode_eq_ok_iff_mask (opc := 0x08) rfl w,
    fun w _ => decode_eq_ok_iff_mask (opc := 0x09) rfl w⟩

/-- Settles O3: R73's points are the decoder's checks, and a recoverable code writes STATUS.ERR alone. -/
theorem illegalWordsEndWithIllegalCommand : Obligations.IllegalWordsEndWithIllegalCommand := by
  have hillegal (w : Word) : illegalWord w ↔ ¬ ∃ i, decode w = .ok i := by
    rw [exists_decode_iff_legal, illegalWord_iff]
  refine ⟨hillegal, rfl, fun s w rest hi hf hb hw => ?_⟩
  have hp : ({ s with inputs := rest, reply := .ack } : State).pend = none := pend_of_not_busy hb
  rw [step_cmdWrite hf hb hi, issue_of_no_command ((hillegal w).1 hw), raise_recoverable hp rfl]

/-- Settles O7: the gate's ending for every command but INIT, and INITED after each ending of INIT. -/
theorem initedGate : Obligations.InitedGate :=
  ⟨fun _ _ => exec_before_init, fun s => ⟨initBody s, rfl, initBody_inited s⟩⟩

/-- Settles O4: the decoder evaluated on nine words. -/
theorem specCommandWordsDecode : Obligations.SpecCommandWordsDecode := by
  unfold Obligations.SpecCommandWordsDecode
  decide

end Machine

end Sys2Proof
end

section
/-! PROOFS of the family 41_delay_geometry.md: the binary64 operations (O26) and the rounding to whole samples (O28),
what the delays are (O30, O31, O32), and CALC_DELAYS with its errors and at rate 0 (O33, O34, O60). -/

namespace Sys2Proof.Machine.F64

/-! ### Finite results have finite operands -/

theorem isFinite_iff {x : F64} : isFinite x = true ↔ isNaN x = false ∧ isInf x = false := by
  simp only [isFinite, isNaN, isInf, bne]
  cases expField x == 2047 <;> cases frac x == 0 <;> decide

theorem not_finite_quietNaN : isFinite quietNaN ≠ true := by decide

/-- A finite sum has finite operands. -/
theorem finite_of_add {x y : F64} (h : isFinite (add x y) = true) : isFinite x = true ∧ isFinite y = true := by
  unfold add at h
  split at h
  · exact absurd h not_finite_quietNaN
  next hnan =>
  simp only [Bool.or_eq_true, not_or, Bool.not_eq_true] at hnan
  split at h
  next hx =>
    split at h
    · exact absurd h not_finite_quietNaN
    · exact absurd (not_inf h) (by rw [hx]; decide)
  next hx =>
  split at h
  next hy => exact absurd (not_inf h) (by rw [hy]; decide)
  next hy => exact ⟨isFinite_iff.2 ⟨hnan.1, by simpa using hx⟩, isFinite_iff.2 ⟨hnan.2, by simpa using hy⟩⟩

/-- A finite difference has finite operands. -/
theorem finite_of_sub {x y : F64} (h : isFinite (sub x y) = true) : isFinite x = true ∧ isFinite y = true := by
  simpa using finite_of_add h

/-- A finite square root has a finite operand. -/
theorem finite_of_sqrt {x : F64} (h : isFinite (sqrt x) = true) : isFinite x = true := by
  by_contra hx
  unfold sqrt at h
  split at h
  · exact not_finite_quietNaN h
  next hnan =>
  split at h
  · exact hx h
  split at h
  · exact not_finite_quietNaN h
  split at h
  · exact hx h
  next hinf => exact hx (isFinite_iff.2 ⟨by simpa using hnan, by simpa using hinf⟩)

/-! ### Each operation is one rounding of its exact result -/

/-- A rounding is finite where a rounding of a larger ratio is. -/
theorem isFinite_round_mono {s s' : Bool} {a b c d : Nat} (hb : 0 < b) (hd : 0 < d) (h : a * d ≤ c * b)
    (hfin : isFinite (round s' c d) = true) : isFinite (round s a b) = true := by
  have hle := roundBits_mono hb hd h
  have hmax := roundBits_le c d
  simp only [isFinite, round, expField_pack _ (roundBits_lt _ _), bne_iff_ne] at hfin ⊢
  unfold infBits at hmax
  omega

/-- A magnitude that a binary64 has is rounded to itself, where the rounding is finite. -/
theorem mag_round_mag {s : Bool} {x : F64} (h : isFinite (round s (mag x) 1) = true) :
    mag (round s (mag x) 1) = mag x := by
  obtain ⟨hnear, -⟩ := round_nearest Nat.one_pos h x
  rw [Nat.cast_one, div_one, sub_self, abs_zero, abs_nonpos_iff, sub_eq_zero] at hnear
  exact_mod_cast hnear.symm

/-- A sum of finite operands is one rounding of the exact sum; an exact sum of 0 has some sign. -/
theorem addFinite_eq_round (x y : F64) : ∃ (s : Bool) (n : Nat),
    addFinite x y = round s n 1 ∧ (if s then -(n : Int) else n) = units x + units y := by
  unfold addFinite units
  split
  next hs =>
    refine ⟨sign x, mag x + mag y, rfl, ?_⟩
    rw [← hs]
    split <;> omega
  next hs =>
  rw [Bool.eq_not.2 (Ne.symm hs)]
  split
  next hlt =>
    refine ⟨sign x, mag x - mag y, rfl, ?_⟩
    cases sign x <;> simp <;> omega
  next hle =>
  split
  next hlt =>
    refine ⟨!sign x, mag y - mag x, rfl, ?_⟩
    cases sign x <;> simp <;> omega
  next hge =>
    refine ⟨false, 0, (round_zero false 1).symm, ?_⟩
    cases sign x <;> simp <;> omega

/-- The exact result of a product or quotient: the signs and the magnitudes combine each for themselves. -/
theorem signed_mul_signed (s t : Bool) (a b : ℝ) : (if s then -1 else 1) * a * ((if t then -1 else 1) * b) =
    (if s != t then -1 else 1) * (a * b) := by
  cases s <;> cases t <;> simp

theorem signed_div_signed (s t : Bool) (a b : ℝ) : (if s then -1 else 1) * a / ((if t then -1 else 1) * b) =
    (if s != t then -1 else 1) * (a / b) := by
  cases s <;> cases t <;> simp [neg_div, div_neg]

theorem correctlyRounded_add {x y : F64} (hx : isFinite x = true) (hy : isFinite y = true)
    (h : isFinite (add x y) = true) : CorrectlyRounded ((toRat x : ℝ) + toRat y) (add x y) := by
  obtain ⟨s, n, e, hn⟩ := addFinite_eq_round x y
  rw [add_finite hx hy, e] at h ⊢
  have hsum : (toRat x : ℝ) + toRat y = (if s then -1 else 1) * ((n : ℝ) / (1 : ℕ)) / 2 ^ 1074 := by
    have hn' : (if s then -1 else 1) * (n : ℝ) = units x + units y := by
      rw [← Int.cast_add, ← hn]
      cases s <;> simp
    rw [Nat.cast_one, div_one, hn', add_div, toRat, toRat]
    push_cast
    rfl
  rw [hsum]
  exact correctlyRounded_round Nat.one_pos h

theorem correctlyRounded_sub {x y : F64} (hx : isFinite x = true) (hy : isFinite y = true)
    (h : isFinite (sub x y) = true) : CorrectlyRounded ((toRat x : ℝ) - toRat y) (sub x y) := by
  have hsub := correctlyRounded_add hx ((isFinite_neg y).trans hy) h
  rwa [toRat_neg, Rat.cast_neg, ← sub_eq_add_neg] at hsub

theorem correctlyRounded_mul {x y : F64} (hx : isFinite x = true) (hy : isFinite y = true)
    (h : isFinite (mul x y) = true) : CorrectlyRounded ((toRat x : ℝ) * toRat y) (mul x y) := by
  rw [mul_finite hx hy] at h ⊢
  have hmul : (toRat x : ℝ) * toRat y = (if sign x != sign y then -1 else 1) *
      (((mag x * mag y : ℕ) : ℝ) / (2 ^ 1074 : ℕ)) / 2 ^ 1074 := by
    rw [toRatR, toRatR, div_mul_div_comm, signed_mul_signed, Nat.cast_mul, Nat.cast_pow, Nat.cast_ofNat,
      ← mul_div_assoc, div_div]
  rw [hmul]
  exact correctlyRounded_round (Nat.pow_pos two_pos) h

theorem correctlyRounded_div {x y : F64} (hx : isFinite x = true) (hy : isFinite y = true) (h0 : toRat y ≠ 0)
    (h : isFinite (div x y) = true) : CorrectlyRounded ((toRat x : ℝ) / toRat y) (div x y) := by
  have hmag : 0 < mag y := by
    refine Nat.pos_of_ne_zero fun hm => h0 ?_
    simp [toRat, units, hm]
  rw [div_finite hx hy hmag] at h ⊢
  have hdiv : (toRat x : ℝ) / toRat y = (if sign x != sign y then -1 else 1) *
      (((mag x * 2 ^ 1074 : ℕ) : ℝ) / mag y) / 2 ^ 1074 := by
    have hpow : (2 : ℝ) ^ 1074 ≠ 0 := pow_ne_zero _ two_ne_zero
    rw [toRatR, toRatR, div_div_div_cancel_right₀ hpow, signed_div_signed, mul_div_assoc, Nat.cast_mul, Nat.cast_pow,
      Nat.cast_ofNat, mul_div_right_comm, mul_div_cancel_right₀ _ hpow]
  rw [hdiv]
  exact correctlyRounded_round hmag h

/-! ### The square root -/

/-- An exact result is correctly rounded. -/
theorem correctlyRounded_toRat (r : F64) : CorrectlyRounded (toRat r) r := by
  intro y _
  rw [sub_self, abs_zero]
  refine ⟨abs_nonneg _, fun h => .inl ?_⟩
  have hzero := abs_eq_zero.1 h.symm
  exact_mod_cast (sub_eq_zero.1 hzero).symm

/-- A positive magnitude that is nearest among all magnitudes, with ties to even, is correctly rounded: a value of the
other sign is farther than the value of the same magnitude. -/
theorem correctlyRounded_of_nearest {u : ℝ} (hu : 0 < u) {r : F64} (hs : sign r = false)
    (near : ∀ y : F64, |u - mag r| ≤ |u - mag y| ∧
      (|u - mag r| = |u - mag y| → mag y = mag r ∨ sig r % 2 = 0)) :
    CorrectlyRounded (u / 2 ^ 1074) r := by
  intro y _
  have hD : (0 : ℝ) < 2 ^ 1074 := pow_pos two_pos _
  have hscale : ∀ a : ℝ, |u / 2 ^ 1074 - a / 2 ^ 1074| = |u - a| / 2 ^ 1074 := fun a => by
    rw [← sub_div, abs_div, abs_of_pos hD]
  obtain ⟨hle, htie⟩ := near y
  have hmag : (0 : ℝ) ≤ mag y := Nat.cast_nonneg _
  rw [toRatR r, toRatR y, hscale, hscale, div_le_div_iff_of_pos_right hD, div_left_inj' hD.ne', hs,
    if_neg Bool.false_ne_true, one_mul]
  cases hy : sign y
  · rw [if_neg Bool.false_ne_true, one_mul]
    refine ⟨hle, fun h => (htie h).imp_left fun e => ?_⟩
    simp [toRat, units, hs, hy, e]
  · rw [if_pos rfl, neg_one_mul, sub_neg_eq_add, abs_of_pos (by linarith : 0 < u + mag y)]
    have hfar : |u - mag y| ≤ u + mag y := abs_le.2 ⟨by linarith, by linarith⟩
    refine ⟨hle.trans hfar, fun h => ?_⟩
    have hsame : |u - mag y| = u + mag y := le_antisymm hfar (h ▸ hle)
    have hzero : (mag y : ℝ) = 0 := by
      obtain ⟨e, -⟩ | ⟨e, -⟩ := abs_cases (u - mag y) <;> linarith
    refine (htie (h.trans hsame.symm)).imp_left fun e => ?_
    have hzero' : mag y = 0 := by exact_mod_cast hzero
    simp [toRat, units, ← e, hzero']

/-- The root of `N` is half its sticky root, or lies strictly between two neighbours of at least 61 digits whose
midpoint the sticky root doubles. -/
theorem sqrtSticky_cases {N : Nat} (h : 2 ^ 1074 ≤ N) :
    (√(N : ℝ) = (sqrtSticky N : ℝ) / 2) ∨
    ∃ r k : Nat, 2 ^ 60 ≤ r ∧ sqrtSticky N = (2 * r + 1) * 2 ^ k ∧
      (r : ℝ) * 2 ^ k < √(N : ℝ) ∧ √(N : ℝ) < (r + 1) * 2 ^ k := by
  obtain ⟨hr, -, hlow, hhigh⟩ := sqrt_parts h
  unfold sqrtSticky
  dsimp only
  generalize sqrtDrop N = k at *
  generalize isqrt 62 (N / 2 ^ (2 * k)) 0 = r at *
  have hsquare : ∀ a : ℝ, a * a * 2 ^ (2 * k) = (a * 2 ^ k) ^ 2 := fun a => by ring
  have hhigh' : (N : ℝ) < ((r + 1) * 2 ^ k) ^ 2 := by
    rw [← hsquare]
    exact_mod_cast hhigh
  by_cases hexact : r * r * 2 ^ (2 * k) = N
  · left
    have hN : (N : ℝ) = (r * 2 ^ k) ^ 2 := by
      rw [← hsquare, ← hexact]
      push_cast
      rfl
    rw [if_pos hexact, hN, Real.sqrt_sq (by positivity)]
    push_cast
    ring
  · refine .inr ⟨r, k, hr, by rw [if_neg hexact], ?_, (Real.sqrt_lt' (by positivity)).2 hhigh'⟩
    refine (Real.lt_sqrt (by positivity)).2 ?_
    rw [← hsquare]
    exact_mod_cast lt_of_le_of_ne hlow hexact

/-- The sticky root of the units of a finite binary64 is far below the overflow. -/
theorem isFinite_sqrtSticky {N : Nat} (h : 2 ^ 1074 ≤ N) (hN : N < 2 ^ 3172) :
    isFinite (round false (sqrtSticky N) 2) = true := by
  obtain ⟨-, hr, -, -⟩ := sqrt_parts h
  have hlog : N.log2 < 3172 := (Nat.log2_lt (by rintro rfl; exact absurd h (by simp))).2 hN
  have hk : sqrtDrop N ≤ 1525 := by
    unfold sqrtDrop
    omega
  have hle : sqrtSticky N ≤ 2 ^ 62 * 2 ^ 1525 := by
    unfold sqrtSticky
    dsimp only
    refine Nat.mul_le_mul ?_ (Nat.pow_le_pow_right two_pos hk)
    split <;> omega
  refine isFinite_round_mono two_pos one_pos ?_ (round_exact false (m := 1) (e := 2000) (by decide) (by decide)).1
  calc sqrtSticky N * 1 ≤ 2 ^ 62 * 2 ^ 1525 := by rwa [Nat.mul_one]
    _ = 2 ^ 1587 := (pow_add 2 62 1525).symm
    _ ≤ 2 ^ 2000 := Nat.pow_le_pow_right two_pos (by decide)
    _ ≤ 1 * 2 ^ 2000 * 2 := by omega

/-- The square root of a positive value is one rounding of its sticky root. -/
theorem sqrt_eq_round {x : F64} (hx : isFinite x = true) (hs : sign x = false) (h0 : mag x ≠ 0) :
    sqrt x = round false (sqrtSticky (mag x * 2 ^ 1074)) 2 := by
  simp [sqrt, not_nan hx, not_inf hx, hs, h0]

theorem sqrt_of_zero {x : F64} (hx : isFinite x = true) (h0 : mag x = 0) : sqrt x = x := by
  simp [sqrt, not_nan hx, hx, h0]

/-- The root of a value is the root of its magnitude in units of `2^-2148`, in units of `2^-1074`. -/
theorem sqrt_toRat {x : F64} (hs : sign x = false) :
    √(toRat x : ℝ) = √((mag x * 2 ^ 1074 : ℕ) : ℝ) / 2 ^ 1074 := by
  have hD : (0 : ℝ) < 2 ^ 1074 := pow_pos two_pos _
  have hx : (toRat x : ℝ) = ((mag x * 2 ^ 1074 : ℕ) : ℝ) / (2 ^ 1074) ^ 2 := by
    rw [toRatR, hs, if_neg Bool.false_ne_true, one_mul, sq, ← div_div, Nat.cast_mul, Nat.cast_pow, Nat.cast_ofNat,
      mul_div_cancel_right₀ _ hD.ne']
  rw [hx, Real.sqrt_div' _ (sq_nonneg _), Real.sqrt_sq hD.le]

theorem correctlyRounded_sqrt {x : F64} (hx : isFinite x = true) (hs : sign x = false) :
    isFinite (sqrt x) = true ∧ CorrectlyRounded √(toRat x : ℝ) (sqrt x) := by
  by_cases h0 : mag x = 0
  · have hval : toRat x = 0 := by simp [toRat, units, h0]
    have hroot : √(toRat x : ℝ) = toRat x := by rw [hval, Rat.cast_zero, Real.sqrt_zero]
    rw [sqrt_of_zero hx h0, hroot]
    exact ⟨hx, correctlyRounded_toRat x⟩
  have hlow : 2 ^ 1074 ≤ mag x * 2 ^ 1074 := Nat.le_mul_of_pos_left _ (Nat.pos_of_ne_zero h0)
  have hhigh : mag x * 2 ^ 1074 < 2 ^ 3172 := by
    rw [show 3172 = 2098 + 1074 from rfl, pow_add]
    exact Nat.mul_lt_mul_of_pos_right (mag_lt hx) (Nat.pow_pos two_pos)
  rw [sqrt_toRat hs, sqrt_eq_round hx hs h0]
  generalize mag x * 2 ^ 1074 = N at *
  have hfin := isFinite_sqrtSticky hlow hhigh
  refine ⟨hfin, ?_⟩
  have hpos : 0 < √(N : ℝ) := Real.sqrt_pos.2 (by exact_mod_cast (Nat.pow_pos two_pos).trans_le hlow)
  refine correctlyRounded_of_nearest hpos (sign_round _ _ _) fun y => ?_
  obtain hroot | ⟨r, k, hr, e, hleft, hright⟩ := sqrtSticky_cases hlow
  · rw [hroot]
    exact round_nearest two_pos hfin y
  · rw [e] at hfin ⊢
    obtain ⟨hle, htie⟩ := sticky_nearest hr hleft hright hfin y
    exact ⟨hle, fun h => .inl (htie h)⟩

/-! ### Rounding to whole samples -/

theorem toRat_of_positive_sign {t : F64} (hs : sign t = false) : toRat t = (mag t : ℚ) / 2 ^ 1074 := by
  rw [toRat_eq, hs, if_neg Bool.false_ne_true, one_mul]

/-- The nearest whole number, the larger of two (41_delay_geometry.md R102). -/
theorem roundHalfAway_nearest {t : F64} (hs : sign t = false) :
    (roundHalfAway t : ℚ) - 1 / 2 ≤ toRat t ∧ toRat t < (roundHalfAway t : ℚ) + 1 / 2 := by
  have hlow : roundHalfAway t * 2 ^ 1075 ≤ 2 * mag t + 2 ^ 1074 := Nat.div_mul_le_self _ _
  have hhigh : 2 * mag t + 2 ^ 1074 < (roundHalfAway t + 1) * 2 ^ 1075 :=
    Nat.lt_mul_of_div_lt (Nat.lt_succ_self _) (Nat.pow_pos two_pos)
  have hD : (0 : ℚ) < 2 ^ 1074 := pow_pos two_pos _
  have htwice : (2 : ℚ) ^ 1075 = 2 * 2 ^ 1074 := pow_succ' 2 1074
  have hlow' : (roundHalfAway t : ℚ) * 2 ^ 1075 ≤ 2 * mag t + 2 ^ 1074 := by exact_mod_cast hlow
  have hhigh' : 2 * (mag t : ℚ) + 2 ^ 1074 < (roundHalfAway t + 1) * 2 ^ 1075 := by exact_mod_cast hhigh
  rw [htwice] at hlow' hhigh'
  rw [toRat_of_positive_sign hs, le_div_iff₀ hD, div_lt_iff₀ hD]
  constructor <;> linarith

/-- A larger magnitude does not round to a smaller whole number. -/
theorem roundHalfAway_mono {t t' : F64} (h : mag t ≤ mag t') : roundHalfAway t ≤ roundHalfAway t' :=
  Nat.div_le_div_right (by omega)

/-! ### Signs and zeros of finite results -/

theorem ofWord_zero : ofWord 0 = zero false := by
  have h : (0 : Word).toNat = 0 := rfl
  rw [ofWord, h, Nat.zero_mul, round_zero]

/-- A square has sign +. -/
theorem sign_mul_self {x : F64} (hx : isFinite x = true) : sign (mul x x) = false := by
  rw [mul_finite hx hx, sign_round]
  exact bne_self_eq_false' _

/-- A sum of values of sign + has sign +. -/
theorem sign_add {x y : F64} (hx : isFinite x = true) (hy : isFinite y = true) (hsx : sign x = false)
    (hsy : sign y = false) : sign (add x y) = false := by
  rw [add_finite hx hy, addFinite, if_pos (hsx.trans hsy.symm), sign_round, hsx]

/-- A square root has the sign of its operand, if it is finite. -/
theorem sign_sqrt {x : F64} (hx : isFinite x = true) (hs : sign x = false) : sign (sqrt x) = false := by
  by_cases h0 : mag x = 0
  · rwa [sqrt_of_zero hx h0]
  · rw [sqrt_eq_round hx hs h0, sign_round]

theorem sign_zero (b : Bool) : sign (zero b) = b := sign_pack b (by decide)

theorem isFinite_zero (b : Bool) : isFinite (zero b) = true := by cases b <;> decide

/-- A value less one that is not larger, both of sign +, has sign + (R102). -/
theorem sign_sub {x m : F64} (hx : isFinite x = true) (hm : isFinite m = true) (hsx : sign x = false)
    (hsm : sign m = false) (h : units m ≤ units x) : sign (sub x m) = false := by
  have hle : mag m ≤ mag x := by simpa [units, hsx, hsm] using h
  have hsub : sub x m = addFinite x (neg m) := add_finite hx ((isFinite_neg m).trans hm)
  rw [hsub, addFinite, sign_neg, mag_neg, hsx, hsm, if_neg (by decide), if_neg (not_lt.2 hle)]
  split
  · exact sign_round ..
  · exact sign_zero false

/-- A product with a factor of no magnitude has none, if it is finite. -/
theorem mag_mul_of_zero {x y : F64} (h : isFinite (mul x y) = true) (h0 : mag x = 0 ∨ mag y = 0) :
    mag (mul x y) = 0 := by
  obtain ⟨hx, hy⟩ := finite_of_mul h
  have hprod : mag x * mag y = 0 := Nat.mul_eq_zero.2 h0
  rw [mul_finite hx hy, hprod, round_zero, mag_zero]

/-- A quotient with a dividend of no magnitude has none, if it is finite, even by an infinity. -/
theorem mag_div_of_zero {x y : F64} (h : isFinite (div x y) = true) (h0 : mag x = 0) : mag (div x y) = 0 := by
  obtain ⟨hx, hinf | ⟨hy, hy0⟩⟩ := finite_of_div h
  · have hnan : isNaN y = false := by
      simp only [isInf, isNaN, Bool.and_eq_true, beq_iff_eq] at hinf ⊢
      simp [hinf]
    have hdiv : div x y = zero (sign x != sign y) := by simp [div, not_nan hx, not_inf hx, hnan, hinf]
    rw [hdiv, mag_zero]
  · rw [div_finite hx hy (Nat.pos_of_ne_zero hy0), h0, Nat.zero_mul, round_zero, mag_zero]

/-- Taking away a zero of either sign leaves the magnitude, if the difference is finite. -/
theorem mag_sub_zero {x : F64} (b : Bool) (h : isFinite (sub x (zero b)) = true) :
    mag (sub x (zero b)) = mag x := by
  obtain ⟨hx, -⟩ := finite_of_sub h
  have hsub : sub x (zero b) = addFinite x (neg (zero b)) :=
    add_finite hx ((isFinite_neg _).trans (isFinite_zero b))
  rw [hsub] at h ⊢
  simp only [addFinite, mag_neg, mag_zero, Nat.add_zero, Nat.sub_zero, Nat.not_lt_zero, if_false] at h ⊢
  split at h
  next hs =>
    rw [if_pos hs]
    exact mag_round_mag h
  next hs =>
  rw [if_neg hs]
  split at h
  next hpos =>
    rw [if_pos hpos]
    exact mag_round_mag h
  next hpos => rw [if_neg hpos, mag_zero, Nat.eq_zero_of_not_pos hpos]

/-- A square depends on the magnitude alone. -/
theorem mul_self_congr {x y : F64} (hx : isFinite x = true) (hy : isFinite y = true) (h : mag x = mag y) :
    mul x x = mul y y := by
  rw [mul_finite hx hx, mul_finite hy hy, h, bne_self_eq_false', bne_self_eq_false']

end Sys2Proof.Machine.F64

namespace Sys2Proof.Machine

open F64

/-! ### Distances and delays -/

/-- A sum of two squares has sign +, if it is finite. -/
theorem sign_add_squares {x y : F64} (h : isFinite (add (mul x x) (mul y y)) = true) :
    sign (add (mul x x) (mul y y)) = false := by
  obtain ⟨hxx, hyy⟩ := finite_of_add h
  exact sign_add hxx hyy (sign_mul_self (finite_of_mul hxx).1) (sign_mul_self (finite_of_mul hyy).1)

/-- A distance has sign +, if it is finite. -/
theorem sign_distance {src : Point} {mic : MicPos} (h : isFinite (distance src mic) = true) :
    sign (distance src mic) = false := by
  have hsum := finite_of_sqrt h
  obtain ⟨hxy, hzz⟩ := finite_of_add hsum
  exact sign_sqrt hsum (sign_add hxy hzz (sign_add_squares hxy) (sign_mul_self (finite_of_mul hzz).1))

/-- From a source on the z axis, a distance depends on the microphone's `x*x + y*y` alone. -/
theorem distance_of_axis {src : Point} {mic : MicPos} {a b : Bool} (hx : src.x = zero a) (hy : src.y = zero b)
    (h : isFinite (distance src mic) = true) : distance src mic = F64.sqrt (add
      (add (mul mic.x mic.x) (mul mic.y mic.y)) (mul (sub (zero false) src.z) (sub (zero false) src.z))) := by
  obtain ⟨hxx, hyy⟩ := finite_of_add (finite_of_add (finite_of_sqrt h)).1
  have hdx := (finite_of_mul hxx).1
  have hdy := (finite_of_mul hyy).1
  unfold distance
  dsimp only
  rw [hx] at hdx ⊢
  rw [hy] at hdy ⊢
  rw [mul_self_congr hdx (finite_of_sub hdx).1 (mag_sub_zero a hdx),
    mul_self_congr hdy (finite_of_sub hdy).1 (mag_sub_zero b hdy)]

/-- A finite unrounded delay has finite steps: the difference, its product with the rate, the distance. -/
theorem finite_of_unroundedDelay {p : Params} {fs : Word} {m d : F64}
    (h : isFinite (unroundedDelay p fs m d) = true) :
    isFinite (sub d m) = true ∧ isFinite (mul (sub d m) (ofWord fs)) = true :=
  have hmul := (finite_of_div h).1
  ⟨(finite_of_mul hmul).1, hmul⟩

/-- A delay whose distance is the least, or at rate 0, has no magnitude (41_delay_geometry.md R106). -/
theorem mag_unroundedDelay_of_zero {p : Params} {fs : Word} {m d : F64}
    (h : isFinite (unroundedDelay p fs m d) = true) (h0 : d = m ∨ fs = 0) :
    mag (unroundedDelay p fs m d) = 0 := by
  obtain ⟨hsub, hmul⟩ := finite_of_unroundedDelay h
  refine mag_div_of_zero h (mag_mul_of_zero hmul ?_)
  obtain rfl | rfl := h0
  · left
    rw [sub_self_finite (finite_of_sub hsub).1, mag_zero]
  · right
    rw [ofWord_zero, mag_zero]

/-- A delay is not negative: its distance is not below the minimum (R102). -/
theorem sign_unroundedDelay {p : Params} {fs : Word} {m d : F64} (hp : Positive p.soundSpeed)
    (h : isFinite (unroundedDelay p fs m d) = true) (hd : sign d = false) (hm : sign m = false)
    (hle : units m ≤ units d) : sign (unroundedDelay p fs m d) = false := by
  obtain ⟨hsub, hmul⟩ := finite_of_unroundedDelay h
  obtain ⟨hfd, hfm⟩ := finite_of_sub hsub
  obtain ⟨hcs, hscs, hcs0⟩ := hp
  have hrate : sign (ofWord fs) = false := sign_round ..
  have hprod : sign (mul (sub d m) (ofWord fs)) = false := by
    rw [mul_finite hsub (finite_of_mul hmul).2, sign_round, sign_sub hfd hfm hd hm hle, hrate]
    rfl
  rw [unroundedDelay, div_finite hmul hcs hcs0, sign_round, hprod, hscs]
  rfl

/-- Each step from the distance to the unrounded delay is monotone (R106 (c)). -/
theorem mag_unroundedDelay_mono {p : Params} {fs : Word} {m d d' : F64} (hp : Positive p.soundSpeed)
    (h : isFinite (unroundedDelay p fs m d) = true) (h' : isFinite (unroundedDelay p fs m d') = true)
    (hm : units m ≤ units d) (hle : units d ≤ units d') :
    mag (unroundedDelay p fs m d) ≤ mag (unroundedDelay p fs m d') := by
  obtain ⟨hsub, hmul⟩ := finite_of_unroundedDelay h
  obtain ⟨hsub', hmul'⟩ := finite_of_unroundedDelay h'
  obtain ⟨hfd, hfm⟩ := finite_of_sub hsub
  obtain ⟨hfd', -⟩ := finite_of_sub hsub'
  obtain ⟨hcs, -, hcs0⟩ := hp
  have hrate := (finite_of_mul hmul).2
  have hdiff : mag (sub d m) ≤ mag (sub d' m) := by
    rw [sub_mag hfd hfm hm, sub_mag hfd' hfm (hm.trans hle)]
    exact mag_round_mono one_pos one_pos (by omega)
  have hprod : mag (mul (sub d m) (ofWord fs)) ≤ mag (mul (sub d' m) (ofWord fs)) := by
    rw [mul_finite hsub hrate, mul_finite hsub' hrate]
    exact mag_round_mono (Nat.pow_pos two_pos) (Nat.pow_pos two_pos)
      (Nat.mul_le_mul_right _ (Nat.mul_le_mul_right _ hdiff))
  rw [unroundedDelay, unroundedDelay, div_finite hmul hcs hcs0, div_finite hmul' hcs hcs0]
  exact mag_round_mono hcs0 hcs0 (Nat.mul_le_mul_right _ (Nat.mul_le_mul_right _ hprod))

/-- `GeomDelays` answers exactly when every intermediate value is finite (R103). -/
theorem geomDelays_of_finite {p : Params} {az pol : F64} {fs : Word} (h : geometryFinite p az pol fs = true) :
    geomDelays p az pol fs = some ((unroundedDelays p az pol fs).map roundHalfAway) := if_pos h

theorem geomDelays_of_not_finite {p : Params} {az pol : F64} {fs : Word} (h : geometryFinite p az pol fs = false) :
    geomDelays p az pol fs = none := if_neg (by rw [h]; decide)

section Answer

variable {p : Params} {az pol : F64} {fs : Word} {k : Eight Nat} (h : geomDelays p az pol fs = some k)
include h

/-- Some channel of least distance gets delay 0 (R106 (a)). -/
theorem exists_nearest_delay_zero : ∃ c, k.get c = 0 ∧
    ∀ i, units ((distances p az pol).get c) ≤ units ((distances p az pol).get i) := by
  obtain ⟨-, hfin, hk⟩ := geomDelays_some h
  obtain ⟨c, hc, hmin⟩ := minimum_spec (distances p az pol)
  refine ⟨c, ?_, hmin⟩
  rw [hk c]
  exact roundHalfAway_zero (mag_unroundedDelay_of_zero (hfin c) (.inl hc.symm))

/-- Equal distances get equal delays (R106 (b)). -/
theorem delay_congr {a b : Channel} (hd : (distances p az pol).get a = (distances p az pol).get b) :
    k.get a = k.get b := by
  obtain ⟨-, -, hk⟩ := geomDelays_some h
  rw [hk a, hk b, hd]

/-- Rate 0 gives delay 0 (R106 (d)). -/
theorem delay_of_rate_zero (h0 : fs = 0) (c : Channel) : k.get c = 0 := by
  obtain ⟨-, hfin, hk⟩ := geomDelays_some h
  rw [hk c]
  exact roundHalfAway_zero (mag_unroundedDelay_of_zero (hfin c) (.inr h0))

/-- The delays do not decrease with the distance (R106 (c)). -/
theorem delay_mono (hp : Positive p.soundSpeed) {a b : Channel}
    (hle : units ((distances p az pol).get a) ≤ units ((distances p az pol).get b)) : k.get a ≤ k.get b := by
  obtain ⟨-, hfin, hk⟩ := geomDelays_some h
  obtain ⟨c, hc, hmin⟩ := minimum_spec (distances p az pol)
  rw [hk a, hk b]
  exact roundHalfAway_mono (mag_unroundedDelay_mono hp (hfin a) (hfin b) (hc ▸ hmin a) hle)

/-- Where all distances are equal, all delays are 0: one of them is. -/
theorem delay_of_equidistant (hd : ∀ a b, (distances p az pol).get a = (distances p az pol).get b) (c : Channel) :
    k.get c = 0 := by
  obtain ⟨a, ha, -⟩ := exists_nearest_delay_zero h
  rw [← ha]
  exact delay_congr h (hd c a)

end Answer

/-- The delays that a finite geometry rounds are not negative (R102). -/
theorem sign_unroundedDelays {p : Params} {az pol : F64} {fs : Word} (hp : Positive p.soundSpeed)
    (h : geometryFinite p az pol fs = true) (c : Channel) : sign ((unroundedDelays p az pol fs).get c) = false := by
  obtain ⟨hd, hfin, -⟩ := geomDelays_some (geomDelays_of_finite h)
  obtain ⟨i, hi, hmin⟩ := minimum_spec (distances p az pol)
  have hsign : ∀ j, sign ((distances p az pol).get j) = false := fun j => by
    have hj := hd j
    rw [distances, Eight.get_map] at hj ⊢
    exact sign_distance hj
  rw [unroundedDelays, Eight.get_map]
  exact sign_unroundedDelay hp (hfin c) (hsign c) (hi ▸ hsign i) (hi ▸ hmin c)

/-- At azimuth +0.0 the source is on the z axis: `x` and `y` are zeros (R106 (e)). -/
theorem sourcePoint_of_azimuth_zero {p : Params} (hr : isFinite p.srcDist = true) {pol : F64}
    (hpol : isFinite pol = true) : ∃ a b, (sourcePoint p (zero false) pol).x = zero a ∧
      (sourcePoint p (zero false) pol).y = zero b := by
  have hzero : ∀ {s : Bool} {v : F64}, isFinite v = true → mul (zero s) v = zero (s != sign v) := fun {s v} hv => by
    rw [mul_finite (isFinite_zero s) hv, mag_zero, Nat.zero_mul, round_zero, sign_zero]
  have hradius : mul p.srcDist (zero false) = zero (sign p.srcDist != false) := by
    rw [mul_finite hr (isFinite_zero false), mag_zero, Nat.mul_zero, round_zero, sign_zero]
  obtain ⟨hsin, hcos⟩ := isFinite_sin64_cos64 p hpol
  unfold sourcePoint
  dsimp only
  rw [sin64_zero, hradius, hzero hcos, hzero hsin]
  exact ⟨_, _, rfl, rfl⟩

/-- At azimuth +0.0 microphones of one computed `x*x + y*y` are at one distance (R106 (e)). -/
theorem distances_of_azimuth_zero {p : Params} (hr : isFinite p.srcDist = true) {pol : F64}
    (hpol : isFinite pol = true) (hd : ∀ c, isFinite ((distances p (zero false) pol).get c) = true) {a b : Channel}
    (h : add (mul (p.micPos.get a).x (p.micPos.get a).x) (mul (p.micPos.get a).y (p.micPos.get a).y) =
      add (mul (p.micPos.get b).x (p.micPos.get b).x) (mul (p.micPos.get b).y (p.micPos.get b).y)) :
    (distances p (zero false) pol).get a = (distances p (zero false) pol).get b := by
  obtain ⟨_, _, hx, hy⟩ := sourcePoint_of_azimuth_zero hr hpol
  simp only [distances, Eight.get_map] at hd ⊢
  rw [distance_of_axis hx hy (hd a), distance_of_axis hx hy (hd b), h]

/-! ### CALC_DELAYS -/

/-- An inited command runs its body (30_encoding.md R77). -/
theorem exec_inited {s : State} (hi : s.inited = true) (c : Instr) : exec c s = .next (commandBody c s) := by
  rw [exec_eq_commandBody, gated_inited hi, ite_self]

/-- An operand or an intermediate value that is not finite ends CALC_DELAYS before the queues are looked at (R103). -/
theorem calcDelaysBody_not_finite {s : State} (h : isFinite (azimuthOperand s) = false ∨
    isFinite (polarOperand s) = false ∨ geometryFinite s.params (azimuthOperand s) (polarOperand s) s.rate = false) :
    calcDelaysBody s = raise .invalidInput s := by
  unfold calcDelaysBody
  dsimp only
  split
  · rfl
  next hfin =>
  simp only [Bool.not_eq_true', Bool.and_eq_false_iff, not_or, Bool.not_eq_false] at hfin
  obtain haz | hpol | hgeom := h
  · exact nomatch haz.symm.trans hfin.1
  · exact nomatch hpol.symm.trans hfin.2
  · rw [geomDelays_of_not_finite hgeom]

/-- A delay without room ends CALC_DELAYS of finite operands and finite geometry (R104). -/
theorem calcDelaysBody_no_room {s : State} {k : Eight Nat} {c : Channel} (haz : isFinite (azimuthOperand s) = true)
    (hpol : isFinite (polarOperand s) = true)
    (hk : geomDelays s.params (azimuthOperand s) (polarOperand s) s.rate = some k)
    (hc : 32 < (s.queues.get c).count + k.get c) : calcDelaysBody s = raise .queueFull s := by
  have hseed : seed k s = none := by
    obtain ⟨h, -⟩ | ⟨-, hroom⟩ := seed_cases k s
    · exact h
    · exact absurd hc (not_lt.2 (hroom c))
  unfold calcDelaysBody
  simp only [haz, hpol, hk, hseed, Bool.and_self, Bool.not_true, Bool.false_eq_true, if_false]

/-- Seeding delays of 0 leaves the queues (R100). -/
theorem seeded_of_zero {k : Eight Nat} (h : ∀ c, k.get c = 0) (qs : Eight DelayQueue) : seeded k qs = qs := by
  refine Eight.ext_get fun c => ?_
  rw [seeded, Eight.get_ofFn, h c]
  rfl

/-! ### No row of rate 0 -/

/-- No row of an allowed FIR_TABLE has rate 0 (notes/assumptions/26). -/
theorem lookupFir_zero {p : Params} (hp : p.Legal) : lookupFir p 0 = none := by
  rw [lookupFir, List.find?_eq_none]
  intro f hf
  simpa using hp.firRates f hf

/-- No row of an allowed SAMPLE_FREQ_TABLE has rate 0: each has at least 8000 Hz (00_scope.md R7). -/
theorem lookupByRate_zero {p : Params} (hp : p.Legal) : lookupByRate p 0 = none :=
  lookupByRate_eq_none.2 fun e he heq => absurd (hp.rates e he).1 (by rw [heq]; decide)

theorem selectFirCoeffBody_of_no_row {s : State} (h : lookupFir s.params s.rate = none) :
    selectFirCoeffBody s = raise .invalidInput s := by
  simp only [selectFirCoeffBody, h]

/-! ### The obligations -/

/-- Settles O26: each operation is one rounding of its exact result, and the sticky root rounds as the root does. -/
theorem arithmeticIsCorrectlyRounded : Obligations.ArithmeticIsCorrectlyRounded :=
  ⟨fun _ _ hx hy => ⟨correctlyRounded_add hx hy, correctlyRounded_sub hx hy, correctlyRounded_mul hx hy,
    correctlyRounded_div hx hy⟩, fun _ => correctlyRounded_sqrt⟩

/-- Settles O28: the rounding in units of `2^-1074`, and every step to a delay keeps the sign +. -/
theorem roundHalfAwayIsNearest : Obligations.RoundHalfAwayIsNearest :=
  ⟨fun _ _ => roundHalfAway_nearest, fun _ _ _ _ c hp h => sign_unroundedDelays hp.soundSpeed h c⟩

/-- Settles O30: a delay of the least distance or of rate 0 has no magnitude, and a delay goes by its distance. -/
theorem geometryDelays : Obligations.GeometryDelays := by
  intro p az pol fs k h
  refine ⟨?_, fun a b => delay_congr h, delay_of_rate_zero h⟩
  obtain ⟨c, hc, hmin⟩ := exists_nearest_delay_zero h
  exact ⟨c, hc, fun i => toRat_le.2 (hmin i)⟩

/-- Settles O31: subtraction, product, quotient and rounding are each monotone. -/
theorem delaysFollowDistance : Obligations.DelaysFollowDistance := fun _ _ _ _ _ hp h _ _ hle =>
  delay_mono h hp.soundSpeed (toRat_le.1 hle)

/-- Settles O32: the source is on the z axis, so all the distances are equal. -/
theorem defaultDirectionIsSynchronised : Obligations.DefaultDirectionIsSynchronised := by
  intro p pol fs k hp hpol hmics h
  obtain ⟨hd, -, -⟩ := geomDelays_some h
  obtain ⟨hr, -, -⟩ := hp.srcDist
  exact delay_of_equidistant h fun a b => distances_of_azimuth_zero hr hpol hd (hmics a b)

/-- Settles O33: the seeding, queue by queue. -/
theorem calcDelaysSeedsQueues : Obligations.CalcDelaysSeedsQueues := by
  intro s k hi hp haz hpol hk hroom
  have hp' : ({ s with queues := seeded k s.queues } : State).pend = none := hp
  refine ⟨seeded k s.queues, ?_, fun c => ?_⟩
  · rw [exec_inited hi, commandBody, calcDelays_of_some s k haz hpol hk hroom, finish_eq hp']
  · rw [seeded, Eight.get_ofFn]
    exact DelayQueue.elements_pushZeros _ _ (hroom c)

/-- Settles O34: the two ways CALC_DELAYS fails, each before any queue is changed. -/
theorem calcDelaysErrors : Obligations.CalcDelaysErrors := by
  intro s hi hp
  rw [exec_inited hi, commandBody]
  refine ⟨fun h => ?_, fun k c haz hpol hk hc => ?_⟩
  · rw [calcDelaysBody_not_finite h, raise_recoverable hp rfl]
  · rw [calcDelaysBody_no_room haz hpol hk hc, raise_fatal_eq hp rfl]

/-- Settles O60: delays of 0 fit and push nothing, and no table of allowed parameters has a row of rate 0. -/
theorem rateZeroGivesNoDelayAndNoCoefficients : Obligations.RateZeroGivesNoDelayAndNoCoefficients := by
  intro s hp hi hn
  simp only [exec_inited hi, commandBody]
  refine ⟨fun h0 haz hpol hgeom hcount => ?_, fun h0 => ?_, fun h0 => ?_⟩
  · obtain ⟨k, hk⟩ : ∃ k, geomDelays s.params (ofBinary32 s.arg0) (ofBinary32 s.arg1) 0 = some k :=
      ⟨_, geomDelays_of_finite hgeom⟩
    have hzero := delay_of_rate_zero hk rfl
    have hroom : ∀ c, (s.queues.get c).count + k.get c ≤ 32 := fun c => by
      rw [hzero c]
      exact hcount c
    rw [calcDelays_of_some s k haz hpol (h0 ▸ hk) hroom, seeded_of_zero hzero]
    exact congrArg _ (finish_eq hn)
  · rw [selectFirCoeffBody_of_no_row (h0 ▸ lookupFir_zero hp), raise_recoverable hn rfl]
  · rw [writeSampleRateBody_of_no_row (h0 ▸ lookupByRate_zero hp), raise_recoverable hn rfl]

end Sys2Proof.Machine
end

section
/-! PROOFS of the family 42_delay_queue.md: ENQUEUE (O23), DEQUEUE (O24), the delay line of one queue (O25) and a whole
capture cycle (O43). -/

namespace Sys2Proof.Machine

/-! ### The delay line -/

/-- The capture loop loses nothing and reorders nothing: its output, then what it leaves in the queue, is what the queue
held, then the samples (R124). -/
theorem DelayQueue.delay_append_elements (vs : List Half) : ∀ q : DelayQueue, q.count < 32 →
    (q.delay vs).1 ++ (q.delay vs).2.elements = q.elements ++ vs := by
  induction vs with
  | nil => intro q _; exact (List.append_nil _).symm
  | cons v vs ih =>
    intro q hq
    calc (q.push v).oldest :: (((q.push v).pop.delay vs).1 ++ ((q.push v).pop.delay vs).2.elements)
      _ = (q.push v).oldest :: (q.push v).pop.elements ++ vs := by
        rw [ih (q.push v).pop hq, List.cons_append]
      _ = q.elements ++ v :: vs := by rw [elements_turn q v hq, List.append_assoc, List.singleton_append]

/-- Settles O25: the output is as long as the samples, so it is the front of `delay_append_elements`. -/
theorem delayLineProperty : Obligations.DelayLineProperty := by
  intro q vs hq
  have hsplit := DelayQueue.delay_append_elements vs q (by omega)
  have hlength := DelayQueue.delay_length vs q
  rw [← hsplit]
  exact ⟨(List.take_left' hlength).symm, (List.drop_left' hlength).symm, DelayQueue.delay_count vs q⟩

/-! ### The beam -/

/-- Sign-extended i16 values add up in 32 bits as integers, as long as the accumulator has room for that many. -/
theorem toInt_foldl_add_signExtend (i : Nat) (ds : List (List Half)) : ∀ acc : Word,
    -2147483648 + 32768 * ds.length ≤ acc.toInt → acc.toInt < 2147483648 - 32768 * ds.length →
    (ds.foldl (fun acc d => acc + (d.getD i 0).signExtend 32) acc).toInt =
      acc.toInt + (ds.map fun d => (d.getD i 0).toInt).sum := by
  induction ds with
  | nil => intro acc _ _; exact (Int.add_zero _).symm
  | cons d ds ih =>
    intro acc hlow hhigh
    have hd := BitVec.le_toInt (d.getD i 0)
    have hd' := BitVec.toInt_lt (x := d.getD i 0)
    rw [List.length_cons] at hlow hhigh
    have hadd : (acc + (d.getD i 0).signExtend 32).toInt = acc.toInt + (d.getD i 0).toInt := by
      rw [BitVec.toInt_add, BitVec.toInt_signExtend_of_le (by decide)]
      exact Int.bmod_eq_of_le (by omega) (by omega)
    rw [List.foldl_cons, ih _ (by omega) (by omega), hadd, List.map_cons, List.sum_cons, Int.add_assoc]

/-- The accumulator of a beam sample is the integer sum of the eight delayed samples (43_array_reader.md R148). -/
theorem toInt_beamAcc (delayed : Eight (List Half)) (i : Nat) :
    (beamAcc delayed i).toInt = (channels.map fun c => ((delayed.get c).getD i 0).toInt).sum := by
  have hlength : delayed.toList.length = 8 := rfl
  rw [beamAcc, toInt_foldl_add_signExtend i delayed.toList 0 (by rw [hlength]; decide) (by rw [hlength]; decide),
    Eight.toList_eq, List.map_map]
  exact Int.zero_add _

/-- `clamp16` saturates (R148). -/
theorem toInt_clamp16 (acc : Word) : (clamp16 acc).toInt = max (-32768) (min 32767 acc.toInt) := by
  unfold clamp16
  split
  · next hlow => rw [min_eq_right (by omega), max_eq_left (by omega)]; rfl
  split
  · next hhigh => rw [min_eq_left (by omega)]; rfl
  · have hfits : (acc.setWidth 16).toInt = acc.toInt := by
      rw [BitVec.toInt_setWidth, ← Int.bmod_bmod_of_dvd (m := 2 ^ 32) (by decide), ← BitVec.toInt_eq_toNat_bmod]
      exact Int.bmod_eq_of_le (by omega) (by omega)
    rw [hfits, min_eq_right (by omega), max_eq_right (by omega)]

/-- A beam sample is the clamped integer sum of the delayed samples at its position (R148). -/
theorem toInt_beamform_getD (s : State) {i : Nat} (hi : i < s.params.numSamples) :
    ((beamform s).beam.getD i 0).toInt =
      max (-32768) (min 32767 (channels.map fun c => ((s.delayed.get c).getD i 0).toInt).sum) := by
  have hget : (beamform s).beam.getD i 0 = clamp16 (beamAcc s.delayed i) := by simp [hi]
  rw [hget, toInt_clamp16, toInt_beamAcc]

/-! ### The capture cycle -/

/-- Every channel's samples go through its queue as through a delay line (43_array_reader.md R147). -/
theorem delayChannels_line (s : State) (c : Channel) (hcount : (s.queues.get c).count ≤ 31) :
    (delayChannels s).delayed.get c = ((s.queues.get c).elements ++ s.raw.get c).take (s.raw.get c).length ∧
    ((delayChannels s).queues.get c).elements =
      ((s.queues.get c).elements ++ s.raw.get c).drop (s.raw.get c).length ∧
    ((delayChannels s).queues.get c).count = (s.queues.get c).count := by
  rw [delayChannels_delayed, delayChannels_queues, Eight.get_ofFn, Eight.get_ofFn]
  exact delayLineProperty (s.queues.get c) (s.raw.get c) hcount

/-- A capture cycle between its reads and the delay line: the edge consumed, `blocks` read, and the bus as in `s1`. -/
def blocksRead (s s1 : State) (blocks : List (List Byte)) : State :=
  micRead { s with evtPend := false } (rawSet s.params.numSamples channels blocks s.raw) s1.fpga s1.draw
    (blocks.map fun b => .read s.params.micAddr (2 * s.params.numSamples) (some b))

theorem blocksRead_raw_get (s s1 : State) {blocks : List (List Byte)} (hblocks : blocks.length = 8) (c : Channel) :
    (blocksRead s s1 blocks).raw.get c = halvesOf s.params.numSamples (blocks.getD c.val []) :=
  rawSet_get _ blocks hblocks s.raw c

/-- With a latched edge, eight good reads and room in every queue, CAPTURE runs its cycle to the end (R145 to R149). -/
theorem captureIssue_of_reads {s s1 : State} {blocks : List (List Byte)} (he : s.evtPend = true)
    (hcounts : ∀ c, (s.queues.get c).count ≤ 31) (hblocks : blocks.length = 8)
    (hreads : ReadsOk s.params.micAddr (2 * s.params.numSamples) s blocks s1) :
    captureIssue s = finish { beamform (delayChannels (blocksRead s s1 blocks)) with blockValid := true } := by
  have hread := readChannels_ok channels blocks s s1 { s with evtPend := false } hblocks.symm rfl rfl rfl hreads
  unfold captureIssue captureBody
  rw [if_pos he, hread]
  exact if_neg (Bool.eq_false_iff.1 (noFull hcounts))

/-- Settles O43: the rows are the blocks read, each goes through its delay line, and the beam is the clamped sum. -/
theorem captureCycle : Obligations.CaptureCycle := by
  intro s s1 blocks hi he hp hcounts hblocks hreads
  have hraw := blocksRead_raw_get s s1 hblocks
  have hlength (c : Channel) : ((blocksRead s s1 blocks).raw.get c).length = s.params.numSamples := by
    rw [hraw, halvesOf_length]
  have hline (c : Channel) := delayChannels_line (blocksRead s s1 blocks) c (hcounts c)
  simp only [hlength] at hline
  refine ⟨(blocksRead s s1 blocks).raw, (delayChannels (blocksRead s s1 blocks)).delayed,
    (delayChannels (blocksRead s s1 blocks)).queues, (beamform (delayChannels (blocksRead s s1 blocks))).beam, ?_,
    fun c => ⟨hlength c, fun i hlt => ?_⟩, fun c => (hline c).1, fun c => (hline c).2, ?_,
    fun i hlt => toInt_beamform_getD (delayChannels (blocksRead s s1 blocks)) hlt⟩
  · have hpend : State.pend { beamform (delayChannels (blocksRead s s1 blocks)) with blockValid := true } = none := hp
    rw [exec_inited hi, commandBody, captureIssue_of_reads he hcounts hblocks hreads, finish_eq hpend]
    rfl
  · rw [hraw, halvesOf_getD _ _ _ hlt]
  · rw [beamform_beam, List.length_map, List.length_range]
    rfl

/-! ### ENQUEUE and DEQUEUE -/

/-- Settles O23: with a free slot the sample goes behind the elements; with none, QUEUE_FULL. -/
theorem enqueueAppends : Obligations.EnqueueAppends := by
  refine ⟨by decide, fun s c hi hp => ?_⟩
  have hexec : exec (.enqueue c) s = .next (enqueueBody c (sampleOperand s) s) := exec_inited hi (.enqueue c)
  rw [hexec]
  obtain ⟨hfull, e⟩ | ⟨hroom, e⟩ := enqueue_cases c (sampleOperand s) s
  · refine ⟨fun hlt => absurd hfull hlt.ne, fun _ => ?_⟩
    rw [e, raise_fatal_eq hp rfl]
  · refine ⟨fun hlt => ⟨(s.queues.get c).push (sampleOperand s), ?_, DelayQueue.elements_push _ _ hlt,
      DelayQueue.push_count _ _, fun i hne => Eight.get_set_ne _ hne _⟩, fun hfull => absurd hfull hroom⟩
    rw [e]
    exact congrArg _ (finish_eq hp)

/-- Settles O24: with an element in the queue the first one leaves it; with none, QUEUE_EMPTY. -/
theorem dequeueReturnsOldest : Obligations.DequeueReturnsOldest := by
  refine ⟨by decide, fun s c hi hp => ?_⟩
  have hexec : exec (.dequeue c) s = .next (dequeueBody c s) := exec_inited hi (.dequeue c)
  rw [hexec]
  obtain ⟨hempty, e⟩ | ⟨hsome, e⟩ := dequeue_cases c s
  · refine ⟨fun v rest hcons => ?_, fun _ => ?_⟩
    · have hlength := DelayQueue.elements_length (s.queues.get c)
      rw [hcons, hempty] at hlength
      exact nomatch hlength
    · rw [e, raise_fatal_eq hp rfl]
  · refine ⟨fun v rest hcons => ?_, fun hempty => absurd hempty hsome⟩
    have hpos : 0 < (s.queues.get c).count := Nat.pos_of_ne_zero hsome
    obtain ⟨rfl, rfl⟩ := List.cons.inj ((DelayQueue.elements_eq_cons _ hpos).symm.trans hcons)
    refine ⟨(s.queues.get c).pop, ?_, rfl, Nat.sub_add_cancel hpos, fun i hne => Eight.get_set_ne _ hne _⟩
    rw [e]
    exact congrArg _ (finish_eq hp)

end Sys2Proof.Machine
end

section
/-! PROOFS of the family 43_array_reader.md: READ_SAMPLE_RATE (O35, O36), WRITE_SAMPLE_RATE (O37, O38), INIT (O40, O41),
the beamformer (O44), and the CAPTURE that holds (O42), fails (O46, O47) or carries 1000 to the beam (O45). -/

namespace Sys2Proof.Machine

/-! ### Two transactions -/

/-- Two transactions, one after the other. -/
theorem logTxn_logTxn (x y : BusTxn) (s : State) : (s.logTxn x).logTxn y =
    { s with fpga := s.fpga.tail.tail, busLog := s.busLog ++ [x, y], draw := s.draw + 1 + 1 } := by
  simp [State.logTxn]

/-- With nothing waiting, a recoverable code after one transaction writes STATUS.ERR and the bus's part alone. -/
theorem raise_logTxn {s : State} (hp : s.pend = none) {e : ErrCode} (he : e.isFatal = false) (x : BusTxn) :
    raise e (s.logTxn x) =
      { s with err := e, fpga := s.fpga.tail, busLog := s.busLog ++ [x], draw := s.draw + 1 } :=
  raise_recoverable (s := s.logTxn x) hp he

/-- So does one after two transactions. -/
theorem raise_logTxn_logTxn {s : State} (hp : s.pend = none) {e : ErrCode} (he : e.isFatal = false) (x y : BusTxn) :
    raise e ((s.logTxn x).logTxn y) =
      { s with err := e, fpga := s.fpga.tail.tail, busLog := s.busLog ++ [x, y], draw := s.draw + 1 + 1 } := by
  rw [raise_recoverable (s := (s.logTxn x).logTxn y) hp he, logTxn_logTxn]

/-! ### READ_SAMPLE_RATE -/

/-- The lookup by constant finds the first row that has it (R142). -/
theorem lookupByConstant_first {p : Params} {before after : List FreqRow} {e : FreqRow} {kv : Half}
    (htable : p.freqTable = before ++ e :: after) (hbefore : ∀ r ∈ before, r.constant ≠ kv) (he : e.constant = kv) :
    lookupByConstant p kv = some e := by
  rw [lookupByConstant, htable]
  exact find?_first (fun r hr => beq_false_of_ne (hbefore r hr)) (beq_iff_eq.2 he)

/-- It finds no row exactly when no row has the constant (R142). -/
theorem lookupByConstant_eq_none {p : Params} {kv : Half} :
    lookupByConstant p kv = none ↔ ∀ e ∈ p.freqTable, e.constant ≠ kv := by
  simp [lookupByConstant]

section ReadRateConfig

variable {s s1 s2 : State} {bg bk : List Byte}

/-- A failing gain read ends `ReadRateConfig` (R141). -/
theorem readRateConfig_of_gain_err (hgain : memRead s.params.gainAddr 2 s = (none, s1)) :
    readRateConfig s = raise .busError s1 := by
  simp only [readRateConfig, hgain]

/-- A failing constant read ends it after the gain read (R141). -/
theorem readRateConfig_of_constant_err (hgain : memRead s.params.gainAddr 2 s = (some bg, s1))
    (hconst : memRead s.params.rateConstAddr 2 s1 = (none, s2)) : readRateConfig s = raise .busError s2 := by
  obtain ⟨rfl, -⟩ := memRead_ok hgain
  simp only [readRateConfig, hgain, logTxn_params, hconst]

/-- A constant of no row ends it after both reads (R141, R142). -/
theorem readRateConfig_of_no_row (hgain : memRead s.params.gainAddr 2 s = (some bg, s1))
    (hconst : memRead s.params.rateConstAddr 2 s1 = (some bk, s2))
    (hrow : lookupByConstant s.params (halfAt bk 0) = none) : readRateConfig s = raise .invalidInput s2 := by
  obtain ⟨rfl, -⟩ := memRead_ok hgain
  obtain ⟨rfl, -⟩ := memRead_ok hconst
  simp only [readRateConfig, hgain, logTxn_params, hconst, hrow]

/-- With both reads good, row `e` found and nothing waiting, gain, rate and RESULT take their values (R141). -/
theorem readRateConfig_of_row {e : FreqRow} (hp : s.pend = none)
    (hgain : memRead s.params.gainAddr 2 s = (some bg, s1))
    (hconst : memRead s.params.rateConstAddr 2 s1 = (some bk, s2))
    (hrow : lookupByConstant s.params (halfAt bk 0) = some e) : readRateConfig s = { s with
      gain := halfAt bg 0, rate := e.rate, result := e.rate, err := .ok, fpga := s2.fpga, draw := s2.draw,
      busLog := s.busLog ++ [.read s.params.gainAddr 2 (some bg), .read s.params.rateConstAddr 2 (some bk)] } := by
  obtain ⟨rfl, -⟩ := memRead_ok hgain
  obtain ⟨rfl, -⟩ := memRead_ok hconst
  simp only [readRateConfig, hgain, logTxn_params, hconst, hrow, logTxn_logTxn]
  refine finish_eq ?_
  exact hp

end ReadRateConfig

/-- Settles O35: both reads are good and the first row with the constant is found. -/
theorem readSampleRateAdopts : Obligations.ReadSampleRateAdopts := by
  intro s s1 s2 g0 g1 k0 k1 before after e hi hp hgain hconst htable hbefore he
  have hrow : lookupByConstant s.params (halfAt [k0, k1] 0) = some e := lookupByConstant_first htable hbefore he
  rw [exec_inited hi, commandBody, readRateConfig_of_row hp hgain hconst hrow]
  rfl

/-- Settles O36: each of the three ways `ReadRateConfig` fails ends with a recoverable code. -/
theorem readSampleRateErrors : Obligations.ReadSampleRateErrors := by
  intro s s1 hi hp
  rw [exec_inited hi, commandBody]
  refine ⟨fun hgain => ?_, fun bg hgain => ⟨fun s2 hconst => ?_, fun s2 k0 k1 hconst hnone => ?_⟩⟩
  · rw [readRateConfig_of_gain_err hgain]
    obtain rfl := memRead_err hgain
    exact congrArg _ (raise_logTxn hp rfl _)
  · rw [readRateConfig_of_constant_err hgain hconst]
    obtain ⟨rfl, -⟩ := memRead_ok hgain
    obtain rfl := memRead_err hconst
    rw [raise_logTxn_logTxn hp rfl]
    rfl
  · have hrow : lookupByConstant s.params (halfAt [k0, k1] 0) = none := lookupByConstant_eq_none.2 hnone
    rw [readRateConfig_of_no_row hgain hconst hrow]
    obtain ⟨rfl, -⟩ := memRead_ok hgain
    obtain ⟨rfl, -⟩ := memRead_ok hconst
    rw [raise_logTxn_logTxn hp rfl]
    rfl

/-! ### WRITE_SAMPLE_RATE -/

/-- The lookup by rate finds the first row that has it (R144). -/
theorem lookupByRate_first {p : Params} {before after : List FreqRow} {e : FreqRow} {r : Word}
    (htable : p.freqTable = before ++ e :: after) (hbefore : ∀ row ∈ before, row.rate ≠ r) (he : e.rate = r) :
    lookupByRate p r = some e := by
  rw [lookupByRate, htable]
  exact find?_first (fun row hrow => beq_false_of_ne (hbefore row hrow)) (beq_iff_eq.2 he)

/-- A failing gain write ends WRITE_SAMPLE_RATE (R143). -/
theorem writeSampleRateBody_of_gain_err {s s1 : State} {e : FreqRow} (hrow : lookupByRate s.params s.arg0 = some e)
    (hgain : memWrite s.params.gainAddr (le16 e.gain) s = (false, s1)) :
    writeSampleRateBody s = raise .busError s1 := by
  simp only [writeSampleRateBody, rateOperand, hrow, hgain]

/-- A failing constant write ends it after the gain write (R143). -/
theorem writeSampleRateBody_of_constant_err {s s1 s2 : State} {e : FreqRow}
    (hrow : lookupByRate s.params s.arg0 = some e)
    (hgain : memWrite s.params.gainAddr (le16 e.gain) s = (true, s1))
    (hconst : memWrite s1.params.rateConstAddr (le16 e.constant) s1 = (false, s2)) :
    writeSampleRateBody s = raise .busError s2 := by
  simp only [writeSampleRateBody, rateOperand, hrow, hgain, hconst]

/-- Settles O37: the row is found, and both writes are good. -/
theorem writeSampleRateSwitches : Obligations.WriteSampleRateSwitches := by
  intro s s1 s2 before after e hi hp htable hbefore he hgain hconst
  have hrow := lookupByRate_first htable hbefore he
  obtain rfl := memWrite_state hgain
  rw [exec_inited hi, commandBody, writeSampleRateBody_of_writes hrow hgain hconst]
  obtain rfl := memWrite_state hconst
  rw [logTxn_logTxn, ← he]
  refine congrArg _ (finish_eq ?_)
  exact hp

/-- Settles O38: each of the three ways WRITE_SAMPLE_RATE fails ends with a recoverable code. -/
theorem writeSampleRateErrors : Obligations.WriteSampleRateErrors := by
  intro s hi hp
  rw [exec_inited hi, commandBody]
  refine ⟨fun hnone => ?_, fun before after e s1 htable hbefore he => ⟨fun hgain => ?_, fun s2 hgain hconst => ?_⟩⟩
  · rw [writeSampleRateBody_of_no_row (lookupByRate_eq_none.2 hnone), raise_recoverable hp rfl]
  · rw [writeSampleRateBody_of_gain_err (lookupByRate_first htable hbefore he) hgain]
    obtain rfl := memWrite_state hgain
    exact congrArg _ (raise_logTxn hp rfl _)
  · obtain rfl := memWrite_state hgain
    rw [writeSampleRateBody_of_constant_err (lookupByRate_first htable hbefore he) hgain hconst]
    obtain rfl := memWrite_state hconst
    rw [raise_logTxn_logTxn hp rfl]
    rfl

/-! ### INIT -/

/-- The construction empties every queue (R140). -/
theorem constructed_count (s : State) (c : Channel) : ((constructed s).queues.get c).count = 0 := by
  rw [constructed_queues, Eight.get_map, DelayQueue.emptied_count]

/-- A queue of depth 0 holds nothing (10_state.md R30). -/
theorem DelayQueue.elements_of_count_zero {q : DelayQueue} (h : q.count = 0) : q.elements = [] :=
  List.eq_nil_of_length_eq_zero ((elements_length q).trans h)

theorem constructed_elements (s : State) (c : Channel) : ((constructed s).queues.get c).elements = [] :=
  DelayQueue.elements_of_count_zero (constructed_count s c)

section Init

variable {s : State}

/-- A default geometry that is not finite stops INIT after the construction (R140, 41_delay_geometry.md R103). -/
theorem initBody_of_not_finite (h : geometryFinite s.params (F64.zero false) (F64.zero false) s.rate = false) :
    initBody s = raise .invalidInput (constructed s) := by
  simp only [initBody, constructed_params, constructed_rate, geomDelays_of_not_finite h]

variable {k : Eight Nat} (hk : geomDelays s.params (F64.zero false) (F64.zero false) s.rate = some k)
include hk

/-- A default delay above 32 stops INIT after the construction (R140, 41_delay_geometry.md R104). -/
theorem initBody_of_no_room {c : Channel} (hc : 32 < k.get c) : initBody s = raise .queueFull (constructed s) := by
  have hseed : seed k (constructed s) = none := by
    obtain ⟨h, -⟩ | ⟨-, hroom⟩ := seed_cases k (constructed s)
    · exact h
    · have hfit := hroom c
      rw [constructed_count, Nat.zero_add] at hfit
      exact absurd hc (not_lt.2 hfit)
  simp only [initBody, constructed_params, constructed_rate, hk, hseed]

/-- Default delays that fit an empty queue are seeded, the latch is armed and the configuration read (R140). -/
theorem initBody_of_room (hroom : ∀ c, k.get c ≤ 32) : initBody s = readRateConfig (beforeConfig k s) := by
  have hseed : seed k (constructed s) =
      some { constructed s with queues := seeded k (constructed s).queues } := by
    obtain ⟨-, c, hc⟩ | ⟨h, -⟩ := seed_cases k (constructed s)
    · rw [constructed_count, Nat.zero_add] at hc
      exact absurd hc (not_lt.2 (hroom c))
    · exact h
  simp only [initBody, constructed_params, constructed_rate, hk, hseed, beforeConfig]

end Init

/-- Before the configuration is read, every queue holds its delay's zeros (R140). -/
theorem beforeConfig_elements {k : Eight Nat} (hroom : ∀ c, k.get c ≤ 32) (s : State) (c : Channel) :
    ((beforeConfig k s).queues.get c).elements = List.replicate (k.get c) 0 := by
  have hfit : ((constructed s).queues.get c).count + k.get c ≤ 32 := by
    rw [constructed_count, Nat.zero_add]
    exact hroom c
  rw [beforeConfig, armed_queues, seeded, Eight.get_ofFn, DelayQueue.elements_pushZeros _ _ hfit, constructed_elements,
    List.nil_append]

/-- Settles O40: the seeding fits, and the two reads of `s` are good reads after it too. -/
theorem initConstructs : Obligations.InitConstructs := by
  intro s s1 s2 k g0 g1 k0 k1 before after e hp hk hroom hgain hconst htable hbefore he
  have hrow : lookupByConstant s.params (halfAt [k0, k1] 0) = some e := lookupByConstant_first htable hbefore he
  obtain ⟨rfl, -⟩ := memRead_ok hgain
  obtain ⟨hgain', -, -⟩ := memRead_some_congr (s := s) (s' := beforeConfig k s) rfl rfl hgain
  obtain ⟨hconst', hfpga, hdraw⟩ :=
    memRead_some_congr (s := s.logTxn _) (s' := (beforeConfig k s).logTxn _) rfl rfl hconst
  refine ⟨(beforeConfig k s).queues, ?_, beforeConfig_elements hroom s⟩
  have hbody := readRateConfig_of_row (s := beforeConfig k s) hp hgain' hconst' hrow
  rw [exec_eq_commandBody, if_pos rfl, commandBody, initBody_of_room hk hroom, hbody, hfpga, hdraw]
  rfl

/-- `ReadRateConfig` raises no fatal code (R141). -/
theorem readRateConfig_fatal (s : State) : (readRateConfig s).fatal = s.fatal := by
  obtain e | ⟨_, e⟩ | ⟨_, _, e⟩ | ⟨_, _, _, -, e⟩ := readRateConfig_cases s <;> rw [e] <;> exact Bool.or_false _

theorem readRateConfig_pend (s : State) : (readRateConfig s).pend = none := by
  obtain e | ⟨_, e⟩ | ⟨_, _, e⟩ | ⟨_, _, _, -, e⟩ := readRateConfig_cases s <;> rw [e] <;> rfl

/-- INIT ends with nothing waiting and with BLOCK_VALID cleared, however it ends (R140, 10_state.md R37). -/
theorem initBody_pend_blockValid (s : State) : (initBody s).pend = none ∧ (initBody s).blockValid = false := by
  obtain e | e | ⟨k, -, -, e⟩ := init_cases s <;> rw [e]
  · exact ⟨rfl, rfl⟩
  · exact ⟨rfl, rfl⟩
  · refine ⟨readRateConfig_pend _, ?_⟩
    rw [readRateConfig_frame]
    rfl

/-- An answer of the script is a good read, whatever bytes it lacks (20_memory.md R58). -/
theorem memRead_scripted_ok (addr : Half) (n : Nat) {s : State} {b : List Byte} {rest : List BusAnswer}
    (h : s.fpga = .ok b :: rest) : memRead addr n s =
      (some (answerBytes s.draw n b), s.logTxn (.read addr n (some (answerBytes s.draw n b)))) := by
  simp [memRead, State.nextAnswer, h]

/-- How `ReadRateConfig` fails with the bus's answers scripted (R141). -/
theorem readRateConfig_scripted_err (s : State) :
    ((∃ rest, s.fpga = .err :: rest) → (readRateConfig s).err = .busError) ∧
    ((∃ b rest, s.fpga = .ok b :: .err :: rest) → (readRateConfig s).err = .busError) ∧
    (∀ g0 g1 k0 k1 rest, s.fpga = .ok [g0, g1] :: .ok [k0, k1] :: rest →
      (∀ r ∈ s.params.freqTable, r.constant ≠ k1 ++ k0) → (readRateConfig s).err = .invalidInput) := by
  have hsecond (x : BusTxn) {a b : BusAnswer} {rest : List BusAnswer} (h : s.fpga = a :: b :: rest) :
      (s.logTxn x).fpga = b :: rest := by rw [logTxn_fpga, h, List.tail_cons]
  refine ⟨?_, ?_, fun g0 g1 k0 k1 rest h hnone => ?_⟩
  · rintro ⟨rest, h⟩
    rw [readRateConfig_of_gain_err (memRead_scripted_err _ _ h)]
    rfl
  · rintro ⟨b, rest, h⟩
    rw [readRateConfig_of_constant_err (memRead_scripted_ok _ _ h) (memRead_scripted_err _ _ (hsecond _ h))]
    rfl
  · rw [readRateConfig_of_no_row (memRead_scripted _ h rfl) (memRead_scripted _ (hsecond _ h) rfl)
      (lookupByConstant_eq_none.2 hnone)]
    rfl

/-- Settles O41: INIT's frame, then each way it fails: in its `ReadRateConfig`, or before with the queues empty. -/
theorem initErrors : Obligations.InitErrors := by
  intro s hp
  refine ⟨initBody s, rfl, ?_, fun herr => ?_, fun k hk hroom => ?_, fun hgeom => ?_, fun k c hk hc => ?_⟩
  · obtain ⟨hpend, hblock⟩ := initBody_pend_blockValid s
    have hframe := initBody_frame s
    simp only [commandFrame, withEnding, hpend, hblock, initBody_inited] at hframe
    rw [hp]
    exact hframe
  · obtain ⟨hok, -⟩ | hrates := initBody_rates s
    · exact absurd hok herr
    · exact hrates
  · have hframe := readRateConfig_frame (beforeConfig k s)
    rw [initBody_of_room hk hroom]
    refine ⟨congrArg State.evtEn hframe, congrArg State.evtPend hframe, fun c => ?_, readRateConfig_fatal _,
      readRateConfig_scripted_err (beforeConfig k s)⟩
    rw [hframe]
    exact beforeConfig_elements hroom s c
  · rw [initBody_of_not_finite hgeom]
    exact ⟨rfl, Bool.or_false _, rfl, rfl, rfl, constructed_elements s⟩
  · rw [initBody_of_no_room hk hc]
    exact ⟨rfl, Bool.or_true _, rfl, rfl, rfl, constructed_elements s⟩

/-! ### The beamformer -/

/-- The sum of eight i16 values has 19 bits (R148). -/
theorem beam_sum_range (v : Channel → Half) :
    -262144 ≤ (channels.map fun c => (v c).toInt).sum ∧ (channels.map fun c => (v c).toInt).sum ≤ 262136 := by
  have hlength : (channels.map fun c => (v c).toInt).length = 8 := rfl
  have hlow := List.card_nsmul_le_sum (channels.map fun c => (v c).toInt) (-32768)
    (List.forall_mem_map.2 fun c _ => BitVec.le_toInt (v c))
  have hhigh := List.sum_le_card_nsmul (channels.map fun c => (v c).toInt) 32767
    (List.forall_mem_map.2 fun c _ => BitVec.toInt_le (x := v c))
  rw [hlength, nsmul_eq_mul] at hlow hhigh
  omega

/-- Settles O44: the accumulator is the integer sum, whose range fits it, and `clamp16` saturates. -/
theorem beamSaturates : Obligations.BeamSaturates := by
  intro delayed i
  obtain ⟨hlow, hhigh⟩ := beam_sum_range fun c => (delayed.get c).getD i 0
  have hsum := toInt_beamAcc delayed i
  refine ⟨hsum, hsum ▸ hlow, hsum ▸ hhigh, ?_⟩
  rw [toInt_clamp16]
  split
  · omega
  · split <;> omega

/-! ### CAPTURE -/

/-- Settles O42: with no latched edge the issue of CAPTURE sets the wait alone. -/
theorem captureHoldsWithoutEdge : Obligations.CaptureHoldsWithoutEdge := by
  intro s hi he
  have hhold : captureIssue s = { s with pend := some .capture } := if_neg (by rw [he]; decide)
  rw [exec_inited hi, commandBody, hhold]
  refine ⟨rfl, fun t ht => ?_⟩
  obtain rfl := Host.Outcome.next.inj ht
  rfl

/-- A failing read ends a capture cycle with BUS_ERROR and no valid block (R146). -/
theorem captureBody_of_failing_read {s s1 : State} (h : readChannels channels s = (false, s1)) :
    captureBody s = raise .busError { s1 with blockValid := false } := by
  rw [captureBody, h]

/-- Settles O46: the loop over the channels stops at the failing read, before any queue is looked at. -/
theorem captureBusError : Obligations.CaptureBusError := by
  intro s s1 s2 blocks hi he hp hblocks hreads hfail
  obtain ⟨raw, hread⟩ := readChannels_err channels blocks s s1 s2 { s with evtPend := false } hblocks rfl rfl rfl hreads
    hfail
  refine ⟨raw, ?_⟩
  rw [exec_inited hi, commandBody, captureIssue, if_pos he, captureBody_of_failing_read hread]
  refine congrArg _ (raise_recoverable ?_ rfl)
  exact hp

/-- A queue of 32 stops a capture cycle after its reads (R147, 42_delay_queue.md R125). -/
theorem captureIssue_of_full_queue {s s1 : State} {blocks : List (List Byte)} (he : s.evtPend = true) {c : Channel}
    (hfull : (s.queues.get c).count = 32) (hblocks : blocks.length = 8)
    (hreads : ReadsOk s.params.micAddr (2 * s.params.numSamples) s blocks s1) :
    captureIssue s = raise .queueFull (blocksRead s s1 blocks) := by
  have hread := readChannels_ok channels blocks s s1 { s with evtPend := false } hblocks.symm rfl rfl rfl hreads
  have hany : anyQueueFull s.queues = true := channels_any.2 ⟨c, beq_iff_eq.2 hfull⟩
  rw [captureIssue, if_pos he, captureBody, hread]
  exact if_pos hany

/-- Settles O47: QUEUE_FULL after the reads, with nothing waiting. -/
theorem captureQueueFull : Obligations.CaptureQueueFull := by
  intro s s1 blocks c hi he hp hfull hblocks hreads
  refine ⟨(blocksRead s s1 blocks).raw, ?_⟩
  rw [exec_inited hi, commandBody, captureIssue_of_full_queue he hfull hblocks hreads]
  exact congrArg _ (raise_fatal_eq (s := blocksRead s s1 blocks) hp rfl)

/-- The eight blocks of R150: 1000 in the first sample of channel 0, and 0 in every other sample. -/
def impulseBlocks (N : Nat) : List (List Byte) :=
  (0xE8#8 :: 0x03#8 :: List.replicate (2 * N - 2) 0) :: List.replicate 7 (List.replicate (2 * N) 0)

/-- The little-endian samples of those blocks. -/
theorem impulseBlocks_sample (N : Nat) (c : Channel) (i : Nat) :
    ((impulseBlocks N).getD c.val []).getD (2 * i + 1) 0 ++ ((impulseBlocks N).getD c.val []).getD (2 * i) 0 =
      if c = 0 ∧ i = 0 then 1000 else 0#16 := by
  have hzero (m j : Nat) : (List.replicate m (0 : Byte)).getD j 0 = 0 := by
    rw [List.getD_eq_getElem?_getD, List.getElem?_getD_replicate_default_eq]
  cases c using Fin.cases with
  | zero =>
    cases i with
    | zero =>
      rw [if_pos ⟨rfl, rfl⟩]
      show 0x03#8 ++ 0xE8#8 = 1000#16
      decide
    | succ i =>
      rw [if_neg (fun h => Nat.succ_ne_zero i h.2)]
      exact congrArg₂ (fun high low : Byte => (high ++ low : Half)) (hzero (2 * N - 2) (2 * i + 1))
        (hzero (2 * N - 2) (2 * i))
  | succ c =>
    have hblock : (impulseBlocks N).getD c.succ.val [] = List.replicate (2 * N) 0 :=
      List.getD_replicate _ c.isLt
    rw [hblock, hzero, hzero, if_neg (fun h => Fin.succ_ne_zero c h.1)]
    rfl

/-- Settles O45: a capture cycle on empty queues delays nothing, so the sum has one sample that is not 0. -/
theorem endToEndThousand : Obligations.EndToEndThousand := by
  intro s s1 hi he hp hempty hN hreads
  obtain ⟨raw, delayed, qs, beam, hexec, hraw, hdelayed, -, hlength, hbeam⟩ :=
    captureCycle s s1 (impulseBlocks s.params.numSamples) hi he hp (fun c => (hempty c).trans_le (Nat.zero_le _)) rfl
      hreads
  have hsample (c : Channel) (i : Nat) (hlt : i < s.params.numSamples) :
      (delayed.get c).getD i 0 = if c = 0 ∧ i = 0 then 1000 else 0#16 := by
    obtain ⟨hrow, hsamples⟩ := hraw c
    rw [hdelayed c, DelayQueue.elements_of_count_zero (hempty c), List.nil_append, List.take_of_length_le hrow.le,
      hsamples i hlt, impulseBlocks_sample]
  have hvalue (i : Nat) (hlt : i < s.params.numSamples) : beam.getD i 0 = if i = 0 then 1000 else 0#16 := by
    refine BitVec.eq_of_toInt_eq ?_
    simp only [hbeam i hlt, hsample _ i hlt]
    cases i <;> rfl
  refine ⟨_, hexec, hlength, hvalue 0 hN, fun i hpos => ?_⟩
  by_cases hlt : i < s.params.numSamples
  · exact (hvalue i hlt).trans (if_neg (Nat.ne_of_gt hpos))
  · exact List.getD_eq_default _ _ (hlength.trans_le (not_lt.1 hlt))

end Sys2Proof.Machine
end

section
/-! PROOFS of the family 44_filter_stage.md: SELECT_FIR_COEFF (O49, O50), SET_CUSTOM_FIR_COEFF (O51), and that the
coefficients reach nothing but their own store and the answer to a read of it (O52). -/

namespace Sys2Proof.Machine

/-! ### The same state with other coefficients -/

/-- `s` with another coefficient set held. -/
def withCoeff (taps : Vector Half 128) (s : State) : State := { s with coeff := taps }

section WithCoeff

variable (taps : Vector Half 128) (s : State)

@[simp] theorem withCoeff_fatal : (withCoeff taps s).fatal = s.fatal := rfl
@[simp] theorem withCoeff_pend : (withCoeff taps s).pend = s.pend := rfl
@[simp] theorem withCoeff_evtPend : (withCoeff taps s).evtPend = s.evtPend := rfl
@[simp] theorem withCoeff_evtEn : (withCoeff taps s).evtEn = s.evtEn := rfl
@[simp] theorem withCoeff_rate : (withCoeff taps s).rate = s.rate := rfl
@[simp] theorem withCoeff_queues : (withCoeff taps s).queues = s.queues := rfl
@[simp] theorem withCoeff_params : (withCoeff taps s).params = s.params := rfl
@[simp] theorem withCoeff_inputs : (withCoeff taps s).inputs = s.inputs := rfl
@[simp] theorem withCoeff_busy : (withCoeff taps s).busy = s.busy := rfl
@[simp] theorem rateOperand_withCoeff : rateOperand (withCoeff taps s) = rateOperand s := rfl
@[simp] theorem azimuthOperand_withCoeff : azimuthOperand (withCoeff taps s) = azimuthOperand s := rfl
@[simp] theorem polarOperand_withCoeff : polarOperand (withCoeff taps s) = polarOperand s := rfl
@[simp] theorem constructed_withCoeff : constructed (withCoeff taps s) = withCoeff taps (constructed s) := rfl

/-! ### The bus and the commands but for the filter commands: the coefficients are kept and not looked at -/

@[simp] theorem memRead_withCoeff (addr : Half) (n : Nat) : memRead addr n (withCoeff taps s) =
    ((memRead addr n s).1, withCoeff taps (memRead addr n s).2) := rfl

@[simp] theorem memWrite_withCoeff (addr : Half) (bytes : List Byte) : memWrite addr bytes (withCoeff taps s) =
    ((memWrite addr bytes s).1, withCoeff taps (memWrite addr bytes s).2) := rfl

theorem readRateConfig_withCoeff : readRateConfig (withCoeff taps s) = withCoeff taps (readRateConfig s) := by
  simp only [readRateConfig, memRead_withCoeff, withCoeff_params]
  rcases memRead s.params.gainAddr 2 s with ⟨_ | bg, s1⟩
  · rfl
  simp only [memRead_withCoeff, withCoeff_params]
  rcases memRead s1.params.rateConstAddr 2 s1 with ⟨_ | bk, s2⟩
  · rfl
  simp only [withCoeff_params]
  cases lookupByConstant s2.params (halfAt bk 0) <;> rfl

theorem writeSampleRateBody_withCoeff :
    writeSampleRateBody (withCoeff taps s) = withCoeff taps (writeSampleRateBody s) := by
  simp only [writeSampleRateBody, rateOperand_withCoeff, memWrite_withCoeff, withCoeff_params]
  rcases lookupByRate s.params (rateOperand s) with _ | e
  · rfl
  dsimp only
  rcases memWrite s.params.gainAddr (le16 e.gain) s with ⟨_ | _, s1⟩
  · rfl
  simp only [memWrite_withCoeff, withCoeff_params]
  rcases memWrite s1.params.rateConstAddr (le16 e.constant) s1 with ⟨_ | _, s2⟩ <;> rfl

theorem seed_withCoeff (k : Eight Nat) : seed k (withCoeff taps s) = (seed k s).map (withCoeff taps) := by
  unfold seed
  rw [apply_ite (Option.map (withCoeff taps))]
  rfl

theorem calcDelaysBody_withCoeff : calcDelaysBody (withCoeff taps s) = withCoeff taps (calcDelaysBody s) := by
  simp only [calcDelaysBody, azimuthOperand_withCoeff, polarOperand_withCoeff, withCoeff_params, withCoeff_rate,
    seed_withCoeff, apply_ite (withCoeff taps)]
  refine ite_congr rfl (fun _ => rfl) fun _ => ?_
  rcases geomDelays s.params (azimuthOperand s) (polarOperand s) s.rate with _ | k
  · rfl
  dsimp only
  cases seed k s <;> rfl

theorem initBody_withCoeff : initBody (withCoeff taps s) = withCoeff taps (initBody s) := by
  simp only [initBody, constructed_withCoeff, withCoeff_params, withCoeff_rate, seed_withCoeff]
  rcases geomDelays (constructed s).params (F64.zero false) (F64.zero false) (constructed s).rate with _ | k
  · rfl
  dsimp only
  rcases seed k (constructed s) with _ | s2
  · rfl
  · exact readRateConfig_withCoeff taps (armed s2)

theorem enqueueBody_withCoeff (c : Channel) (v : Half) :
    enqueueBody c v (withCoeff taps s) = withCoeff taps (enqueueBody c v s) := by
  simp only [enqueueBody, withCoeff_queues]
  cases (s.queues.get c).enq v <;> rfl

theorem dequeueBody_withCoeff (c : Channel) : dequeueBody c (withCoeff taps s) = withCoeff taps (dequeueBody c s) := by
  simp only [dequeueBody, withCoeff_queues]
  cases (s.queues.get c).deq <;> rfl

theorem readChannels_withCoeff (ks : List Channel) : ∀ s : State, readChannels ks (withCoeff taps s) =
    ((readChannels ks s).1, withCoeff taps (readChannels ks s).2) := by
  induction ks with
  | nil => intro s; rfl
  | cons k ks ih =>
    intro s
    simp only [readChannels, memRead_withCoeff, withCoeff_params]
    rcases memRead s.params.micAddr (2 * s.params.numSamples) s with ⟨_ | b, s1⟩
    · rfl
    · exact ih { s1 with raw := s1.raw.set k (halvesOf s1.params.numSamples b) }

theorem captureBody_withCoeff : captureBody (withCoeff taps s) = withCoeff taps (captureBody s) := by
  simp only [captureBody, readChannels_withCoeff]
  rcases readChannels channels s with ⟨_ | _, s1⟩
  · rfl
  · simp only [withCoeff_queues, apply_ite (withCoeff taps)]
    rfl

theorem captureIssue_withCoeff : captureIssue (withCoeff taps s) = withCoeff taps (captureIssue s) := by
  simp only [captureIssue, withCoeff_evtPend, apply_ite (withCoeff taps), ← captureBody_withCoeff]
  rfl

theorem dataReadyEdge_withCoeff : dataReadyEdge (withCoeff taps s) = withCoeff taps (dataReadyEdge s) := by
  simp only [dataReadyEdge, withCoeff_fatal, withCoeff_evtEn, withCoeff_pend, apply_ite (withCoeff taps),
    ← captureBody_withCoeff]
  rfl

/-! ### Every command and every step: what differs is the coefficients and the answer to a read -/

/-- SELECT_FIR_COEFF keeps the coefficients held, or replaces them whatever they are (44_filter_stage.md R180). -/
theorem selectFirCoeffBody_withCoeff : ∃ taps',
    selectFirCoeffBody (withCoeff taps s) = withCoeff taps' (selectFirCoeffBody s) := by
  simp only [selectFirCoeffBody, withCoeff_params, withCoeff_rate]
  rcases lookupFir s.params s.rate with _ | f
  · exact ⟨taps, rfl⟩
  · exact ⟨(storeAndPush f.taps s).coeff, rfl⟩

theorem commandBody_withCoeff (c : Instr) : ∃ taps',
    commandBody c (withCoeff taps s) = withCoeff taps' (commandBody c s) := by
  cases c with
  | init => exact ⟨taps, initBody_withCoeff taps s⟩
  | readSampleRate => exact ⟨taps, readRateConfig_withCoeff taps s⟩
  | writeSampleRate => exact ⟨taps, writeSampleRateBody_withCoeff taps s⟩
  | selectFirCoeff => exact selectFirCoeffBody_withCoeff taps s
  | setCustomFirCoeff => exact ⟨(storeAndPush (coeffOperand s) s).coeff, rfl⟩
  | calcDelays => exact ⟨taps, calcDelaysBody_withCoeff taps s⟩
  | capture => exact ⟨taps, captureIssue_withCoeff taps s⟩
  | enqueue c => exact ⟨taps, enqueueBody_withCoeff taps s c (sampleOperand s)⟩
  | dequeue c => exact ⟨taps, dequeueBody_withCoeff taps s c⟩

variable {s} {t : State}

theorem exec_withCoeff {c : Instr} (h : exec c s = .next t) : ∃ taps',
    exec c (withCoeff taps s) = .next (withCoeff taps' t) := by
  obtain ⟨taps', e⟩ := commandBody_withCoeff taps s c
  rw [exec_eq_commandBody] at h ⊢
  cases h
  by_cases hc : c = .init
  · exact ⟨taps', by rw [if_pos hc, if_pos hc, e]⟩
  rw [if_neg hc, if_neg hc]
  obtain ⟨hi, hgate⟩ | ⟨hi, hgate⟩ := gated_cases (commandBody c) s <;> rw [hgate]
  · exact ⟨taps', by rw [gated_inited (s := withCoeff taps s) hi, e]⟩
  · exact ⟨taps, congrArg _ (gated_not_inited (s := withCoeff taps s) hi (commandBody c))⟩

theorem writeCmd_withCoeff {w : Word} (h : writeCmd w s = .next t) : ∃ taps',
    writeCmd w (withCoeff taps s) = .next (withCoeff taps' t) := by
  unfold writeCmd issue at h ⊢
  rw [withCoeff_busy]
  cases hb : s.busy <;> rw [hb] at h
  · cases hd : decode w <;> rw [hd] at h
    · cases h
      exact ⟨taps, rfl⟩
    · exact exec_withCoeff taps h
  · cases h
    exact ⟨taps, rfl⟩

theorem hostWrite_withCoeff {o : BitVec 16} {b : Nat} {w : Word} (h : hostWrite o b w s = .next t) : ∃ taps',
    hostWrite o b w (withCoeff taps s) = .next (withCoeff taps' t) := by
  have hserved : served (withCoeff taps s) o b .write = served s o b .write := rfl
  unfold hostWrite at h ⊢
  rw [hserved]
  split at h
  · exact writeCmd_withCoeff taps h
  all_goals
    cases h
    exact ⟨taps, rfl⟩

/-- One input served: the answer to a read may depend on the coefficients, and nothing else but they. -/
theorem serve_withCoeff {i : Input} (h : serve i s = .next t) : ∃ taps' reply,
    serve i (withCoeff taps s) = .next { withCoeff taps' t with reply := reply } := by
  cases i with
  | hostRead o b => cases h; exact ⟨taps, readReply (withCoeff taps s) o b, rfl⟩
  | hostWrite o b w =>
    obtain ⟨taps', e⟩ := hostWrite_withCoeff taps h
    exact ⟨taps', t.reply, e⟩
  | dataReady =>
    cases h
    exact ⟨taps, (dataReadyEdge s).reply, congrArg _ (dataReadyEdge_withCoeff taps s)⟩
  | reset => cases h; exact ⟨(resetEvent s).coeff, .none, rfl⟩

theorem step_withCoeff (h : step s = .next t) : ∃ taps' reply,
    step (withCoeff taps s) = .next { withCoeff taps' t with reply := reply } := by
  unfold step at h ⊢
  rw [withCoeff_inputs]
  cases hi : s.inputs <;> rw [hi] at h
  · cases h
    exact ⟨taps, .none, rfl⟩
  · exact serve_withCoeff taps h

end WithCoeff

/-! ### A set stored and pushed -/

/-- Value `i` of a buffer travels as bytes `2i` and `2i+1`, the low one first (20_memory.md R59). -/
theorem bytesOf_getElem? (vs : List Half) : ∀ i : Nat,
    (bytesOf vs)[2 * i]? = vs[i]?.map (BitVec.extractLsb' 0 8) ∧
    (bytesOf vs)[2 * i + 1]? = vs[i]?.map (BitVec.extractLsb' 8 8) := by
  induction vs with
  | nil => intro i; exact ⟨rfl, rfl⟩
  | cons v vs ih =>
    intro i
    cases i with
    | zero => exact ⟨rfl, rfl⟩
    | succ i => exact ih i

/-- With nothing waiting, the set is stored and one write pushes it; the code says how the bus answered (R180, R182). -/
theorem storeAndPush_of_write {taps : Vector Half 128} {s s1 : State} {ok : Bool} (hp : s.pend = none)
    (hw : memWrite s.params.firAddr (bytesOf taps.toList) s = (ok, s1)) : storeAndPush taps s = { s with
      coeff := taps, coeffValid := true, err := if ok then .ok else .busError, fpga := s1.fpga, draw := s1.draw,
      busLog := s.busLog ++ [.write s.params.firAddr (bytesOf taps.toList) ok] } := by
  have hpush : pushCoeff { s with coeff := taps, coeffValid := true } =
      ((memWrite s.params.firAddr (bytesOf taps.toList) s).1,
        { (memWrite s.params.firAddr (bytesOf taps.toList) s).2 with coeff := taps, coeffValid := true }) := rfl
  rw [storeAndPush, hpush, hw]
  obtain rfl := memWrite_state hw
  cases ok
  · exact raise_recoverable (s := { s.logTxn _ with coeff := taps, coeffValid := true }) hp rfl
  · exact finish_eq (s := { s.logTxn _ with coeff := taps, coeffValid := true }) hp

/-- The lookup finds the first row that has the rate (44_filter_stage.md R181). -/
theorem lookupFir_first {p : Params} {before after : List FirRow} {f : FirRow} {r : Word}
    (htable : p.firTable = before ++ f :: after) (hbefore : ∀ row ∈ before, row.rate ≠ r) (hf : f.rate = r) :
    lookupFir p r = some f := by
  rw [lookupFir, htable]
  exact find?_first (fun row hrow => beq_false_of_ne (hbefore row hrow)) (beq_iff_eq.2 hf)

/-- It finds no row exactly when no row has the rate (R181). -/
theorem lookupFir_eq_none {p : Params} {r : Word} : lookupFir p r = none ↔ ∀ f ∈ p.firTable, f.rate ≠ r := by
  simp [lookupFir]

/-! ### The obligations -/

/-- Settles O49: the first row is found, and its taps are stored and pushed. -/
theorem selectFirCoeffLoadsAndPushes : Obligations.SelectFirCoeffLoadsAndPushes := by
  intro s s1 before after f ok hi hp htable hbefore hf hw
  refine ⟨?_, by rw [bytesOf_length, Vector.length_toList], fun i hlt => ?_⟩
  · rw [exec_inited hi, commandBody, selectFirCoeffBody, lookupFir_first htable hbefore hf]
    exact congrArg _ (storeAndPush_of_write hp hw)
  · have htap : f.taps.toList[i]? = some f.taps[i] := by simp [hlt]
    rw [(bytesOf_getElem? _ i).1, (bytesOf_getElem? _ i).2, htap]
    exact ⟨rfl, rfl⟩

/-- Settles O50: the lookup finds no row. -/
theorem selectFirCoeffWithoutRow : Obligations.SelectFirCoeffWithoutRow := by
  intro s hi hp hnone
  rw [exec_inited hi, commandBody, selectFirCoeffBody_of_no_row (lookupFir_eq_none.2 hnone), raise_recoverable hp rfl]

/-- Settles O51: the staging buffer is stored and pushed. -/
theorem setCustomFirCoeffLoadsAndPushes : Obligations.SetCustomFirCoeffLoadsAndPushes := by
  refine ⟨by decide, fun s s1 ok hi hp hw => ?_⟩
  rw [exec_inited hi]
  exact congrArg _ (storeAndPush_of_write hp hw)

/-- Settles O52: the two steps take the same course, whatever the input. -/
theorem coefficientsNeverReachSamples : Obligations.CoefficientsNeverReachSamples := by
  intro s t t' taps h h'
  obtain ⟨taps', reply, e⟩ := step_withCoeff taps h
  obtain rfl := Host.Outcome.next.inj (h'.symm.trans e)
  rfl

end Sys2Proof.Machine
end

section
/-! PROOFS of the family 60_exceptions.md: the checks on a write to CMD (O6), what an error response leaves (O14), the
data-ready edge and its latch (O48), and that every step answers (O8). -/

namespace Sys2Proof.Machine

/-! ### A write to CMD that runs no command -/

section CmdWrite

variable {s : State} {w : Word} {rest : List Input}

/-- While FATAL = 1 a write to CMD is refused by the guards (R56, R204). -/
theorem step_cmdWrite_fatal (hi : s.inputs = cmdWrite w :: rest) (hf : s.fatal = true) :
    step s = .next { s with inputs := rest, reply := .error } :=
  step_hostWrite_refused hi (by simp [served_of_fatal hf])

/-- While BUSY = 1 a write to CMD is refused before its word is looked at (R204). -/
theorem step_cmdWrite_busy (hi : s.inputs = cmdWrite w :: rest) (hf : s.fatal = false) (hb : s.busy = true) :
    step s = .next { s with inputs := rest, reply := .error } := by
  have hf' : (takeInput rest s).fatal = false := hf
  have hb' : (takeInput rest s).busy = true := hb
  rw [step_cons hi, serve, hostWrite_cmd hf', writeCmd, hb']
  rfl

/-- An accepted word that does not decode ends with ILLEGAL_COMMAND and writes STATUS.ERR alone (R204). -/
theorem step_cmdWrite_undecoded (hi : s.inputs = cmdWrite w :: rest) (hf : s.fatal = false) (hb : s.busy = false)
    {e : DecodeError} (hd : decode w = .error e) :
    step s = .next { s with err := .illegalCommand, inputs := rest, reply := .ack } := by
  have hnone : ¬ ∃ c, decode w = .ok c := fun ⟨_, hok⟩ => nomatch hd.symm.trans hok
  have hp : ({ s with inputs := rest, reply := .ack } : State).pend = none := pend_of_not_busy hb
  rw [step_cmdWrite hf hb hi, issue_of_no_command hnone, raise_recoverable hp rfl]

/-- An accepted command other than INIT is stopped by the gate before INIT (R77, R204). -/
theorem step_cmdWrite_before_init (hi : s.inputs = cmdWrite w :: rest) (hf : s.fatal = false) (hb : s.busy = false)
    (hn : s.inited = false) {c : Instr} (hd : decode w = .ok c) (hc : c ≠ .init) :
    step s = .next { s with err := .illegalCommand, inputs := rest, reply := .ack } :=
  (stepRunsTheWrittenCommand s w c rest hi hf hb hd).trans (exec_before_init hn hc hb)

end CmdWrite

/-! ### Who answers the host port -/

/-- A command leaves the answer of the write that issued it (10_state.md R25). -/
theorem exec_reply {c : Instr} {s t : State} (h : exec c s = .next t) : t.reply = s.reply := by
  obtain ⟨-, -, -, -, -, hreply⟩ := commandsLeaveArguments c s t h
  exact hreply

/-- An edge answers no host access. -/
theorem dataReadyEdge_reply (s : State) : (dataReadyEdge s).reply = s.reply := by
  obtain ⟨-, e⟩ | ⟨-, -, -, e⟩ | ⟨-, -, -, e⟩ := dataReady_cases s
  · rw [e]
  · rw [e, captureBody_frame]; rfl
  · rw [e]

/-! ### The data-ready latch -/

/-- An edge is ignored in the fatal state, and before INIT has armed the latch (R206). -/
theorem dataReadyEdge_ignored {s : State} (h : s.fatal = true ∨ s.evtEn = false) : dataReadyEdge s = s :=
  if_pos (by simpa using h)

/-- An edge runs the cycle of a waiting CAPTURE (R206). -/
theorem dataReadyEdge_of_waiting {s : State} (hf : s.fatal = false) (he : s.evtEn = true)
    (hp : s.pend = some .capture) : dataReadyEdge s = captureBody { s with pend := none } := by
  simp [dataReadyEdge, hf, he, hp]

/-- An edge that no CAPTURE waits for is latched, once (R206). -/
theorem dataReadyEdge_latched {s : State} (hf : s.fatal = false) (he : s.evtEn = true) (hp : s.pend = none) :
    dataReadyEdge s = { s with evtPend := true } := by
  simp [dataReadyEdge, hf, he, hp]

/-- A CAPTURE issued with a latched edge consumes it and runs its cycle (43_array_reader.md R145). -/
theorem exec_capture_latched {s : State} (hi : s.inited = true) (he : s.evtPend = false) :
    exec .capture { s with evtPend := true } = .next (captureBody s) := by
  have hconsumed : ({ s with evtPend := false } : State) = s := by rw [← he]
  rw [exec_inited (s := { s with evtPend := true }) hi, commandBody, captureIssue, if_pos rfl]
  exact congrArg _ (congrArg captureBody hconsumed)

/-- INIT leaves an armed latch armed, however it ends (43_array_reader.md R140). -/
theorem initBody_evtEn {s : State} (he : s.evtEn = true) : (initBody s).evtEn = true := by
  obtain e | e | ⟨k, -, -, e⟩ := init_cases s <;> rw [e]
  · exact he
  · exact he
  · rw [readRateConfig_frame]
    rfl

/-- A command leaves an armed latch armed: only INIT may write EVT_EN at all (10_state.md R38). -/
theorem exec_evtEn {c : Instr} {s t : State} (h : exec c s = .next t) (he : s.evtEn = true) : t.evtEn = true := by
  have hframe := congrArg State.evtEn (exec_frame h)
  cases c with
  | init =>
    obtain rfl := Host.Outcome.next.inj h
    exact initBody_evtEn he
  | readSampleRate | writeSampleRate | selectFirCoeff | setCustomFirCoeff | calcDelays | capture | enqueue | dequeue =>
    exact hframe.trans he

/-- A step but a reset leaves an armed latch armed (R206). -/
theorem step_evtEn {s t : State} (h : step s = .next t) (he : s.evtEn = true)
    (hnotReset : s.inputs.head? ≠ some .reset) : t.evtEn = true := by
  obtain hreset | hsame | ⟨-, -, hframe⟩ | ⟨w, c, -, -, -, hexec⟩ := step_writes h
  · exact absurd hreset hnotReset
  · exact (congrArg State.evtEn hsame).trans he
  · exact (congrArg State.evtEn hframe).trans he
  · exact exec_evtEn hexec he

/-! ### Every input is answered -/

/-- A write to CMD is refused, or issues a command, which answers (`exec_next`). -/
theorem writeCmd_next (w : Word) (s : State) : ∃ t, writeCmd w s = .next t := by
  obtain ⟨-, e⟩ | ⟨-, -, e⟩ | ⟨-, c, -, e⟩ := writeCmd_cases w s <;> rw [e]
  · exact ⟨_, rfl⟩
  · exact ⟨_, rfl⟩
  · exact exec_next c _

theorem hostWrite_next (o : BitVec 16) (b : Nat) (w : Word) (s : State) : ∃ t, hostWrite o b w s = .next t := by
  obtain e | e | e | ⟨_, e⟩ | ⟨-, -, -, e⟩ := hostWrite_cases o b w s <;> rw [e]
  · exact ⟨_, rfl⟩
  · exact ⟨_, rfl⟩
  · exact ⟨_, rfl⟩
  · exact ⟨_, rfl⟩
  · exact writeCmd_next w s

/-! ### The obligations -/

/-- Settles O6: each check of R204 by its own rule, then the command. -/
theorem cmdWritePriority : Obligations.CmdWritePriority := by
  intro s w rest hi
  exact ⟨step_cmdWrite_fatal hi, step_cmdWrite_busy hi, fun hf hb ⟨_, hd⟩ => step_cmdWrite_undecoded hi hf hb hd,
    fun hf hb hn ⟨_, hd, hc⟩ => step_cmdWrite_before_init hi hf hb hn hd hc,
    fun hf hb c hd => stepRunsTheWrittenCommand s w c rest hi hf hb hd⟩

/-- Settles O14: only a read and a refused write answer with an error; a stored or accepted write is acknowledged. -/
theorem errorResponseChangesNothing : Obligations.ErrorResponseChangesNothing := by
  intro s t i rest hi hstep hreply
  obtain ⟨hnil, -⟩ | ⟨i', rest', hi', hcase⟩ := step_cases hstep
  · exact nomatch hi.symm.trans hnil
  obtain ⟨rfl, rfl⟩ := List.cons.inj (hi.symm.trans hi')
  obtain ⟨o, b, rfl, rfl⟩ | ⟨-, rfl⟩ | ⟨-, rfl⟩ | ⟨o, b, w, rfl, hwrite⟩ := hcase
  · exact ⟨rfl, by rw [← hreply]; rfl⟩
  · exact nomatch (dataReadyEdge_reply _).symm.trans hreply
  · exact nomatch hreply
  obtain rfl | rfl | rfl | ⟨k, rfl⟩ | ⟨-, -, -, -, rfl | ⟨c, -, hexec⟩⟩ := hwrite
  · exact ⟨rfl, rfl⟩
  · exact nomatch hreply
  · exact nomatch hreply
  · exact nomatch hreply
  · exact nomatch hreply
  · exact nomatch (exec_reply hexec).symm.trans hreply

/-- Settles O48: the edge's three rules, and the latch that every step but a reset leaves armed. -/
theorem dataReadyEdgeRules : Obligations.DataReadyEdge := by
  refine ⟨fun s rest hi => ?_, fun s t => step_evtEn⟩
  have hedge : step s = .next (dataReadyEdge (takeInput rest s)) := step_cons hi
  rw [hedge]
  refine ⟨fun hoff => ?_, fun hf he hp => ?_, fun hf he hp hinit hlatch => ?_⟩
  · exact congrArg _ (dataReadyEdge_ignored (s := takeInput rest s) hoff)
  · exact congrArg _ (dataReadyEdge_latched (s := takeInput rest s) hf he hp)
  · rw [dataReadyEdge_of_waiting (s := takeInput rest s) hf he hp]
    exact (exec_capture_latched (s := { takeInput rest s with pend := none }) hinit hlatch).symm

/-- Settles O8: a write answers by `hostWrite_next`; nothing else that arrives can fail to. -/
theorem everyStepAnswers : Obligations.EveryStepAnswers := by
  intro s
  cases hi : s.inputs with
  | nil => exact ⟨_, step_nil hi⟩
  | cons i rest =>
    rw [step_cons hi]
    cases i with
    | hostWrite o b w => exact hostWrite_next o b w (takeInput rest s)
    | hostRead | dataReady | reset => exact ⟨_, rfl⟩

end Sys2Proof.Machine
end

section
/-! PROOFS of the family 70_reset_and_hazards.md: reset as an event (O10). -/

namespace Sys2Proof.Machine

/-- A reset is served from any state: no check stands before it (R230). -/
theorem step_reset {s : State} {rest : List Input} (hi : s.inputs = .reset :: rest) :
    step s = .next (resetEvent (takeInput rest s)) :=
  step_cons hi

/-- After a reset every field of STATUS reads 0 (10_state.md R43). -/
@[simp] theorem resetEvent_status (s : State) : (resetEvent s).status = 0 := by
  have hbusy : (resetEvent s).busy = false := rfl
  simp only [State.status, hbusy, resetEvent_coeffValid, resetEvent_blockValid, resetEvent_inited, resetEvent_evtEn,
    resetEvent_evtPend, resetEvent_fatal, resetEvent_err]
  rfl

/-- What a reset leaves in each channel's queue (10_state.md R43). -/
theorem resetEvent_queue (s : State) (c : Channel) :
    (resetEvent s).queues.get c = DelayQueue.unspecified s.draw c :=
  Eight.get_ofFn _ c

/-- A queue after reset is empty, whatever its slots hold (10_state.md R43). -/
theorem DelayQueue.elements_unspecified (draw : Nat) (c : Channel) : (DelayQueue.unspecified draw c).elements = [] :=
  DelayQueue.elements_of_count_zero rfl

/-- Settles O10: the registers by the rules of `resetEvent`, the queues by their value at each channel. -/
theorem resetEventClearsState : Obligations.ResetEventClearsState := by
  intro s rest hi
  refine ⟨resetEvent (takeInput rest s), step_reset hi, resetEvent_status _, resetEvent_pend _, resetEvent_arg0 _,
    resetEvent_arg1 _, resetEvent_result _, resetEvent_gain _, resetEvent_rate _, fun c => ?_, fun c => ?_,
    resetEvent_busLog _, resetEvent_fpga _, resetEvent_params _, resetEvent_inputs _⟩
  · rw [resetEvent_queue, DelayQueue.elements_unspecified]
  · rw [resetEvent_queue]
    exact ⟨rfl, rfl⟩

end Sys2Proof.Machine
end
